-- ==== Sys2Proof/Word.lean ====
section
/-! DEFINITION. The word types of the block (spec/00_scope.md R11): u8, u16 and u32 are bit vectors, whose `+`
wraps as the spec's `+W` does. Unbounded arithmetic is Nat. -/

namespace Sys2Proof

/-- A u8. -/
abbrev Byte := BitVec 8

/-- A u16: ring positions and descriptor indices (R110). -/
abbrev Half := BitVec 16

/-- A u32: registers, addresses held in registers, channel addresses. -/
abbrev Word := BitVec 32

end Sys2Proof
end

