-- ==== Sys2Proof/Syntax.lean ====
section
/-! DEFINITION. The seven commands of spec/30_encoding.md R320, one constructor per row of opcode_table.json. The
operands a command takes from ARG0 and ARG1 are latched at acceptance (R103) and are no part of the word. -/

namespace Sys2Proof

/-- The ring index `r` (R13): `rx` is encoded 0, `tx` is encoded 1. -/
inductive RingId where
  | rx
  | tx
deriving DecidableEq, Repr

/-- The command word's fields, as the mnemonics of R351 take them. `idx` is a number that an assembler refuses
above 0xFFFF (see WellFormed). -/
inductive Instr where
  /-- 0x01 RING_INIT (R400). -/
  | ringInit (r : RingId)
  /-- 0x02 RING_TRY_TAKE (R402). -/
  | ringTryTake (r : RingId)
  /-- 0x03 RING_HAS_INCOMING (R403). -/
  | ringHasIncoming (r : RingId)
  /-- 0x04 RING_PUBLISH (R404): `idx` is the descriptor index. -/
  | ringPublish (r : RingId) (kick : Bool) (idx : Nat)
  /-- 0x10 CH_CREATE (R510). -/
  | chCreate
  /-- 0x11 CH_SEND (R520): `idx` is the channel slot. -/
  | chSend (idx : Nat)
  /-- 0x20 POLL (R620). -/
  | poll
deriving DecidableEq, Repr

end Sys2Proof
end

