-- ==== Sys2Proof/Config.lean ====
section
/-! DEFINITION. The implementation parameters of spec/00_scope.md R8, as plain data. They are fixed when the block is
built (R802); State carries them, no step changes them, so that a statement about every state speaks of every
configuration (DESIGN CHOICE, log 3). -/

namespace Sys2Proof

/-- One piece of `MEM_ADMIT` (R8): an access of `size` bytes that starts at an address from `first` to `last` is
backed by the platform. A list of them can say any predicate of an address below 2^32 and a size. -/
structure Span where
  first : Nat
  last : Nat
  size : Nat
deriving DecidableEq, Repr

/-- `BYTE_ORDER` (R8, R220): the block has little-endian only. -/
inductive ByteOrder where
  | le
deriving DecidableEq, Repr

/-- The parameters of R8. `N` is `2 ^ log2N`; the sizes the source fixes are the constants below. -/
structure Config where
  /-- `LOG2N`. -/
  log2N : Nat
  /-- `MAX_CHANNELS`. -/
  maxChannels : Nat
  /-- `LOCAL_ADDR_BASE`. -/
  localAddrBase : Word
  /-- `NS_ADDR`. -/
  nsAddr : Word
  /-- `ADDR_ANY`. -/
  addrAny : Word
  /-- `RX_RETURN_KICK`. -/
  rxReturnKick : Bool
  /-- `BLK_BASE`, on the local core's bus. -/
  blkBase : Nat
  /-- `MEM_ADMIT`. -/
  memAdmit : List Span
  /-- `BYTE_ORDER`. -/
  byteOrder : ByteOrder
deriving DecidableEq, Repr

/-- The ring size `N` (R8). -/
def Config.n (c : Config) : Nat := 2 ^ c.log2N

/-- The size of the shared address space (R200). -/
def addrSpace : Nat := 2 ^ 32

/-- `PAGE` (R8). -/
def page : Nat := 4096

/-- `MAX_PAYLOAD` (R8): `MAX_PACKET` 512 less `HDR_SIZE`. -/
def maxPayload : Nat := 496

/-- `HDR_SIZE` (R8). -/
def hdrSize : Nat := 16

/-- `NAME_LEN` (R8). -/
def nameLen : Nat := 32

/-- The size of the register window (R200). -/
def windowSize : Nat := 1024

/-- The defaults of R8. `BLK_BASE` and `MEM_ADMIT` are OPEN there: 0, and every access below 2^32
(DESIGN CHOICE, log 3). -/
def Config.default : Config where
  log2N := 8
  maxChannels := 8
  localAddrBase := 1024
  nsAddr := 53
  addrAny := 0xFFFFFFFF
  rxReturnKick := false
  blkBase := 0
  memAdmit := [⟨0, 0xFFFFFFFF, 1⟩, ⟨0, 0xFFFFFFFE, 2⟩, ⟨0, 0xFFFFFFFC, 4⟩]
  byteOrder := .le

end Sys2Proof
end

