-- ==== Sys2Proof/WellFormed.lean ====
section
/-! DEFINITION. What the assembler checks of a command (spec/30_encoding.md R351) and what is checked of a
configuration (spec/00_scope.md R9). -/

namespace Sys2Proof

/-- R351: an assembler refuses `<idx>` or `<slot>` above 0xFFFF. -/
def Instr.wf : Instr → Bool
  | .ringInit _ => true
  | .ringTryTake _ => true
  | .ringHasIncoming _ => true
  | .ringPublish _ _ idx => decide (idx ≤ 0xFFFF)
  | .chCreate => true
  | .chSend idx => decide (idx ≤ 0xFFFF)
  | .poll => true

/-- The channel address `a` lies in `[LOCAL_ADDR_BASE, LOCAL_ADDR_BASE + MAX_CHANNELS)` (R9). -/
def Config.inLocalRange (c : Config) (a : Word) : Bool :=
  decide (c.localAddrBase.toNat ≤ a.toNat) && decide (a.toNat < c.localAddrBase.toNat + c.maxChannels)

/-- R9, the five constraints in its order (that `N` is a power of two holds by its form). -/
def Config.valid (c : Config) : Bool :=
  decide (c.log2N ≤ 15)
    && (decide (1 ≤ c.maxChannels) && decide (c.maxChannels ≤ 16))
    && decide (c.localAddrBase.toNat + c.maxChannels - 1 ≤ 0xFFFFFFFF)
    && !c.inLocalRange c.nsAddr
    && !c.inLocalRange c.addrAny

end Sys2Proof
end

