-- ==== Sys2Proof/Decode.lean ====
section
/-! DEFINITION. The decoder of spec/30_encoding.md R322, total on all 2^32 words, and the encoder of R320 and R351. -/

namespace Sys2Proof

/-- Why a word is no command (R322, R323): its command error is `ERR_ILLEGAL_OP` or `ERR_RESERVED`. -/
inductive DecodeError where
  | illegalOp
  | reserved
deriving DecidableEq, Repr

/-- `OP`, bits 7:0 (R320). -/
def opField (w : Word) : Byte := w.extractLsb' 0 8

/-- `R`, bit 8 (R320, R321): 0 is RX, 1 is TX. -/
def ringField (w : Word) : RingId := if w.getLsbD 8 then .tx else .rx

/-- `K`, bit 9 (R320). -/
def kickField (w : Word) : Bool := w.getLsbD 9

/-- `IDX`, bits 31:16, unsigned (R320, R321). -/
def idxField (w : Word) : Nat := (w.extractLsb' 16 16).toNat

/-- One row of the table of R322, with the operands its command takes from the word (R320). -/
structure OpcodeRow where
  op : Byte
  mask : Word
  pattern : Word
  operands : Word → Instr

/-- The table of R322. -/
def opcodeTable : List OpcodeRow :=
  [ ⟨0x01, 0xFFFFFEFF, 0x00000001, fun w => .ringInit (ringField w)⟩,
    ⟨0x02, 0xFFFFFEFF, 0x00000002, fun w => .ringTryTake (ringField w)⟩,
    ⟨0x03, 0xFFFFFEFF, 0x00000003, fun w => .ringHasIncoming (ringField w)⟩,
    ⟨0x04, 0x0000FCFF, 0x00000004, fun w => .ringPublish (ringField w) (kickField w) (idxField w)⟩,
    ⟨0x10, 0xFFFFFFFF, 0x00000010, fun _ => .chCreate⟩,
    ⟨0x11, 0x0000FFFF, 0x00000011, fun w => .chSend (idxField w)⟩,
    ⟨0x20, 0xFFFFFFFF, 0x00000020, fun _ => .poll⟩ ]

/-- R322: the row of `OP`, else `ERR_ILLEGAL_OP`; then the mask test, else `ERR_RESERVED`. -/
def decode (w : Word) : Except DecodeError Instr :=
  match opcodeTable.find? (fun row => row.op == opField w) with
  | none => .error .illegalOp
  | some row => if w &&& row.mask = row.pattern then .ok (row.operands w) else .error .reserved

/-- `R`'s bit (R321). -/
def ringBit : RingId → BitVec 1
  | .rx => 0
  | .tx => 1

/-- A command word from its fields (R320): IDX, RSV = 0, K, R, OP. -/
def commandWord (op : Byte) (r : BitVec 1) (k : Bool) (idx : Nat) : Word :=
  BitVec.ofNat 16 idx ++ (0 : BitVec 6) ++ BitVec.ofBool k ++ r ++ op

/-- The encodings of R351; a field the command does not use is 0 (R320). -/
def encode : Instr → Word
  | .ringInit r => commandWord 0x01 (ringBit r) false 0
  | .ringTryTake r => commandWord 0x02 (ringBit r) false 0
  | .ringHasIncoming r => commandWord 0x03 (ringBit r) false 0
  | .ringPublish r k idx => commandWord 0x04 (ringBit r) k idx
  | .chCreate => commandWord 0x10 0 false 0
  | .chSend idx => commandWord 0x11 0 false idx
  | .poll => commandWord 0x20 0 false 0

/-- The instruction read from a table row's bits: the command is one 32-bit write (R324), so the word is the whole
instruction, and bits above `nbits` are 0. -/
def decodeTableWord (nbits w : Nat) : Option Instr :=
  match decode (BitVec.ofNat 32 (w % 2 ^ nbits)) with
  | .ok i => some i
  | .error _ => none

/-- R321: `RX` encodes 0 and `TX` encodes 1, word by word from R351 and the programs of spec/95_test_vectors.md. -/
theorem decode_ringInit_tx : decode 0x00000101 = .ok (.ringInit .tx) := by decide

theorem decode_ringTryTake_rx : decode 0x00000002 = .ok (.ringTryTake .rx) := by decide

theorem decode_ringHasIncoming_rx : decode 0x00000003 = .ok (.ringHasIncoming .rx) := by decide

theorem decode_ringPublish_rx_kick : decode 0x00020204 = .ok (.ringPublish .rx true 2) := by decide

theorem decode_chCreate : decode 0x00000010 = .ok .chCreate := by decide

theorem decode_chSend : decode 0xFFFF0011 = .ok (.chSend 0xFFFF) := by decide

theorem decode_poll : decode 0x00000020 = .ok .poll := by decide

end Sys2Proof
end

