-- ==== Sys2Proof/Machine/State.lean ====
section
/-! DEFINITION. The state of the block, of shared memory and of the agents around it, as plain data, from
spec/10_state.md and spec/20_memory.md; its value after reset (R190); the ways a step can stop. -/

namespace Sys2Proof.Machine

/-- The command error codes of `STATUS.ERR` (R330), in the order 0 to 7. -/
inductive ErrCode where
  | ok
  | illegalOp
  | reserved
  | notInit
  | badIndex
  | badAlign
  | range
  | resourceExhausted
deriving DecidableEq, Repr

/-- The fault codes of `STATUS.FCODE` (R331), in the order 0 to 3. -/
inductive FaultCode where
  | none
  | availIndexRange
  | txBufSmall
  | busError
deriving DecidableEq, Repr

/-- The stored fields of `STATUS` (R104); `BUSY` is computed from `SEQ` and `FAULTED`. -/
structure Status where
  trunc : Bool
  cmdOverrun : Bool
  err : ErrCode
  fcode : FaultCode
  faulted : Bool
deriving DecidableEq, Repr

/-- What the block latches when it accepts a command (R103). -/
structure Latched where
  word : Word
  arg0 : Word
  arg1 : Word
deriving DecidableEq, Repr

/-- What a running TRANSMIT (R530) was called with, and the `RESULT` its command returns after it (R510, R520). -/
structure TxJob where
  src : Word
  dst : Word
  result : Word
deriving DecidableEq, Repr

/-- The phase of a running command (R102): `start` (R105), the three phases of TRANSMIT (R530), and `drain`, the
loop of R630 (DESIGN CHOICE, log 10). -/
inductive Phase where
  | start
  | waitBuf (job : TxJob)
  | fill (job : TxJob)
  | pub (job : TxJob)
  | drain
deriving DecidableEq, Repr

/-- The sequencer `SEQ` (R102). -/
inductive Seq where
  | idle
  | run (cmd : Latched) (phase : Phase)
deriving DecidableEq, Repr

/-- The ring context `ring[r]` (R110) with the ghost set `held[r]` (R112), a strictly rising list. -/
structure RingCtx where
  inited : Bool
  descAddr : Word
  availAddr : Word
  usedAddr : Word
  regionLen : Word
  lastAvail : Half
  usedHead : Half
  held : List Nat
deriving DecidableEq, Repr

/-- `STATE` of a channel slot (R130), encoded 0, 1, 2. -/
inductive ChState where
  | unused
  | announced
  | up
deriving DecidableEq, Repr

/-- One slot of the channel table (R130); `name` holds 32 bytes. -/
structure Slot where
  state : ChState
  localAddr : Word
  remote : Word
  name : List Byte
deriving DecidableEq, Repr

/-- The three ghost verdicts (R170, R720): the set is the fields that are true. -/
structure Verdicts where
  peerOverrun : Bool
  doubleOffer : Bool
  publishNotHeld : Bool
deriving DecidableEq, Repr

/-- Who makes an access of shared memory: the block, the peer, or the local core's software (R100, R200). -/
inductive Agent where
  | block
  | peer
  | core
deriving DecidableEq, Repr

/-- An event of the output history (R150). -/
inductive Event where
  /-- `Rd(addr, n, v)`. -/
  | rd (by_ : Agent) (addr n v : Nat)
  /-- `Wr(addr, n, v)`. -/
  | wr (by_ : Agent) (addr n v : Nat)
  /-- `Barrier` (R226). -/
  | barrier
  /-- `Flush(addr, len)` (R229). -/
  | flush (addr len : Word)
  /-- `KickOut`, one pulse of `KICK_OUT` (R122, R610). -/
  | kickOut
  /-- `CacheMaint(TX)` (R229, R620). -/
  | cacheMaint (r : RingId)
  /-- `Deliver(slot, src, dst, payload)` (R542). -/
  | deliver (slot : Nat) (src dst : Word) (payload : List Byte)
deriving DecidableEq, Repr

/-- The size of a shared-memory access (R12, R222). -/
inductive Width where
  | b1
  | b2
  | b4
deriving DecidableEq, Repr

/-- One move of an agent other than the block's sequencer. -/
inductive Move where
  /-- The local software writes `value` at bus address `addr`, `size` bytes wide (R301). -/
  | regWrite (addr size : Nat) (value : Word)
  /-- The local software reads at bus address `addr`, `size` bytes wide (R301). -/
  | regRead (addr size : Nat)
  /-- The local core stores bytes it will name in `ARG0` (R200 a; log 6). -/
  | coreWrite (addr : Nat) (w : Width) (value : Word)
  /-- The peer reads shared memory (R150, R236). -/
  | peerRead (addr : Nat) (w : Width)
  /-- The peer writes shared memory (R230, R231). -/
  | peerWrite (addr : Nat) (w : Width) (value : Word)
  /-- The peer advances its used-read index past an entry it has read (R236). -/
  | peerReclaim (r : RingId)
  /-- The peer starts ring pair `r` afresh, for the next RING_INIT of it (R820, R833; log 5). -/
  | peerRestart (r : RingId)
  /-- A pulse on `IRQ_TX_KICK` (R600). -/
  | pulseTx
  /-- A pulse on `IRQ_RX_KICK` (R600). -/
  | pulseRx
  /-- The block's reset input (R800). -/
  | reset
deriving DecidableEq, Repr

/-- One entry of the schedule (DESIGN CHOICE, log 1): another agent moves, or the block takes one step of its own,
or the others wait until the block is idle, held or frozen. -/
inductive Input where
  | act (m : Move)
  | block
  | settle
deriving DecidableEq, Repr

/-- A register read served (R301): the offset and the value returned. -/
structure RegRead where
  offset : Nat
  value : Word
deriving DecidableEq, Repr

/-- The peer's ghost state for one ring pair (R231, R235, R236; log 5). -/
structure PeerRing where
  /-- `USED_ADDR` as the last RING_INIT of the ring pair set it, where the peer looks for returns (R236, R239). -/
  usedBase : Option Word
  /-- Its used-read index `u` (R236). -/
  usedRead : Half
  /-- The `used.idx` it read last, if it has read one (R236). -/
  usedSeen : Option Half
  /-- The `id` it has read of the used entry at `u`, if it has (R236). -/
  entryId : Option Nat
  /-- Whether it has read the `len` of that entry (R236). -/
  entryLen : Bool
  /-- The descriptors it has offered and whose return it has not read (R233, R235), a strictly rising list. -/
  lent : List Nat
  /-- Whether it is starting the ring pair afresh, until the next RING_INIT of it (R820, R833). -/
  restarting : Bool
deriving DecidableEq, Repr

/-- The peer's ghost state at its start: `u` is 0 (R236), nothing offered. -/
def PeerRing.start : PeerRing := ⟨none, 0, none, none, false, [], false⟩

/-- Shared memory (R200): the bytes that differ from what an unlisted address reads as, by strictly rising address. -/
abbrev Memory := List Host.Cell

/-- The whole machine. -/
structure State where
  /-- The parameters of R8. -/
  cfg : Config
  /-- `ARG0` (R101). -/
  arg0 : Word
  /-- `ARG1` (R101). -/
  arg1 : Word
  /-- `RESULT` (R101). -/
  result : Word
  /-- `SEQ` (R102). -/
  seq : Seq
  /-- `STATUS` (R104). -/
  status : Status
  /-- `ring[RX]` (R110). -/
  rx : RingCtx
  /-- `ring[TX]` (R110). -/
  tx : RingCtx
  /-- `TX_KICK_CNT` (R120). -/
  txKickCnt : Word
  /-- `RX_KICK_CNT` (R120). -/
  rxKickCnt : Word
  /-- `DROP_CNT` (R121). -/
  dropCnt : Word
  /-- The channel table (R130), slot 0 first. -/
  slots : List Slot
  /-- `NEXT_ADDR` (R132). -/
  nextAddr : Word
  /-- `STAGE[0 .. STAGE_LEN-1]` (R140); `STAGE_LEN` is its length. -/
  stage : List Byte
  /-- Shared memory (R200). -/
  mem : Memory
  /-- The output history (R150), oldest first. -/
  history : List Event
  /-- The ghost verdicts (R170). -/
  verdicts : Verdicts
  /-- The peer's ghost state on the RX ring pair (R236). -/
  peerRx : PeerRing
  /-- The peer's ghost state on the TX ring pair (R236). -/
  peerTx : PeerRing
  /-- The bytes the peer has written, but for avail entries it has offered since (R231; log 5), by strictly rising
  address. Ghost. -/
  peerWrote : List Nat
  /-- The schedule still to come (log 1). -/
  env : List Input
  /-- The register reads served so far, oldest first (log 9). -/
  reads : List RegRead
deriving DecidableEq, Repr

/-- The faults of the model. The block's own sticky faults (R710) are next states and no `Fault`. -/
inductive Fault where
  /-- Raised by a scheduled access of the peer or the local core (`Move.peerRead`, `peerWrite`, `coreWrite`) that
  `MEM_ADMIT` does not back or that passes the top of memory: R12 says what then happens to the block only. Safe: the
  run stops (log 6). -/
  | unbackedAccess (by_ : Agent)
deriving DecidableEq, Repr

/-- The refusals of the model. -/
inductive Refusal where
  /-- Raised by `exec` for a command without a meaning (none is left). Safe. -/
  | notModelled (mnemonic : String)
  /-- Raised by `step` when the configuration breaks a constraint of R9 ("A configuration that breaks one is
  refused"). Safe. -/
  | badConfig
  /-- Raised by a scheduled register access that is not an aligned 32-bit access inside the window (R301: "has no
  meaning in the model and is refused"). Safe. -/
  | registerAccess
  /-- Raised by a scheduled peer access that overlaps a ring field at another width or offset (R223). Safe. -/
  | mixedWidth
  /-- Raised by a scheduled access of the peer or the local core that is not naturally aligned, so not single-copy
  atomic (D7; log 6). Safe. -/
  | accessAlignment
deriving DecidableEq, Repr

/-- An Unused slot after reset (R190). -/
def Slot.free : Slot := ⟨.unused, 0, 0, List.replicate nameLen 0⟩

/-- A ring context after reset (R190). -/
def RingCtx.off : RingCtx := ⟨false, 0, 0, 0, 0, 0, 0, []⟩

/-- The machine right after reset (R190), with configuration `c`, nothing in memory, the peer at its start (R236),
and nothing scheduled. -/
def State.resetWith (c : Config) : State where
  cfg := c
  arg0 := 0
  arg1 := 0
  result := 0
  seq := .idle
  status := ⟨false, false, .ok, .none, false⟩
  rx := .off
  tx := .off
  txKickCnt := 0
  rxKickCnt := 0
  dropCnt := 0
  slots := List.replicate c.maxChannels .free
  nextAddr := c.localAddrBase
  stage := []
  mem := []
  history := []
  verdicts := ⟨false, false, false⟩
  peerRx := .start
  peerTx := .start
  peerWrote := []
  env := []
  reads := []

/-- The machine right after reset, with the default parameters of R8. -/
def State.reset : State := .resetWith .default

end Sys2Proof.Machine
end

