-- ==== Sys2Proof/Machine/Ops.lean ====
section
/-! DEFINITION. The named operations over memory and registers: byte order (spec/20_memory.md R220), the byte store
(R225), admission of an access (spec/00_scope.md R12), ring contexts, the held sets, the output history; and the
state changes every command shares: accepting a command, completing it, taking a fault, reset. -/

namespace Sys2Proof.Machine

/-- The `n` little-endian bytes of `v` (R220): `le16` and `le32` of R530 are `n = 2` and `n = 4`. -/
def leBytes : Nat → Nat → List Byte
  | 0, _ => []
  | n + 1, v => BitVec.ofNat 8 v :: leBytes n (v / 256)

/-- The number whose little-endian bytes are given (R220). -/
def leValue : List Byte → Nat
  | [] => 0
  | b :: bs => b.toNat + 256 * leValue bs

/-- The number of bytes of an access (R12). -/
def Width.bytes : Width → Nat
  | .b1 => 1
  | .b2 => 2
  | .b4 => 4

/-- What an address reads as when memory does not list it: 0 (DESIGN CHOICE, log 2). -/
def Memory.unlisted : Byte := 0

/-- The byte at address `a`. -/
def Memory.read : Memory → Nat → Byte
  | [], _ => Memory.unlisted
  | (k, b) :: m, a => if k = a then b else Memory.read m a

/-- Put a listed byte in front of a memory whose addresses are higher, unless it is what an unlisted address reads
as. -/
def Memory.put (a : Nat) (b : Byte) (m : Memory) : Memory :=
  if b = Memory.unlisted then m else (a, b) :: m

/-- Store `b` at address `a`, keeping the canonical form. -/
def Memory.write : Memory → Nat → Byte → Memory
  | [], a, b => Memory.put a b []
  | (k, c) :: m, a, b =>
    if a < k then Memory.put a b ((k, c) :: m)
    else if a = k then Memory.put a b m
    else (k, c) :: Memory.write m a b

/-- The `n` bytes from `a` upward. -/
def Memory.readBytes (m : Memory) (a : Nat) : Nat → List Byte
  | 0 => []
  | n + 1 => Memory.read m a :: Memory.readBytes m (a + 1) n

/-- Store bytes from `a` upward. -/
def Memory.writeBytes (m : Memory) (a : Nat) : List Byte → Memory
  | [] => m
  | b :: bs => Memory.writeBytes (Memory.write m a b) (a + 1) bs

/-- The little-endian number of `n` bytes at `a` (R12, R220). -/
def Memory.readLE (m : Memory) (a n : Nat) : Nat := leValue (m.readBytes a n)

/-- Store the low `n` bytes of `v` at `a`, little-endian (R12, R220). -/
def Memory.writeLE (m : Memory) (a n v : Nat) : Memory := m.writeBytes a (leBytes n v)

/-- Addresses rise strictly and are above `lo`, and no entry is what an unlisted address reads as. -/
def Memory.wfFrom : Nat → Memory → Bool
  | _, [] => true
  | lo, (k, b) :: m => decide (lo ≤ k) && decide (b ≠ Memory.unlisted) && Memory.wfFrom (k + 1) m

/-- The canonical form of a memory. -/
def Memory.wf (m : Memory) : Bool := Memory.wfFrom 0 m

/-- Every listed address lies in the address space (R200). -/
def Memory.inSpace (m : Memory) : Bool := m.all fun cell => decide (cell.1 < addrSpace)

/-- `MEM_ADMIT(addr, n)` (R8). -/
def Config.memAdmits (c : Config) (addr n : Nat) : Bool :=
  c.memAdmit.any fun sp => decide (sp.first ≤ addr) && decide (addr ≤ sp.last) && decide (sp.size = n)

/-- R12: the access is performed when `MEM_ADMIT` backs it and it ends within the address space. -/
def State.admits (s : State) (addr n : Nat) : Bool :=
  Config.memAdmits s.cfg addr n && decide (addr + n ≤ addrSpace)

/-- `ring[r]` (R110). -/
def State.ring (s : State) : RingId → RingCtx
  | .rx => s.rx
  | .tx => s.tx

/-- Replace `ring[r]`. -/
def State.setRing (s : State) (r : RingId) (c : RingCtx) : State :=
  match r with
  | .rx => { s with rx := c }
  | .tx => { s with tx := c }

/-- The peer's ghost state on ring pair `r`. -/
def State.peer (s : State) : RingId → PeerRing
  | .rx => s.peerRx
  | .tx => s.peerTx

/-- Replace the peer's ghost state on ring pair `r`. -/
def State.setPeer (s : State) (r : RingId) (p : PeerRing) : State :=
  match r with
  | .rx => { s with peerRx := p }
  | .tx => { s with peerTx := p }

/-- `emit E` (R12): append an event to the output history. -/
def State.emit (s : State) (e : Event) : State := { s with history := s.history ++ [e] }

/-- `l ∪ {d}` on a strictly rising list (R407). -/
def heldInsert (d : Nat) : List Nat → List Nat
  | [] => [d]
  | k :: ks => if d < k then d :: k :: ks else if d = k then k :: ks else k :: heldInsert d ks

/-- `l \ {d}` on a strictly rising list (R410). -/
def heldErase (d : Nat) : List Nat → List Nat
  | [] => []
  | k :: ks => if d = k then ks else k :: heldErase d ks

/-- Store at a table position (R541, R510): the slot at `i`, if there is one. -/
def State.setSlot (s : State) (i : Nat) (slot : Slot) : State := { s with slots := s.slots.set i slot }

/-- A `CMD` write is accepted when the block is idle and not faulted (R105). -/
def State.accepting (s : State) : Bool := decide (s.seq = .idle) && !s.status.faulted

/-- R105, the dropped write. -/
def State.dropCommand (s : State) : State := { s with status := { s.status with cmdOverrun := true } }

/-- R105, the accepted write of `w`: three flags cleared, the operands latched (R103). -/
def State.accept (w : Word) (s : State) : State :=
  { s with
    status := { s.status with trunc := false, cmdOverrun := false, err := .ok }
    seq := .run ⟨w, s.arg0, s.arg1⟩ .start }

/-- R106: a command completes, with its result and its error code. -/
def State.complete (res : Word) (err : ErrCode) (s : State) : State :=
  { s with result := res, status := { s.status with err := err }, seq := .idle }

/-- R710: `raise Fault(code)`. `SEQ`, `RESULT` and `ERR` stay. There is no handler to go to and no return (R740,
R741): only reset ends a fault. -/
def State.takeFault (code : FaultCode) (s : State) : State :=
  { s with status := { s.status with fcode := code, faulted := true } }

/-- R800, the only way out of a fault: every element of R190 at its reset value, in one step. The parameters
(R802), shared memory (R190, R801), the peer and the schedule are no block state. The ghost verdicts and the history
empty as R190 lists them (DESIGN CHOICE against R170, log 8). -/
def State.blockReset (s : State) : State :=
  { State.resetWith s.cfg with
    mem := s.mem, peerRx := s.peerRx, peerTx := s.peerTx, peerWrote := s.peerWrote, env := s.env, reads := s.reads }

/-- The same command at another phase (R102). -/
def Seq.withPhase (p : Phase) : Seq → Seq
  | .idle => .idle
  | .run cmd _ => .run cmd p

/-- Move the running command to a phase (R102). -/
def State.setPhase (p : Phase) (s : State) : State := { s with seq := s.seq.withPhase p }

end Sys2Proof.Machine
end

