-- ==== Sys2Proof/Machine/Flags.lean ====
section
/-! DEFINITION. The words computed from flags: STATUS (spec/30_encoding.md R305), its codes (R330, R331), the
verdict flags' update (spec/60_exceptions.md R720), and PARAMS (R310). The block has no condition codes (R107). -/

namespace Sys2Proof.Machine

/-- `STATUS.ERR` (R330). -/
def ErrCode.code : ErrCode → Byte
  | .ok => 0
  | .illegalOp => 1
  | .reserved => 2
  | .notInit => 3
  | .badIndex => 4
  | .badAlign => 5
  | .range => 6
  | .resourceExhausted => 7

/-- `STATUS.FCODE` (R331). -/
def FaultCode.code : FaultCode → Byte
  | .none => 0
  | .availIndexRange => 1
  | .txBufSmall => 2
  | .busError => 3

/-- The command error of a word that is no command (R322). -/
def decodeErrCode : DecodeError → ErrCode
  | .illegalOp => .illegalOp
  | .reserved => .reserved

/-- `STATUS.BUSY` (R104): 1 while `SEQ != IDLE` and `FAULTED = 0`. -/
def State.busy (s : State) : Bool := decide (s.seq ≠ .idle) && !s.status.faulted

/-- The `STATUS` word (R305), from bit 31 down. -/
def State.statusWord (s : State) : Word :=
  BitVec.ofBool s.status.faulted ++ (0 : BitVec 7) ++ s.status.fcode.code ++ s.status.err.code
    ++ (0 : BitVec 5) ++ BitVec.ofBool s.status.cmdOverrun ++ BitVec.ofBool s.status.trunc ++ BitVec.ofBool s.busy

/-- The `PARAMS` word (R310), from bit 31 down. -/
def paramsWord (c : Config) : Word :=
  (0 : BitVec 15) ++ BitVec.ofBool c.rxReturnKick ++ (0 : BitVec 3) ++ BitVec.ofNat 5 c.maxChannels
    ++ (0 : BitVec 4) ++ BitVec.ofNat 4 c.log2N

/-- Record `PEER_OVERRUN` when `bad` (R405). -/
def State.notePeerOverrun (bad : Bool) (s : State) : State :=
  { s with verdicts := { s.verdicts with peerOverrun := s.verdicts.peerOverrun || bad } }

/-- Record `DOUBLE_OFFER` when `bad` (R407). -/
def State.noteDoubleOffer (bad : Bool) (s : State) : State :=
  { s with verdicts := { s.verdicts with doubleOffer := s.verdicts.doubleOffer || bad } }

/-- Record `PUBLISH_NOT_HELD` when `bad` (R410, R411). -/
def State.notePublishNotHeld (bad : Bool) (s : State) : State :=
  { s with verdicts := { s.verdicts with publishNotHeld := s.verdicts.publishNotHeld || bad } }

/-- `STATE` as a number (R130, R309). -/
def ChState.code : ChState → Word
  | .unused => 0
  | .announced => 1
  | .up => 2

end Sys2Proof.Machine
end

