-- ==== Sys2Proof/Machine/Layout.lean ====
section
/-! DEFINITION. Where the structures of a ring pair lie (spec/20_memory.md R210 to R213) and the index arithmetic of
spec/40_ring_engine.md R408. Addresses are unbounded numbers (spec/00_scope.md R11). -/

namespace Sys2Proof.Machine

/-- `align_up(x, a)` (R11). -/
def alignUp (x a : Nat) : Nat := (x + a - 1) / a * a

/-- `AVAIL_ADDR` of a ring pair based at `base` (R210). -/
def layoutAvail (n base : Nat) : Nat := base + 16 * n

/-- `USED_ADDR` of a ring pair based at `base`: the next absolute 4096-byte boundary after the avail ring (R210,
D10). -/
def layoutUsed (n base : Nat) : Nat := alignUp (base + 18 * n + 6) page

/-- `REGION_LEN` of a ring pair based at `base` (R210, D11). -/
def layoutLen (n base : Nat) : Nat := layoutUsed n base - base + 4 + 8 * n

/-- The array slot of the free-running position `p` (R408). -/
def slotOf (n : Nat) (p : Half) : Nat := p.toNat % n

/-- The address of `Sh[r].avail.idx` (R212). -/
def RingCtx.availIdxAddr (c : RingCtx) : Nat := c.availAddr.toNat + 2

/-- The address of `Sh[r].avail.ring[j]` (R212). -/
def RingCtx.availEntryAddr (c : RingCtx) (j : Nat) : Nat := c.availAddr.toNat + 4 + 2 * j

/-- The address of `Sh[r].used.idx` (R213). -/
def RingCtx.usedIdxAddr (c : RingCtx) : Nat := c.usedAddr.toNat + 2

/-- The address of `Sh[r].used.ring[j]`: its `id`; its `len` is 4 bytes on (R213). -/
def RingCtx.usedEntryAddr (c : RingCtx) (j : Nat) : Nat := c.usedAddr.toNat + 4 + 8 * j

/-- The address of `Sh[r].desc[d].addr`; `len` is 8 bytes on (R211). -/
def RingCtx.descEntryAddr (c : RingCtx) (d : Nat) : Nat := c.descAddr.toNat + 16 * d

/-- The distance from position `b` on to position `a`: `a -16 b` (R234). -/
def lead (a b : Half) : Nat := (a - b).toNat

end Sys2Proof.Machine
end

