-- ==== Sys2Proof/Machine/Peer.lean ====
section
/-! DEFINITION. The duties of the peer that the model gives it no move to break (spec/20_memory.md R230, R231, R235,
R236; spec/60_exceptions.md R721): what the schedule asks of it against one is no move, and nothing happens (log 4). They
bind on a ring pair from its RING_INIT on; the peer's ghost state that they need is kept here too (log 5). -/

namespace Sys2Proof.Machine

/-- What an access meets in a ring pair's region (R210 to R213). -/
inductive Zone where
  /-- No byte of the region. -/
  | outside
  /-- One whole field of descriptor `d`. -/
  | desc (d : Nat)
  /-- `avail.idx`, whole. -/
  | availIdx
  /-- `avail.ring[j]`, whole. -/
  | availEntry (j : Nat)
  /-- `avail.flags` or the trailing event index, whole. -/
  | availOther
  /-- One whole field of the used ring. -/
  | used
  /-- Padding only. -/
  | padding
  /-- Any other overlap: another width or offset than a field's (R223). -/
  | mixed
deriving DecidableEq, Repr

/-- A field of a descriptor, by offset and width (R211). -/
def descField (off n : Nat) : Bool :=
  (decide (n = 4) && (decide (off = 0) || decide (off = 4) || decide (off = 8)))
    || (decide (n = 2) && (decide (off = 12) || decide (off = 14)))

/-- A field of the used ring, by offset and width (R213). -/
def usedField (off n : Nat) : Bool :=
  (decide (n = 2) && (decide (off = 0) || decide (off = 2)))
    || (decide (n = 4) && decide (4 ≤ off) && (decide ((off - 4) % 4 = 0)))

/-- The zone of an access of `n` bytes at `a` in the region of ring context `c` with ring size `N`. -/
def zoneOf (c : RingCtx) (size a n : Nat) : Zone :=
  let d := c.descAddr.toNat
  let v := c.availAddr.toNat
  let u := c.usedAddr.toNat
  if a + n ≤ d ∨ u + 4 + 8 * size ≤ a then .outside
  else if d ≤ a ∧ a + n ≤ d + 16 * size then
    if descField ((a - d) % 16) n then .desc ((a - d) / 16) else .mixed
  else if v ≤ a ∧ a + n ≤ v + 6 + 2 * size then
    if n = 2 ∧ (a - v) % 2 = 0 then
      if a - v = 2 then .availIdx
      else if 4 ≤ a - v ∧ a - v < 4 + 2 * size then .availEntry ((a - v - 4) / 2)
      else .availOther
    else .mixed
  else if v + 6 + 2 * size ≤ a ∧ a + n ≤ u then .padding
  else if u ≤ a ∧ a + n ≤ u + 4 + 8 * size then
    if usedField (a - u) n then .used else .mixed
  else .mixed

/-- `avail.idx` as it stands in memory: no access. -/
def State.availIdxNow (s : State) (r : RingId) : Half := BitVec.ofNat 16 (s.mem.readLE (s.ring r).availIdxAddr 2)

/-- `avail.ring[j]` as it stands in memory: no access. -/
def State.entryNow (s : State) (r : RingId) (j : Nat) : Nat := s.mem.readLE ((s.ring r).availEntryAddr j) 2

/-- The array slots of the `k` positions from `p` upward (R408). -/
def slotsFrom (size : Nat) (p : Half) : Nat → List Nat
  | 0 => []
  | k + 1 => slotOf size p :: slotsFrom size (p + 1) k

/-- The avail slots offered and not yet taken (R235): positions `LAST_AVAIL` up to `avail.idx`, at most all of them. -/
def State.offeredSlots (s : State) (r : RingId) : List Nat :=
  slotsFrom s.cfg.n (s.ring r).lastAvail (min (lead (s.availIdxNow r) (s.ring r).lastAvail) s.cfg.n)

/-- The descriptors the peer may not touch (R235, R413): those it has offered and not reclaimed, those the avail ring
offers, and those the block holds. -/
def State.notPeers (s : State) (r : RingId) : List Nat :=
  (s.peer r).lent ++ (s.offeredSlots r).map (s.entryNow r) ++ (s.ring r).held

/-- The byte ranges `[a, a + n)` and `[b, b + m)`, the first not empty, have a byte in common. -/
def overlaps (a n b m : Nat) : Bool := decide (0 < m) && decide (a < b + m) && decide (b < a + n)

/-- `[a, a + n)` meets the buffer of descriptor `d` of ring pair `r` (R214). -/
def State.inBuffer (s : State) (r : RingId) (a n d : Nat) : Bool :=
  overlaps a n (s.mem.readLE ((s.ring r).descEntryAddr d) 4) (s.mem.readLE ((s.ring r).descEntryAddr d + 8) 4)

/-- The access meets the buffer of a descriptor of ring pair `r` that is not the peer's (R235). -/
def State.meetsBuffer (s : State) (r : RingId) (a n : Nat) : Bool :=
  (s.notPeers r).any fun d => decide (d < s.cfg.n) && s.inBuffer r a n d

/-! The order of an offer (R231). -/

/-- The bytes `[a, a + n)` are in the set. -/
def hasRange (l : List Nat) (a n : Nat) : Bool := (List.range n).all fun k => l.contains (a + k)

/-- Put the bytes `[a, a + n)` into the set. -/
def insertRange (a : Nat) : Nat → List Nat → List Nat
  | 0, l => l
  | n + 1, l => insertRange (a + 1) n (heldInsert a l)

/-- Take the bytes `[a, a + n)` out of the set. -/
def eraseRange (a : Nat) : Nat → List Nat → List Nat
  | 0, l => l
  | n + 1, l => eraseRange (a + 1) n (heldErase a l)

/-- Step 1 of R231 for descriptor `d`: the peer has written its `addr` and `len`. On RX its packet is whatever the
buffer then holds: P1 (spec/95_test_vectors.md) offers buffers by R231 with no packet written (log 4). -/
def State.described (s : State) (r : RingId) (d : Nat) : Bool :=
  hasRange s.peerWrote ((s.ring r).descEntryAddr d) 4 && hasRange s.peerWrote ((s.ring r).descEntryAddr d + 8) 4

/-- Slot `j` is ready for step 3 of R231: the peer has written it since it was last offered (step 2), and, for an index
below `N`, step 1 came before (an index of `N` or more has no descriptor; its breach is R406's). -/
def State.entryReady (s : State) (r : RingId) (j : Nat) : Bool :=
  hasRange s.peerWrote ((s.ring r).availEntryAddr j) 2
    && (decide (s.cfg.n ≤ s.entryNow r j) || s.described r (s.entryNow r j))

/-- The slots that a write of `v` to `avail.idx` offers (R231 step 3): all of them when it passes `N` positions or more,
which R234 makes a verdict. -/
def State.newSlots (s : State) (r : RingId) (v : Half) : List Nat :=
  slotsFrom s.cfg.n (s.availIdxNow r) (min (lead v (s.availIdxNow r)) s.cfg.n)

/-- A write of `v` to `avail.idx` offers only entries that are ready (R231). -/
def State.offerKept (s : State) (r : RingId) (v : Half) : Bool := (s.newSlots r v).all (s.entryReady r)

/-- The write of `avail.idx = 0` with which a peer that starts the ring pair afresh meets R820 (a): no offer. -/
def State.restartsIdx (s : State) (r : RingId) (v : Half) : Bool := (s.peer r).restarting && decide (v = 0)

/-- The peer's write of `v` in a zone of ring pair `r` keeps R230, R231 and R235: never the used ring or the padding,
no descriptor and no avail entry that is not the peer's, and an `avail.idx` that offers what R231 lets it. -/
def State.zoneWritable (s : State) (r : RingId) (v : Word) : Zone → Bool
  | .outside => true
  | .desc d => !(s.notPeers r).contains d
  | .availIdx => s.restartsIdx r (v.setWidth 16) || s.offerKept r (v.setWidth 16)
  | .availEntry j => !(s.offeredSlots r).contains j
  | .availOther => true
  | .used => false
  | .padding => false
  | .mixed => false

/-- R223: the block knows the place of ring pair `r` (RING_INIT done), and the access overlaps a ring field at another
width or offset. -/
def State.mixedAccess (s : State) (r : RingId) (a n : Nat) : Bool :=
  (s.ring r).inited && decide (zoneOf (s.ring r) s.cfg.n a n = .mixed)

/-- The peer's write of `v` to `[a, a + n)` keeps its duties towards ring pair `r` (R230, R231, R235). -/
def State.peerMayWrite (s : State) (r : RingId) (a n : Nat) (v : Word) : Bool :=
  !(s.ring r).inited || (s.zoneWritable r v (zoneOf (s.ring r) s.cfg.n a n) && !s.meetsBuffer r a n)

/-! What the peer's moves leave in its ghost state. -/

/-- The slots that a peer write of `v` to `[a, a + n)` offers on ring pair `r` (R231 step 3). -/
def State.slotsOffered (s : State) (r : RingId) (a n : Nat) (v : Half) : List Nat :=
  if (s.ring r).inited && decide (zoneOf (s.ring r) s.cfg.n a n = .availIdx) && !s.restartsIdx r v then s.newSlots r v
  else []

/-- A write to `[a, a + n)` is of step 1 of R231 for descriptor `d`: its `addr` or `len`, or on RX its packet. -/
def State.describes (s : State) (r : RingId) (a n d : Nat) : Bool :=
  decide (d < s.cfg.n)
    && (overlaps a n ((s.ring r).descEntryAddr d) 4 || overlaps a n ((s.ring r).descEntryAddr d + 8) 4
      || (decide (r = .rx) && s.inBuffer r a n d))

/-- The slots that must be written again after a write to `[a, a + n)`, because step 1 of R231 comes before step 2. -/
def State.slotsStale (s : State) (r : RingId) (a n : Nat) : List Nat :=
  if (s.ring r).inited then (List.range s.cfg.n).filter fun j => s.describes r a n (s.entryNow r j) else []

/-- Take avail entries of ring context `c` out of the set of written bytes. -/
def eraseEntries (c : RingCtx) (slots : List Nat) (l : List Nat) : List Nat :=
  slots.foldl (fun l j => eraseRange (c.availEntryAddr j) 2 l) l

/-- The descriptors of these slots are offered: the peer's no more (R233). -/
def PeerRing.lend (p : PeerRing) (ds : List Nat) : PeerRing :=
  { p with lent := ds.foldl (fun l d => heldInsert d l) p.lent }

/-- The peer's ghost state after it wrote `v` to `[a, a + n)` in state `s` (R231). -/
def State.notePeerWrite (s : State) (a n : Nat) (v : Half) : PeerRing × PeerRing × List Nat :=
  let rx := s.slotsOffered .rx a n v
  let tx := s.slotsOffered .tx a n v
  (s.peerRx.lend (rx.map (s.entryNow .rx)), s.peerTx.lend (tx.map (s.entryNow .tx)),
    eraseEntries s.rx (rx ++ s.slotsStale .rx a n)
      (eraseEntries s.tx (tx ++ s.slotsStale .tx a n) (insertRange a n s.peerWrote)))

/-- R236: the peer has read a `used.idx` that differs from `u`, so it reads the entry at `u`. -/
def PeerRing.mayReadEntry (p : PeerRing) : Bool :=
  match p.usedSeen with
  | none => false
  | some v => decide (v ≠ p.usedRead)

/-- The peer's ghost state on a ring pair after it read `v` in `[a, a + n)` (R213, R236). -/
def PeerRing.noteRead (p : PeerRing) (size a n v : Nat) : PeerRing :=
  match p.usedBase with
  | none => p
  | some base =>
    let e := base.toNat + 4 + 8 * slotOf size p.usedRead
    if a = base.toNat + 2 ∧ n = 2 then { p with usedSeen := some (BitVec.ofNat 16 v) }
    else if p.mayReadEntry && decide (a = e ∧ n = 4) then { p with entryId := some v }
    else if p.mayReadEntry && decide (a = e + 4 ∧ n = 4) then { p with entryLen := true }
    else p

/-- The peer's ghost state on ring pair `r` after it read `v` in `[a, a + n)`. Returns published before a reset of the
block are read like any (DESIGN CHOICE where R822 leaves reconnection open, log 5). A peer that starts the ring pair afresh
reclaims nothing until RING_INIT, so that its index is then 0 (R820). -/
def State.notePeerRead (s : State) (r : RingId) (a n v : Nat) : PeerRing :=
  if (s.peer r).restarting then s.peer r else (s.peer r).noteRead s.cfg.n a n v

/-- R236: the descriptor that the peer's used-read index may pass now: it has read a `used.idx` that differs from `u`,
and the whole entry at `u`. A block reset in between changes nothing (DESIGN CHOICE, log 5). -/
def State.reclaimable (s : State) (r : RingId) : Option Nat :=
  if !(s.peer r).restarting && (s.peer r).mayReadEntry && (s.peer r).entryLen then (s.peer r).entryId else none

/-- `u <- u +16 1`: descriptor `d` is the peer's again (R236). -/
def PeerRing.reclaim (p : PeerRing) (d : Nat) : PeerRing :=
  { p with usedRead := p.usedRead + 1, entryId := none, entryLen := false, lent := heldErase d p.lent }

/-- R820 (b): the peer starts ring pair `r` afresh. What it has offered becomes its own again when RING_INIT does its
part (R833). -/
def PeerRing.restart (p : PeerRing) : PeerRing :=
  { PeerRing.start with usedBase := p.usedBase, lent := p.lent, restarting := true }

/-- R820, R833: at a RING_INIT of ring pair `r`, whose context is already set, the peer has offered at once what
`avail.idx` says. A peer that started afresh has nothing else outstanding. What a peer that did not start afresh has read
of the used ring, and its used-read index, stay its own (DESIGN CHOICE, log 5). -/
def State.peerAfterInit (s : State) (r : RingId) : State :=
  let slots := slotsFrom s.cfg.n 0 (min (s.availIdxNow r).toNat s.cfg.n)
  let p : PeerRing :=
    { s.peer r with
      usedBase := some (s.ring r).usedAddr
      lent := if (s.peer r).restarting then [] else (s.peer r).lent
      restarting := false }
  { s.setPeer r (p.lend (slots.map (s.entryNow r))) with peerWrote := eraseEntries (s.ring r) slots s.peerWrote }

end Sys2Proof.Machine
end

