-- ==== Sys2Proof/Machine/RegFile.lean ====
section
/-! DEFINITION. The register file the local software sees (spec/30_encoding.md R300 to R311). -/

namespace Sys2Proof.Machine

/-- R301: the offset of an access, if it is a naturally aligned 32-bit access inside the window. -/
def windowOffset (c : Config) (addr size : Nat) : Option Nat :=
  if size = 4 ∧ c.blkBase ≤ addr ∧ addr < c.blkBase + windowSize ∧ (addr - c.blkBase) % 4 = 0 then
    some (addr - c.blkBase)
  else none

/-- A ring context register, by its offset within the ring's block (R306). -/
def ringReg (c : RingCtx) (off : Nat) : Word :=
  if off = 0x00 then (BitVec.ofBool c.inited).setWidth 32
  else if off = 0x04 then c.descAddr
  else if off = 0x08 then c.availAddr
  else if off = 0x0C then c.usedAddr
  else if off = 0x10 then c.regionLen
  else if off = 0x14 then c.lastAvail.setWidth 32
  else if off = 0x18 then c.usedHead.setWidth 32
  else 0

/-- A channel slot register, by its offset within the slot's 16 bytes (R309). -/
def slotReg (slot : Slot) (off : Nat) : Word :=
  if off = 0x0 then slot.state.code
  else if off = 0x4 then slot.localAddr
  else if off = 0x8 then slot.remote
  else 0

/-- `CH_NAME[i][k]`: bytes `4k .. 4k+3` of the name, little-endian (R311). -/
def nameReg (slot : Slot) (k : Nat) : Word :=
  BitVec.ofNat 32 (leValue ((slot.name.drop (4 * k)).take 4))

/-- The value of the register at an offset of the map (R300): reserved offsets, slots beyond `MAX_CHANNELS` and
`CMD` read 0. -/
def State.regValue (s : State) (off : Nat) : Word :=
  if off = 0x004 then s.arg0
  else if off = 0x008 then s.arg1
  else if off = 0x00C then s.result
  else if off = 0x010 then s.statusWord
  else if off = 0x014 then paramsWord s.cfg
  else if off = 0x018 then s.txKickCnt
  else if off = 0x01C then s.rxKickCnt
  else if off = 0x020 then s.dropCnt
  else if off = 0x024 then s.nextAddr
  else if 0x040 ≤ off ∧ off < 0x060 then ringReg s.rx (off - 0x040)
  else if 0x060 ≤ off ∧ off < 0x080 then ringReg s.tx (off - 0x060)
  else if 0x100 ≤ off ∧ off < 0x200 then
    match s.slots[(off - 0x100) / 16]? with
    | some slot => slotReg slot ((off - 0x100) % 16)
    | none => 0
  else if 0x200 ≤ off ∧ off < 0x400 then
    match s.slots[(off - 0x200) / 32]? with
    | some slot => nameReg slot ((off - 0x200) % 32 / 4)
    | none => 0
  else 0

/-- A register write that no command takes: `CMD` is dropped (R105; an accepted one is the sequencer's), `ARG0` and
`ARG1` take the value (R303), every other offset ignores it (R301). -/
def State.regStore (s : State) (off : Nat) (v : Word) : State :=
  if off = 0x000 then s.dropCommand
  else if off = 0x004 then { s with arg0 := v }
  else if off = 0x008 then { s with arg1 := v }
  else s

/-- A register read (R224: no side effect): the value goes to the local software (log 9). -/
def State.regLoad (s : State) (off : Nat) : State :=
  { s with reads := s.reads ++ [⟨off, s.regValue off⟩] }

end Sys2Proof.Machine
end

