-- ==== Sys2Proof/Machine/Env.lean ====
section
/-! DEFINITION. The moves of the agents other than the block's sequencer (spec/10_state.md R100): register accesses,
the peer, the local core's stores, kick pulses (spec/42_notification.md R600), reset (spec/70_reset_and_hazards.md
R800). -/

namespace Sys2Proof.Machine

/-- Why a program stops before its end: the block's part of the step is over and this is the next state (a command
that ended, a sticky fault, a hold, a reset), or the model has a fault or a refusal. -/
inductive Stop where
  | halt (s : State)
  | fault (f : Fault)
  | refuse (r : Refusal)
deriving DecidableEq, Repr

/-- An access of the peer or the local core that the model has a meaning for: naturally aligned (D7) and backed by
the platform (R8) (log 6). -/
def outsideAccess (who : Agent) (a : Nat) (w : Width) (s : State) : Except Stop Unit :=
  if a % w.bytes ≠ 0 then .error (.refuse .accessAlignment)
  else if s.admits a w.bytes then .ok ()
  else .error (.fault (.unbackedAccess who))

/-- The state after an admitted write of `w.bytes` bytes by `who`, recorded in the history (R150, R225). -/
def State.storeBy (who : Agent) (a : Nat) (w : Width) (v : Nat) (s : State) : State :=
  { s with
    mem := s.mem.writeLE a w.bytes (v % 2 ^ (8 * w.bytes))
    history := s.history ++ [.wr who a w.bytes (v % 2 ^ (8 * w.bytes))] }

/-- The state after an admitted read of `w.bytes` bytes by `who` (R150, R225). -/
def State.loadBy (who : Agent) (a : Nat) (w : Width) (s : State) : State :=
  s.emit (.rd who a w.bytes (s.mem.readLE a w.bytes))

/-- The peer's write is performed and recorded (R225). -/
def State.afterPeerWrite (s : State) (a : Nat) (w : Width) (v : Word) : State :=
  let (rx, tx, wrote) := s.notePeerWrite a w.bytes (v.setWidth 16)
  { s.storeBy .peer a w v.toNat with peerRx := rx, peerTx := tx, peerWrote := wrote }

/-- The peer's read is performed and recorded (R225, R236). -/
def State.afterPeerRead (s : State) (a : Nat) (w : Width) : State :=
  { s.loadBy .peer a w with
    peerRx := s.notePeerRead .rx a w.bytes (s.mem.readLE a w.bytes)
    peerTx := s.notePeerRead .tx a w.bytes (s.mem.readLE a w.bytes) }

/-- An access of the peer that the model has a meaning for: also no access of a ring field at another width or offset
(R223). -/
def peerAccess (a : Nat) (w : Width) (s : State) : Except Stop Unit :=
  match outsideAccess .peer a w s with
  | .error e => .error e
  | .ok () =>
    if s.mixedAccess .rx a w.bytes || s.mixedAccess .tx a w.bytes then .error (.refuse .mixedWidth) else .ok ()

/-- R225, R230, R231, R235: a peer write. One that breaks a duty is no move (R721; log 4). -/
def movePeerWrite (a : Nat) (w : Width) (v : Word) (s : State) : Except Stop State :=
  match peerAccess a w s with
  | .error e => .error e
  | .ok () =>
    if s.peerMayWrite .rx a w.bytes v && s.peerMayWrite .tx a w.bytes v then .ok (s.afterPeerWrite a w v) else .ok s

/-- R225, R236: a peer read. -/
def movePeerRead (a : Nat) (w : Width) (s : State) : Except Stop State :=
  match peerAccess a w s with
  | .error e => .error e
  | .ok () => .ok (s.afterPeerRead a w)

/-- The local core stores bytes of memory (R200 a; log 6). -/
def moveCoreWrite (a : Nat) (w : Width) (v : Word) (s : State) : Except Stop State :=
  match outsideAccess .core a w s with
  | .error e => .error e
  | .ok () => .ok (s.storeBy .core a w v.toNat)

/-- A register write (R301, R303); a `CMD` write that comes here is dropped (R105). -/
def moveRegWrite (addr size : Nat) (v : Word) (s : State) : Except Stop State :=
  match windowOffset s.cfg addr size with
  | none => .error (.refuse .registerAccess)
  | some off => .ok (s.regStore off v)

/-- A register read (R301). -/
def moveRegRead (addr size : Nat) (s : State) : Except Stop State :=
  match windowOffset s.cfg addr size with
  | none => .error (.refuse .registerAccess)
  | some off => .ok (s.regLoad off)

/-- R236: the peer's used-read index goes past the entry it has read. With none read it is no move (R721; log 4). -/
def movePeerReclaim (r : RingId) (s : State) : Except Stop State :=
  match s.reclaimable r with
  | none => .ok s
  | some d => .ok (s.setPeer r ((s.peer r).reclaim d))

/-- R820 b, R833: the peer starts ring pair `r` afresh: its used-read index is 0, and it may write `avail.idx = 0`
(log 5). -/
def movePeerRestart (r : RingId) (s : State) : State := s.setPeer r (s.peer r).restart

/-- One move. A reset ends whatever the block was doing (R801). -/
def Move.apply (m : Move) (s : State) : Except Stop State :=
  match m with
  | .regWrite addr size v => moveRegWrite addr size v s
  | .regRead addr size => moveRegRead addr size s
  | .coreWrite a w v => moveCoreWrite a w v s
  | .peerRead a w => movePeerRead a w s
  | .peerWrite a w v => movePeerWrite a w v s
  | .peerReclaim r => movePeerReclaim r s
  | .peerRestart r => .ok (movePeerRestart r s)
  | .pulseTx => .ok { s with txKickCnt := s.txKickCnt + 1 }
  | .pulseRx => .ok { s with rxKickCnt := s.rxKickCnt + 1 }
  | .reset => .error (.halt s.blockReset)

/-- The word of a `CMD` write (R302), when the move is one. -/
def Move.command (m : Move) (c : Config) : Option Word :=
  match m with
  | .regWrite addr size v => if windowOffset c addr size = some 0 then some v else none
  | _ => none

/-- The moves the schedule puts before the block's next step (R14, R600; log 1), up to the next mark: `block` is
used up, `settle` stays. -/
def runInputs : List Input → State → Except Stop (Unit × State)
  | [], s => .ok ((), s)
  | .settle :: _, s => .ok ((), s)
  | .block :: rest, s => .ok ((), { s with env := rest })
  | .act m :: rest, s =>
    match m.apply { s with env := rest } with
    | .ok t => runInputs rest t
    | .error e => .error e

end Sys2Proof.Machine
end

