-- ==== Sys2Proof/Machine/Prog.lean ====
section
/-! DEFINITION. The pseudocode primitives of spec/00_scope.md R12, so that each command reads as its rule does. A
program runs from a state to a value and a state, or stops. Before each of its steps it yields to the schedule
(R14, R600; log 1): a step is one access, one event, one SWAP, one completion, or one group of register assignments
with no access between them (log 7). -/

namespace Sys2Proof.Machine

/-- A piece of pseudocode. -/
abbrev Prog (α : Type) := StateT State (Except Stop) α

/-- The outcome of a step of the machine that runs `p` from `s`. -/
def Prog.outcome (p : Prog Unit) (s : State) : Host.Outcome State Fault Refusal :=
  match p s with
  | .ok (_, t) => .next t
  | .error (.halt t) => .next t
  | .error (.fault f) => .fault f
  | .error (.refuse r) => .refused r

/-- The other agents move, as the schedule says, before the block's next step. -/
def yield : Prog Unit := fun s => runInputs s.env s

/-- One step of the block that only changes state. -/
def act (f : State → State) : Prog Unit := do
  yield
  modify f

/-- `raise Fault(code)` (R12, R710). -/
def raiseFault {α : Type} (code : FaultCode) : Prog α := do
  yield
  fun s => .error (.halt (s.takeFault code))

/-- `error(code)` (R12, R700): the command ends, `RESULT` is 0. -/
def failWith {α : Type} (code : ErrCode) : Prog α := do
  yield
  fun s => .error (.halt (s.complete 0 code))

/-- The command completes with a result (R106). -/
def finish (res : Word) : Prog Unit := act fun s => s.complete res .ok

/-- `hold` (R12): the step ends here; the sequencer goes on when the stated condition holds (R530). -/
def hold {α : Type} : Prog α := fun s => .error (.halt s)

/-- `MemRead(addr, n)` (R12): the value, recorded in the history, or FAULT_BUS_ERROR with nothing performed. -/
def memRead (a : Nat) (w : Width) : Prog Nat := do
  yield
  fun s =>
    if s.admits a w.bytes then .ok (s.mem.readLE a w.bytes, s.loadBy .block a w)
    else .error (.halt (s.takeFault .busError))

/-- `MemWrite(addr, n, v)` (R12). -/
def memWrite (a : Nat) (w : Width) (v : Nat) : Prog Unit := do
  yield
  fun s =>
    if s.admits a w.bytes then .ok ((), s.storeBy .block a w v)
    else .error (.halt (s.takeFault .busError))

/-- `ReadBytes(addr, n)` (R12): successive 1-byte reads, upward. -/
def readBytes (a : Nat) : Nat → Prog (List Byte)
  | 0 => pure []
  | n + 1 => do
    let b ← memRead a .b1
    let rest ← readBytes (a + 1) n
    pure (BitVec.ofNat 8 b :: rest)

/-- `WriteBytes(addr, bytes)` (R12): successive 1-byte writes, upward. -/
def writeBytes (a : Nat) : List Byte → Prog Unit
  | [] => pure ()
  | b :: bs => do
    memWrite a .b1 b.toNat
    writeBytes (a + 1) bs

/-- `Barrier` (R226): every earlier write is performed when issued (R225), so it records its place. -/
def barrier : Prog Unit := act fun s => s.emit .barrier

/-- `emit E` (R12). -/
def emitEvent (e : Event) : Prog Unit := act fun s => s.emit e

/-- The write of `w` to `CMD` (R105): dropped while faulted or busy; else accepted, and the command's pseudocode
runs until it completes, faults, holds, or is reset. -/
def issue (w : Word) (body : Prog Unit) (s : State) : Host.Outcome State Fault Refusal :=
  if s.accepting then body.outcome (s.accept w) else .next s.dropCommand

end Sys2Proof.Machine
end

