-- ==== Sys2Proof/Machine/Operands.lean ====
section
/-! DEFINITION. Operand forms (spec/30_encoding.md R321). `R`, `K` and `IDX` come from the word, already in the
instruction; `ARG0` and `ARG1` come from the latch of the running command (spec/10_state.md R103). -/

namespace Sys2Proof.Machine

/-- The latch of the running command (R102, R103). -/
def Seq.latched : Seq → Latched
  | .idle => ⟨0, 0, 0⟩
  | .run cmd _ => cmd

/-- `ARG0` as latched. -/
def operand0 : Prog Word := fun s => .ok (s.seq.latched.arg0, s)

/-- `ARG1` as latched. -/
def operand1 : Prog Word := fun s => .ok (s.seq.latched.arg1, s)

/-- The ring context `ring[r]` as it is now. -/
def getRing (r : RingId) : Prog RingCtx := fun s => .ok (s.ring r, s)

/-- The configuration (R8). -/
def getCfg : Prog Config := fun s => .ok (s.cfg, s)

end Sys2Proof.Machine
end

