-- ==== Sys2Proof/Machine/RingOps.lean ====
section
/-! DEFINITION. The internal operations of the ring engine (spec/40_ring_engine.md R405 to R411). -/

namespace Sys2Proof.Machine

/-- A ghost change (R12): it belongs to the step before it and yields to nobody. -/
def ghost (f : State → State) : Prog Unit := modify f

/-- The ring pair must be initialised, else `error(ERR_NOT_INIT)` (R402, R403, R404, R510, R520, R620). -/
def requireInit (r : RingId) : Prog Unit := do
  let c ← getRing r
  if c.inited then pure () else failWith .notInit

/-- AVAIL_HEAD(r) (R405). -/
def availHead (r : RingId) : Prog Half := do
  let c ← getRing r
  let v ← memRead c.availIdxAddr .b2
  let a : Half := BitVec.ofNat 16 v
  ghost fun s => s.notePeerOverrun (decide (s.cfg.n < lead a (s.ring r).lastAvail))
  pure a

/-- The ghost update of a TAKE of `d` (R407). -/
def ghostTake (r : RingId) (d : Nat) (s : State) : State :=
  (s.noteDoubleOffer ((s.ring r).held.contains d)).setRing r
    { s.ring r with held := heldInsert d (s.ring r).held }

/-- `LAST_AVAIL <- LAST_AVAIL +16 1` (R406). -/
def advanceLastAvail (r : RingId) (s : State) : State :=
  s.setRing r { s.ring r with lastAvail := (s.ring r).lastAvail + 1 }

/-- TAKE(r) (R406): a descriptor index, or none when the ring is empty. -/
def take (r : RingId) : Prog (Option Nat) := do
  let a ← availHead r
  let c ← getRing r
  if a = c.lastAvail then pure none
  else do
    let cfg ← getCfg
    let d ← memRead (c.availEntryAddr (slotOf cfg.n c.lastAvail)) .b2
    if cfg.n ≤ d then raiseFault .availIndexRange
    else do
      ghost (ghostTake r d)
      act (advanceLastAvail r)
      pure (some d)

/-- `USED_HEAD <- USED_HEAD +16 1` (R410). -/
def advanceUsedHead (r : RingId) (s : State) : State :=
  s.setRing r { s.ring r with usedHead := (s.ring r).usedHead + 1 }

/-- `ghost held[r] <- held[r] \ {d}` (R410). -/
def ghostRelease (r : RingId) (d : Nat) (s : State) : State :=
  s.setRing r { s.ring r with held := heldErase d (s.ring r).held }

/-- PUBLISH(r, d, len, kick) (R410). The held stage of `d` ends at the write of `used.idx` (R413), so the ghost
release stands there (DEDUCED, log 11). -/
def publish (r : RingId) (d : Nat) (len : Nat) (kick : Bool) : Prog Unit := do
  ghost fun s => s.notePublishNotHeld (!(s.ring r).held.contains d)
  let c ← getRing r
  let cfg ← getCfg
  let e := c.usedEntryAddr (slotOf cfg.n c.usedHead)
  memWrite e .b4 d
  memWrite (e + 4) .b4 len
  barrier
  memWrite c.usedIdxAddr .b2 (c.usedHead + 1).toNat
  ghost (ghostRelease r d)
  act (advanceUsedHead r)
  barrier
  emitEvent (.flush c.descAddr c.regionLen)
  if kick then emitEvent .kickOut else pure ()

end Sys2Proof.Machine
end

