-- ==== Sys2Proof/Machine/Channel.lean ====
section
/-! DEFINITION. The channel multiplexer (spec/41_channel_mux.md): TRANSMIT (R530), CH_CREATE (R510), CH_SEND (R520),
and the inbound side that POLL runs: RECEIVE (R540) and DISPATCH (R541). -/

namespace Sys2Proof.Machine

/-- The 16 header bytes of a packet (R340). -/
def packetHeader (src dst : Word) (len : Nat) : List Byte :=
  leBytes 4 src.toNat ++ leBytes 4 dst.toNat ++ leBytes 4 0 ++ leBytes 2 len ++ leBytes 2 0

/-- The 40 payload bytes of a name-service announcement, "create" (R341). -/
def announcement (name : List Byte) (addr : Word) : List Byte :=
  name ++ leBytes 4 addr.toNat ++ leBytes 4 0

/-- The staged bytes `STAGE[0 .. STAGE_LEN-1]` (R140). -/
def getStage : Prog (List Byte) := fun s => .ok (s.stage, s)

/-- The channel table (R130). -/
def getSlots : Prog (List Slot) := fun s => .ok (s.slots, s)

/-- Move the running command to a phase (R102). -/
def enterPhase (p : Phase) : Prog Unit := modify fun s => s.setPhase p

/-- Phase FILL of TRANSMIT (R530, R531), for the taken descriptor `d`. -/
def fillBuffer (job : TxJob) (d : Nat) : Prog Unit := do
  let c ← getRing .tx
  let baddr ← memRead (c.descEntryAddr d) .b4
  let cap ← memRead (c.descEntryAddr d + 8) .b4
  let bytes ← getStage
  if cap < hdrSize + bytes.length then raiseFault .txBufSmall
  else do
    writeBytes baddr (packetHeader job.src job.dst bytes.length)
    writeBytes (baddr + hdrSize) bytes

/-- Phase PUB of TRANSMIT (R530), then the end of its command (R510, R520). -/
def publishPacket (job : TxJob) (d : Nat) : Prog Unit := do
  let bytes ← getStage
  publish .tx d (hdrSize + bytes.length) true
  finish job.result

/-- TRANSMIT (R530) from phase WAIT_BUF on, to the end of its command. An empty ring holds. -/
def transmit (job : TxJob) : Prog Unit := do
  enterPhase (.waitBuf job)
  let t ← take .tx
  match t with
  | none => hold
  | some d => do
    enterPhase (.fill job)
    fillBuffer job d
    enterPhase (.pub job)
    publishPacket job d

/-- The condition that lifts the hold of phase WAIT_BUF (R530): a condition, not an access. -/
def State.txReady (s : State) : Bool :=
  decide (BitVec.ofNat 16 (s.mem.readLE s.tx.availIdxAddr 2) ≠ s.tx.lastAvail)

/-- The name bytes of CH_CREATE from `a` upward, at most `k` (R511): a zero byte ends them and is not among them. -/
def readName (a : Nat) : Nat → Prog (List Byte)
  | 0 => pure []
  | k + 1 => do
    let b ← memRead a .b1
    if b = 0 then pure []
    else do
      let rest ← readName (a + 1) k
      pure (BitVec.ofNat 8 b :: rest)

/-- A name padded with zeros to 32 bytes (R130, R510). -/
def padName (bs : List Byte) : List Byte := bs ++ List.replicate (nameLen - bs.length) 0

/-- The lowest Unused slot (R510). -/
def firstUnused (slots : List Slot) : Option Nat := slots.findIdx? fun slot => decide (slot.state = .unused)

/-- The assignments of R510 to slot `i` and `NEXT_ADDR`, one step, so that R133 holds at every step. Where R9 lets
`LOCAL_ADDR_BASE + MAX_CHANNELS` be 2^32, the last create leaves `NEXT_ADDR` at 0 (DESIGN CHOICE, log 12). -/
def announceSlot (i : Nat) (nm : List Byte) (s : State) : State :=
  { s.setSlot i ⟨.announced, s.nextAddr, s.cfg.addrAny, nm⟩ with nextAddr := s.nextAddr + 1 }

/-- `STAGE <- bytes` and `STAGE_LEN` (R140). -/
def setStage (bytes : List Byte) (s : State) : State := { s with stage := bytes }

/-- R510 after the two checks: slot `i` is the lowest Unused one. -/
def createChannel (i : Nat) : Prog Unit := do
  let na ← operand0
  let bs ← readName na.toNat nameLen
  let nm := padName bs
  let addr : Word ← fun s => .ok (s.nextAddr, s)
  let cfg ← getCfg
  act (announceSlot i nm)
  act (setStage (announcement nm addr))
  transmit ⟨addr, cfg.nsAddr, BitVec.ofNat 32 i⟩

/-- R510 after its acceptance. -/
def chCreateBody : Prog Unit := do
  requireInit .tx
  let slots ← getSlots
  match firstUnused slots with
  | none => failWith .resourceExhausted
  | some i => createChannel i

/-- CH_CREATE (R510). -/
def execChCreate (s : State) : Host.Outcome State Fault Refusal := issue (encode .chCreate) chCreateBody s

/-- The slot CH_SEND sends on (R520): none when `i >= MAX_CHANNELS` or the slot is Unused. -/
def sendingSlot (cfg : Config) (slots : List Slot) (i : Nat) : Option Slot :=
  if cfg.maxChannels ≤ i then none
  else
    match slots[i]? with
    | none => none
    | some slot => if slot.state = .unused then none else some slot

/-- `TRUNC <- 1` (R520). -/
def setTrunc (s : State) : State := { s with status := { s.status with trunc := true } }

/-- `if n > 496: TRUNC <- 1` (R520). -/
def markTrunc (n : Nat) : Prog Unit := if maxPayload < n then act setTrunc else pure ()

/-- R520 once the slot is found. -/
def sendOn (slot : Slot) : Prog Unit := do
  requireInit .tx
  let pa ← operand0
  let n ← operand1
  markTrunc n.toNat
  let bytes ← readBytes pa.toNat (min n.toNat maxPayload)
  act (setStage bytes)
  transmit ⟨slot.localAddr, slot.remote, 0⟩

/-- R520 after its acceptance: no slot to send on is a silent no-op. -/
def chSendBody (idx : Nat) : Prog Unit := do
  let cfg ← getCfg
  let slots ← getSlots
  match sendingSlot cfg slots idx with
  | none => finish 0
  | some slot => sendOn slot

/-- CH_SEND (R520). -/
def execChSend (idx : Nat) (s : State) : Host.Outcome State Fault Refusal :=
  issue (encode (.chSend idx)) (chSendBody idx) s

/-- The drop of R540: `DROP_CNT <- DROP_CNT +32 1`. -/
def dropPacket : Prog Unit := act fun s => { s with dropCnt := s.dropCnt + 1 }

/-- The lowest slot that is Announced or Up and has local address `dst` (R541). -/
def findChannel (dst : Word) (slots : List Slot) : Option Nat :=
  slots.findIdx? fun slot => decide (slot.state ≠ .unused) && decide (slot.localAddr = dst)

/-- The delivery of R541, one step: the slot's remote address and state, and the `Deliver` event (R542). -/
def deliver (i : Nat) (src dst : Word) (payload : List Byte) (s : State) : State :=
  match s.slots[i]? with
  | none => s
  | some slot => (s.setSlot i { slot with state := .up, remote := src }).emit (.deliver i src dst payload)

/-- DISPATCH (R541). -/
def dispatch (src dst : Word) (pa plen : Nat) : Prog Unit := do
  let slots ← getSlots
  match findChannel dst slots with
  | none => dropPacket
  | some i => do
    let payload ← readBytes pa plen
    act (deliver i src dst payload)

/-- The little-endian field of `n` bytes at an offset of a header (R340). -/
def headerField (hdr : List Byte) (off n : Nat) : Nat := leValue ((hdr.drop off).take n)

/-- The checks of R540 on the packet at `ba` in a buffer of `dl` bytes, and its delivery or drop. -/
def inspectPacket (ba dl : Nat) : Prog Unit :=
  if dl < hdrSize then dropPacket
  else do
    let hdr ← readBytes ba hdrSize
    let plen := headerField hdr 12 2
    if maxPayload < plen ∨ dl < hdrSize + plen then dropPacket
    else dispatch (BitVec.ofNat 32 (headerField hdr 0 4)) (BitVec.ofNat 32 (headerField hdr 4 4)) (ba + hdrSize) plen

/-- RECEIVE(d) (R540): every taken RX descriptor is published back. -/
def receive (d : Nat) : Prog Unit := do
  let c ← getRing .rx
  let ba ← memRead (c.descEntryAddr d) .b4
  let dl ← memRead (c.descEntryAddr d + 8) .b4
  inspectPacket ba dl
  let cfg ← getCfg
  publish .rx d dl cfg.rxReturnKick

end Sys2Proof.Machine
end

