-- ==== Sys2Proof/Machine/Notification.lean ====
section
/-! DEFINITION. The notification bridge's POLL (spec/42_notification.md R620, R621, R630). The kick pulses are moves
(Machine/Env.lean); `KICK_OUT` is an event of PUBLISH (R610). -/

namespace Sys2Proof.Machine

/-- `SWAP(TX_KICK_CNT, 0)` (R621): one atomic step. -/
def swapTxKicks : Prog Word := do
  yield
  fun s => .ok (s.txKickCnt, { s with txKickCnt := 0 })

/-- `SWAP(RX_KICK_CNT, 0)` (R621): one atomic step. -/
def swapRxKicks : Prog Word := do
  yield
  fun s => .ok (s.rxKickCnt, { s with rxKickCnt := 0 })

/-- DRAIN() (R630), at most `k` descriptors in one step of the machine; then the sequencer goes on with the loop in
its next step, so the drain has no bound (R631). -/
def drain : Nat → Prog Unit
  | 0 => hold
  | k + 1 => do
    let t ← take .rx
    match t with
    | none => pure ()
    | some d => do
      receive d
      drain k

/-- How many descriptors one step of the machine drains: more than a 16-bit ring can offer at once
(DESIGN CHOICE, log 10). -/
def drainChunk : Nat := 2 ^ 16 + 1

/-- The drain of R620 and the end of its POLL, whose `RESULT` is 1, since `rx != 0`. -/
def drainAndFinish : Prog Unit := do
  enterPhase .drain
  drain drainChunk
  finish 1

/-- `if tx != 0: emit CacheMaint(TX)` (R620). -/
def maintainCache (tx : Word) : Prog Unit := if tx ≠ 0 then emitEvent (.cacheMaint .tx) else pure ()

/-- R620 after its acceptance. -/
def pollBody : Prog Unit := do
  requireInit .rx
  let tx ← swapTxKicks
  let rx ← swapRxKicks
  maintainCache tx
  if rx ≠ 0 then drainAndFinish
  else finish (if tx ≠ 0 then 1 else 0)

/-- POLL (R620). -/
def execPoll (s : State) : Host.Outcome State Fault Refusal := issue (encode .poll) pollBody s

end Sys2Proof.Machine
end

