-- ==== Sys2Proof/Machine/RingEngine.lean ====
section
/-! DEFINITION. The four ring commands (spec/40_ring_engine.md R400 to R404). -/

namespace Sys2Proof.Machine

/-- The assignments of R400 to ring pair `r` based at `base`, and what they mean for the peer (R820, R833; log 5). -/
def initRing (r : RingId) (base : Word) (s : State) : State :=
  (s.setRing r
    { inited := true
      descAddr := base
      availAddr := BitVec.ofNat 32 (layoutAvail s.cfg.n base.toNat)
      usedAddr := BitVec.ofNat 32 (layoutUsed s.cfg.n base.toNat)
      regionLen := BitVec.ofNat 32 (layoutLen s.cfg.n base.toNat)
      lastAvail := 0
      usedHead := 0
      held := [] }).peerAfterInit r

/-- R400 after its acceptance. -/
def ringInitBody (r : RingId) : Prog Unit := do
  let base ← operand0
  let cfg ← getCfg
  if base.toNat % 16 ≠ 0 then failWith .badAlign
  else if addrSpace < base.toNat + layoutLen cfg.n base.toNat then failWith .range
  else do
    act (initRing r base)
    finish 0

/-- RING_INIT (R400, R401). -/
def execRingInit (r : RingId) (s : State) : Host.Outcome State Fault Refusal :=
  issue (encode (.ringInit r)) (ringInitBody r) s

/-- The `RESULT` of a RING_TRY_TAKE (R304, R402): VALID in bit 16 and the index. -/
def takeResult : Option Nat → Word
  | none => 0
  | some d => BitVec.ofNat 32 (2 ^ 16 + d)

/-- R402 after its acceptance. -/
def ringTryTakeBody (r : RingId) : Prog Unit := do
  requireInit r
  let t ← take r
  finish (takeResult t)

/-- RING_TRY_TAKE (R402). -/
def execRingTryTake (r : RingId) (s : State) : Host.Outcome State Fault Refusal :=
  issue (encode (.ringTryTake r)) (ringTryTakeBody r) s

/-- R403 after its acceptance. -/
def ringHasIncomingBody (r : RingId) : Prog Unit := do
  requireInit r
  let a ← availHead r
  let c ← getRing r
  finish (if a = c.lastAvail then 0 else 1)

/-- RING_HAS_INCOMING (R403). -/
def execRingHasIncoming (r : RingId) (s : State) : Host.Outcome State Fault Refusal :=
  issue (encode (.ringHasIncoming r)) (ringHasIncomingBody r) s

/-- R404 after its acceptance. -/
def ringPublishBody (r : RingId) (kick : Bool) (idx : Nat) : Prog Unit := do
  requireInit r
  let cfg ← getCfg
  if cfg.n ≤ idx then failWith .badIndex
  else do
    let len ← operand0
    publish r idx len.toNat kick
    finish 0

/-- RING_PUBLISH (R404). -/
def execRingPublish (r : RingId) (kick : Bool) (idx : Nat) (s : State) : Host.Outcome State Fault Refusal :=
  issue (encode (.ringPublish r kick idx)) (ringPublishBody r kick idx) s

end Sys2Proof.Machine
end

