-- ==== Sys2Proof/Machine/Dispatch.lean ====
section
/-! DEFINITION. One arm per command (spec/30_encoding.md R320): `exec i s` is the local software's write of the word
of `i` to `CMD` in state `s`, run to its end, its hold, its fault or a reset. -/

namespace Sys2Proof.Machine

def exec (i : Instr) (s : State) : Host.Outcome State Fault Refusal :=
  match i with
  | .ringInit r => Sys2Proof.Machine.execRingInit r s
  | .ringTryTake r => Sys2Proof.Machine.execRingTryTake r s
  | .ringHasIncoming r => Sys2Proof.Machine.execRingHasIncoming r s
  | .ringPublish r kick idx => Sys2Proof.Machine.execRingPublish r kick idx s
  | .chCreate => Sys2Proof.Machine.execChCreate s
  | .chSend idx => Sys2Proof.Machine.execChSend idx s
  | .poll => Sys2Proof.Machine.execPoll s

end Sys2Proof.Machine
end

