-- ==== Sys2Proof/Machine/Sequencer.lean ====
section
/-! DEFINITION. What one step of the machine does (spec/10_state.md R100, R102): the block goes on with a command that
held or drains, or the next move of the schedule happens, and a `CMD` write runs its command. `step` (Step.lean) is
`stepWith exec`. -/

namespace Sys2Proof.Machine

/-- The outcome of a move. -/
def moveOutcome (m : Move) (s : State) : Host.Outcome State Fault Refusal :=
  match m.apply s with
  | .ok t => .next t
  | .error (.halt t) => .next t
  | .error (.fault f) => .fault f
  | .error (.refuse r) => .refused r

/-- What the block does next of its own accord, if it has a step: a held TRANSMIT whose condition holds takes its
buffer (R530), a drain goes on (R630). Idle, held and frozen blocks have none. -/
def State.resumption (s : State) : Option (Prog Unit) :=
  if s.status.faulted then none
  else
    match s.seq with
    | .run _ (.waitBuf job) => if s.txReady then some (transmit job) else none
    | .run _ .drain => some drainAndFinish
    | .run _ _ => none
    | .idle => none

/-- The block's own step: without one, nothing changes (R530: a hold has no step; log 1). -/
def blockMove (s : State) : Host.Outcome State Fault Refusal :=
  match s.resumption with
  | none => .next s
  | some p => p.outcome s

/-- A word that is no command (R322, R323): accepted, then a command error; or dropped (R105). -/
def rejectWord (w : Word) (e : DecodeError) (s : State) : Host.Outcome State Fault Refusal :=
  issue w (failWith (decodeErrCode e)) s

/-- The `CMD` write of `w` (R302, R322): the decoder reads it, and the command it names runs. -/
def issueWord (run : Instr → State → Host.Outcome State Fault Refusal) (w : Word) (s : State) :
    Host.Outcome State Fault Refusal :=
  match decode w with
  | .ok i => run i s
  | .error e => rejectWord w e s

/-- One step of the machine, `run` being the meaning of the commands: a configuration that breaks R9 is refused; else
the head of the schedule says who moves (log 1). -/
def stepWith (run : Instr → State → Host.Outcome State Fault Refusal) (s : State) :
    Host.Outcome State Fault Refusal :=
  if s.cfg.valid then
    match s.env with
    | [] => blockMove s
    | .block :: rest => blockMove { s with env := rest }
    | .settle :: rest => if s.resumption.isSome then blockMove s else .next { s with env := rest }
    | .act m :: rest =>
      match m.command s.cfg with
      | some w => issueWord run w { s with env := rest }
      | none => moveOutcome m { s with env := rest }
  else .refused .badConfig

/-- The state in which the very next step runs the command word `w`: the local software's `CMD` write comes first in
the schedule, and the block is idle and not faulted, so that it is accepted (R105; log 1). -/
def State.offerCommand (s : State) (w : Word) : State :=
  { s with
    seq := .idle
    status := { s.status with faulted := false }
    env := .act (.regWrite s.cfg.blkBase 4 w) :: s.env }

end Sys2Proof.Machine
end

