-- ==== Sys2Proof/Safety.lean ====
section
/-! DEFINITION. The terms statements are made in: a block that is ready for a command and left alone while it runs,
accesses the platform backs, what the pseudocode of PUBLISH, TRANSMIT and the byte moves leaves in memory and in the
history, and the invariants of the block. -/

namespace Sys2Proof.Machine

/-- The schedule leaves a running command alone: nothing is scheduled, or the others wait for it to end (log 1). -/
def State.quiet (s : State) : Bool :=
  match s.env with
  | [] => true
  | .settle :: _ => true
  | .block :: _ => false
  | .act _ :: _ => false

/-- The block accepts a command (R105) and is left alone while it runs it. -/
def State.ready (s : State) : Bool := s.accepting && s.quiet

/-- Every 1-byte access in `[a, a + n)` is backed (R12). -/
def State.backs (s : State) (a n : Nat) : Prop := ∀ k, k < n → s.admits (a + k) 1 = true

/-- Every access below 2^32 is backed (R12). -/
def State.backsAll (s : State) : Prop := ∀ a w, a + Width.bytes w ≤ addrSpace → s.admits a w.bytes = true

/-- What is left of a schedule after the moves that come before the block's next step (log 1). -/
def afterMark : List Input → List Input
  | [] => []
  | .settle :: rest => .settle :: rest
  | .block :: rest => rest
  | .act _ :: rest => afterMark rest

/-- A reset is scheduled. -/
def hasReset (env : List Input) : Bool := env.any fun e => decide (e = .act .reset)

/-- The pulses on `IRQ_TX_KICK` that are scheduled. -/
def txPulses (env : List Input) : Nat := env.countP fun e => decide (e = .act .pulseTx)

/-- The pulses on `IRQ_RX_KICK` that are scheduled. -/
def rxPulses (env : List Input) : Nat := env.countP fun e => decide (e = .act .pulseRx)

/-- `STATUS` after a command that the block accepted ended with `err` and `TRUNC` at `trunc` (R105, R106). -/
def Status.ended (st : Status) (trunc : Bool) (err : ErrCode) : Status :=
  { st with trunc := trunc, cmdOverrun := false, err := err }

/-- An accepted command that ended with an error (R700): nothing else changes. -/
def State.afterError (s : State) (err : ErrCode) : State :=
  { s with result := 0, status := s.status.ended false err }

/-- `STATUS` after a fault (R710). -/
def Status.faultedWith (st : Status) (c : FaultCode) : Status := { st with fcode := c, faulted := true }

/-- The command `i` accepted, its operands latched (R103, R105). -/
def State.started (s : State) (i : Instr) : State :=
  { s with status := s.status.ended false .ok, seq := .run ⟨encode i, s.arg0, s.arg1⟩ .start }

/-- The table of R322: OP, mask, match. -/
def commandRows : List (Nat × Word × Word) :=
  [(0x01, 0xFFFFFEFF, 0x00000001), (0x02, 0xFFFFFEFF, 0x00000002), (0x03, 0xFFFFFEFF, 0x00000003),
    (0x04, 0x0000FCFF, 0x00000004), (0x10, 0xFFFFFFFF, 0x00000010), (0x11, 0x0000FFFF, 0x00000011),
    (0x20, 0xFFFFFFFF, 0x00000020)]

/-- `USED_ADDR` for ring size `size` and base `base`: `align_up(base + 18*N + 6, 4096)` (R210, R400). -/
def usedAddrFor (size base : Nat) : Nat := (base + 18 * size + 6 + 4095) / 4096 * 4096

/-- `REGION_LEN` (R210, R400). -/
def regionLenFor (size base : Nat) : Nat := usedAddrFor size base - base + 4 + 8 * size

/-! The reads of a TAKE (R405, R406). -/

/-- `Sh[r].avail.idx` in memory. -/
def State.availIdx (s : State) (r : RingId) : Half := BitVec.ofNat 16 (s.mem.readLE (s.ring r).availIdxAddr 2)

/-- The address of the avail entry the next TAKE reads. -/
def State.nextEntryAddr (s : State) (r : RingId) : Nat :=
  (s.ring r).availEntryAddr ((s.ring r).lastAvail.toNat % s.cfg.n)

/-- The descriptor index there. -/
def State.nextEntry (s : State) (r : RingId) : Nat := s.mem.readLE (s.nextEntryAddr r) 2

/-- `Rd` of `avail.idx`. -/
def State.headEvent (s : State) (r : RingId) : Event :=
  .rd .block (s.ring r).availIdxAddr 2 (s.mem.readLE (s.ring r).availIdxAddr 2)

/-- The two `Rd` of a TAKE that finds an entry. -/
def State.takeEvents (s : State) (r : RingId) : List Event :=
  [s.headEvent r, .rd .block (s.nextEntryAddr r) 2 (s.nextEntry r)]

/-- The verdict check of a read of `avail.idx` (R405). -/
def State.headVerdicts (s : State) (r : RingId) : Verdicts :=
  { s.verdicts with
    peerOverrun := s.verdicts.peerOverrun || decide (s.cfg.n < (s.availIdx r - (s.ring r).lastAvail).toNat) }

/-- The verdict checks of a TAKE that returns `d` (R405, R407). -/
def State.takeVerdicts (s : State) (r : RingId) (d : Nat) : Verdicts :=
  { s.headVerdicts r with doubleOffer := s.verdicts.doubleOffer || (s.ring r).held.contains d }

/-- The two accesses of a TAKE are backed. -/
def State.takeBacked (s : State) (r : RingId) : Prop :=
  s.admits (s.ring r).availIdxAddr 2 = true ∧ s.admits (s.nextEntryAddr r) 2 = true

/-! What a PUBLISH leaves (R410). -/

/-- The address of the used entry the next PUBLISH writes, for ring size `size`. -/
def RingCtx.nextUsedAddr (c : RingCtx) (size : Nat) : Nat := c.usedEntryAddr (c.usedHead.toNat % size)

/-- The three writes of a PUBLISH. -/
def publishMem (m : Memory) (c : RingCtx) (size d len : Nat) : Memory :=
  ((m.writeLE (c.nextUsedAddr size) 4 d).writeLE (c.nextUsedAddr size + 4) 4 len).writeLE c.usedIdxAddr 2
    (c.usedHead + 1).toNat

/-- What memory holds after the first `k` steps of a PUBLISH: its `id` write, its `len` write, a barrier, its `idx`
write, and what follows (R410). -/
def publishMemUpTo (m : Memory) (c : RingCtx) (size d len k : Nat) : Memory :=
  if k = 0 then m
  else if k = 1 then m.writeLE (c.nextUsedAddr size) 4 d
  else if k < 4 then (m.writeLE (c.nextUsedAddr size) 4 d).writeLE (c.nextUsedAddr size + 4) 4 len
  else publishMem m c size d len

/-- The events of a PUBLISH, in order (R226, R410, R610). -/
def publishEvents (c : RingCtx) (size d len : Nat) (kick : Bool) : List Event :=
  [.wr .block (c.nextUsedAddr size) 4 d, .wr .block (c.nextUsedAddr size + 4) 4 len, .barrier,
    .wr .block c.usedIdxAddr 2 (c.usedHead + 1).toNat, .barrier, .flush c.descAddr c.regionLen]
    ++ if kick then [.kickOut] else []

/-- The three writes of a PUBLISH are backed. -/
def State.publishBacked (s : State) (r : RingId) : Prop :=
  s.admits ((s.ring r).nextUsedAddr s.cfg.n) 4 = true ∧ s.admits ((s.ring r).nextUsedAddr s.cfg.n + 4) 4 = true
    ∧ s.admits (s.ring r).usedIdxAddr 2 = true

/-- Address `a` is none of the bytes a PUBLISH on ring context `c` stores to. -/
def outsidePublish (c : RingCtx) (size a : Nat) : Prop :=
  (a < c.nextUsedAddr size ∨ c.nextUsedAddr size + 8 ≤ a) ∧ (a < c.usedIdxAddr ∨ c.usedIdxAddr + 2 ≤ a)

/-- Address `a` is neither `used.idx` nor a byte of a used entry. -/
def outsideUsed (c : RingCtx) (size a : Nat) : Prop :=
  (a < c.usedIdxAddr ∨ c.usedIdxAddr + 2 ≤ a) ∧ ∀ j, j < size → a < c.usedEntryAddr j ∨ c.usedEntryAddr j + 8 ≤ a

/-! Byte moves (R12). -/

/-- The `Rd` events of bytes `bs` read from `a` upward. -/
def byteReads (a : Nat) : List Byte → List Event
  | [] => []
  | b :: bs => .rd .block a 1 b.toNat :: byteReads (a + 1) bs

/-- The `Wr` events of bytes `bs` written from `a` upward. -/
def byteWrites (a : Nat) : List Byte → List Event
  | [] => []
  | b :: bs => .wr .block a 1 b.toNat :: byteWrites (a + 1) bs

/-! A channel name in memory (R511). -/

/-- The name bytes at `a`: at most `k`, up to the first zero byte. -/
def nameAt (m : Memory) (a : Nat) : Nat → List Byte
  | 0 => []
  | k + 1 => if m.read a = 0 then [] else m.read a :: nameAt m (a + 1) k

/-- The bytes CH_CREATE reads: the name and the zero byte that ends it, if one does. -/
def nameBytesRead (m : Memory) (a : Nat) : Nat → List Byte
  | 0 => []
  | k + 1 => if m.read a = 0 then [m.read a] else m.read a :: nameBytesRead m (a + 1) k

/-! What a TRANSMIT leaves (R530). -/

/-- The packet of a TRANSMIT (R340): header and payload. -/
def packet (src dst : Word) (payload : List Byte) : List Byte :=
  leBytes 4 src.toNat ++ leBytes 4 dst.toNat ++ leBytes 4 0 ++ leBytes 2 payload.length ++ leBytes 2 0 ++ payload

/-- The TX descriptor's `addr` (R211). -/
def State.txBufAddr (s : State) : Nat := s.mem.readLE (s.tx.descEntryAddr (s.nextEntry .tx)) 4

/-- The TX descriptor's `len` (R211). -/
def State.txBufLen (s : State) : Nat := s.mem.readLE (s.tx.descEntryAddr (s.nextEntry .tx) + 8) 4

/-- The two `Rd` of the TX descriptor. -/
def State.txDescEvents (s : State) : List Event :=
  [.rd .block (s.tx.descEntryAddr (s.nextEntry .tx)) 4 s.txBufAddr,
    .rd .block (s.tx.descEntryAddr (s.nextEntry .tx) + 8) 4 s.txBufLen]

/-- A TX buffer is offered, its index is in range, and it holds a packet of `len` payload bytes (R406, R531). -/
def State.txFits (s : State) (len : Nat) : Prop :=
  s.availIdx .tx ≠ s.tx.lastAvail ∧ s.nextEntry .tx < s.cfg.n ∧ 16 + len ≤ s.txBufLen

/-- The accesses up to the descriptor read of a TRANSMIT are backed. -/
def State.txDescBacked (s : State) : Prop :=
  s.takeBacked .tx ∧ s.admits (s.tx.descEntryAddr (s.nextEntry .tx)) 4 = true
    ∧ s.admits (s.tx.descEntryAddr (s.nextEntry .tx) + 8) 4 = true

/-- Every access of a TRANSMIT of `len` payload bytes is backed. -/
def State.txBacked (s : State) (len : Nat) : Prop :=
  s.txDescBacked ∧ s.backs s.txBufAddr (16 + len) ∧ s.publishBacked .tx

/-- The state after a TRANSMIT from `s` of `payload` and the end of its command with result `res`: the packet is in
the buffer, the used entry holds the descriptor and the packet's length, one `KickOut` (R530, R410, R106). -/
def State.afterTransmit (s : State) (src dst : Word) (payload : List Byte) (res : Word) : State :=
  { s with
    result := res
    status := { s.status with err := .ok }
    seq := .idle
    tx := { s.tx with
      lastAvail := s.tx.lastAvail + 1
      usedHead := s.tx.usedHead + 1
      held := heldErase (s.nextEntry .tx) (heldInsert (s.nextEntry .tx) s.tx.held) }
    verdicts := s.takeVerdicts .tx (s.nextEntry .tx)
    mem := publishMem (s.mem.writeBytes s.txBufAddr (packet src dst payload)) s.tx s.cfg.n (s.nextEntry .tx)
      (16 + payload.length)
    history := s.history ++ s.takeEvents .tx ++ s.txDescEvents ++ byteWrites s.txBufAddr (packet src dst payload)
      ++ publishEvents s.tx s.cfg.n (s.nextEntry .tx) (16 + payload.length) true }

/-- The state in which a TRANSMIT holds: it has read `avail.idx` and found nothing (R530). -/
def State.afterHold (s : State) (cmd : Latched) (job : TxJob) : State :=
  { s with
    seq := .run cmd (.waitBuf job)
    verdicts := s.headVerdicts .tx
    history := s.history ++ [s.headEvent .tx] }

/-- The command at work before its TRANSMIT in a CH_SEND of `n` bytes at `pa`: the payload is staged (R520). -/
def State.staged (s : State) (pa n : Nat) : State :=
  { s with
    status := s.status.ended (decide (496 < n)) .ok
    stage := s.mem.readBytes pa (min n 496)
    history := s.history ++ byteReads pa (s.mem.readBytes pa (min n 496)) }

/-- The name CH_CREATE stores (R510, R511): padded with zeros to 32 bytes. -/
def State.nameGiven (s : State) : List Byte :=
  nameAt s.mem s.arg0.toNat 32 ++ List.replicate (32 - (nameAt s.mem s.arg0.toNat 32).length) 0

/-- The announcement's payload (R341). -/
def State.announcementGiven (s : State) : List Byte :=
  s.nameGiven ++ leBytes 4 s.nextAddr.toNat ++ leBytes 4 0

/-- A CH_CREATE that has allocated slot `i`, before its TRANSMIT (R510). -/
def State.announced (s : State) (i : Nat) : State :=
  { s with
    status := s.status.ended false .ok
    slots := s.slots.set i ⟨.announced, s.nextAddr, s.cfg.addrAny, s.nameGiven⟩
    nextAddr := s.nextAddr + 1
    stage := s.announcementGiven
    history := s.history ++ byteReads s.arg0.toNat (nameBytesRead s.mem s.arg0.toNat 32) }

/-- Slot `i` is the lowest Unused one (R510). -/
def State.lowestUnused (s : State) (i : Nat) : Prop :=
  (∃ slot, s.slots[i]? = some slot ∧ slot.state = .unused)
    ∧ ∀ j, j < i → ∀ slot, s.slots[j]? = some slot → slot.state ≠ .unused

/-- The slot CH_SEND sends on (R520). -/
def State.sendsOn (s : State) (i : Nat) (slot : Slot) : Prop :=
  i < s.cfg.maxChannels ∧ s.slots[i]? = some slot ∧ slot.state ≠ .unused

/-! Reception (R540, R541). -/

/-- Slot `i` is the lowest one that is Announced or Up with local address `dst` (R541). -/
def State.channelFor (s : State) (dst : Word) (i : Nat) (slot : Slot) : Prop :=
  s.slots[i]? = some slot ∧ slot.state ≠ .unused ∧ slot.localAddr = dst
    ∧ ∀ j, j < i → ∀ other, s.slots[j]? = some other → other.state = .unused ∨ other.localAddr ≠ dst

/-- No slot is Announced or Up with local address `dst` (R541). -/
def State.noChannelFor (s : State) (dst : Word) : Prop :=
  ∀ slot, slot ∈ s.slots → slot.state = .unused ∨ slot.localAddr ≠ dst

/-- `desc[d].addr` of the RX ring pair (R211). -/
def State.rxBufAddr (s : State) (d : Nat) : Nat := s.mem.readLE (s.rx.descEntryAddr d) 4

/-- `desc[d].len` of the RX ring pair (R211). -/
def State.rxBufLen (s : State) (d : Nat) : Nat := s.mem.readLE (s.rx.descEntryAddr d + 8) 4

/-- `src` of the packet in the RX buffer of `d` (R340, R540). -/
def State.rxSrc (s : State) (d : Nat) : Word := BitVec.ofNat 32 (s.mem.readLE (s.rxBufAddr d) 4)

/-- Its `dst`. -/
def State.rxDst (s : State) (d : Nat) : Word := BitVec.ofNat 32 (s.mem.readLE (s.rxBufAddr d + 4) 4)

/-- Its `len`. -/
def State.rxLen (s : State) (d : Nat) : Nat := s.mem.readLE (s.rxBufAddr d + 12) 2

/-- The 16 `Rd` of its header. -/
def State.rxHeaderReads (s : State) (d : Nat) : List Event :=
  byteReads (s.rxBufAddr d) (s.mem.readBytes (s.rxBufAddr d) 16)

/-- Its payload. -/
def State.rxPayload (s : State) (d : Nat) : List Byte := s.mem.readBytes (s.rxBufAddr d + 16) (s.rxLen d)

/-- The `CacheMaint(TX)` of a POLL (R620). -/
def State.maintEvents (s : State) : List Event := if s.txKickCnt = 0 then [] else [.cacheMaint .tx]

/-- The RX ring pair offers exactly one packet, its index is in range, and every access POLL makes for it is backed. -/
def State.onePacket (s : State) : Prop :=
  s.availIdx .rx = s.rx.lastAvail + 1 ∧ s.nextEntry .rx < s.cfg.n ∧ s.takeBacked .rx ∧ s.publishBacked .rx
    ∧ s.admits (s.rx.descEntryAddr (s.nextEntry .rx)) 4 = true
    ∧ s.admits (s.rx.descEntryAddr (s.nextEntry .rx) + 8) 4 = true
    ∧ s.backs (s.rxBufAddr (s.nextEntry .rx)) (s.rxBufLen (s.nextEntry .rx))

/-- The packet fits its buffer and the largest packet (R540). -/
def State.rxFits (s : State) (d : Nat) : Prop := 16 ≤ s.rxBufLen d ∧ s.rxLen d ≤ 496 ∧ 16 + s.rxLen d ≤ s.rxBufLen d

/-- The state after a POLL that drained the one packet offered, with the channel table, the drop counter and the
events its RECEIVE left between the descriptor's reads and its return (R620, R630, R540). -/
def State.afterOnePacket (s : State) (slots : List Slot) (drops : Word) (seen : List Event) : State :=
  { s with
    result := 1
    status := s.status.ended false .ok
    txKickCnt := 0
    rxKickCnt := 0
    dropCnt := drops
    slots := slots
    rx := { s.rx with
      lastAvail := s.rx.lastAvail + 1
      usedHead := s.rx.usedHead + 1
      held := heldErase (s.nextEntry .rx) (heldInsert (s.nextEntry .rx) s.rx.held) }
    verdicts := s.takeVerdicts .rx (s.nextEntry .rx)
    mem := publishMem s.mem s.rx s.cfg.n (s.nextEntry .rx) (s.rxBufLen (s.nextEntry .rx))
    history := s.history ++ s.maintEvents ++ s.takeEvents .rx
      ++ [.rd .block (s.rx.descEntryAddr (s.nextEntry .rx)) 4 (s.rxBufAddr (s.nextEntry .rx)),
          .rd .block (s.rx.descEntryAddr (s.nextEntry .rx) + 8) 4 (s.rxBufLen (s.nextEntry .rx))]
      ++ seen
      ++ publishEvents s.rx s.cfg.n (s.nextEntry .rx) (s.rxBufLen (s.nextEntry .rx)) s.cfg.rxReturnKick
      ++ [s.headEvent .rx] }

/-! The peer (R230 to R236). -/

/-- `[a, a + n)` lies outside the region of ring context `c` (R210). -/
def RingCtx.outsideRegion (c : RingCtx) (size a n : Nat) : Prop :=
  a + n ≤ c.descAddr.toNat ∨ c.usedAddr.toNat + 4 + 8 * size ≤ a

/-- `[a, a + n)` meets no buffer of ring pair `r` that is not the peer's (R214, R235). -/
def State.clearOfBuffers (s : State) (r : RingId) (a n : Nat) : Prop :=
  ∀ d, d ∈ s.notPeers r → d < s.cfg.n →
    let addr := s.mem.readLE ((s.ring r).descEntryAddr d) 4
    let len := s.mem.readLE ((s.ring r).descEntryAddr d + 8) 4
    len = 0 ∨ a + n ≤ addr ∨ addr + len ≤ a

/-- What ring pair `r` claims, if it is in use, lies outside `[a, a + n)` (R230). -/
def State.unclaimed (s : State) (r : RingId) (a n : Nat) : Prop :=
  (s.ring r).inited = true → (s.ring r).outsideRegion s.cfg.n a n ∧ s.clearOfBuffers r a n

/-- The other ring pair. -/
def otherRing : RingId → RingId
  | .rx => .tx
  | .tx => .rx

/-- What a peer write of `v` that is performed leaves (R225): the bytes, one event, and ghost state of the peer. -/
def State.wrote (s t : State) (a : Nat) (w : Width) (v : Word) (rest : List Input) : Prop :=
  t = { s with
    env := rest
    mem := s.mem.writeLE a w.bytes (v.toNat % 2 ^ (8 * w.bytes))
    history := s.history ++ [.wr .peer a w.bytes (v.toNat % 2 ^ (8 * w.bytes))]
    peerRx := t.peerRx, peerTx := t.peerTx, peerWrote := t.peerWrote }

/-! Invariants. -/

/-- R210, R400, R401: the ring context of an initialised ring pair is laid out from its base, within 2^32; one never
initialised is as reset left it (R190). -/
def RingCtx.laidOut (c : RingCtx) (size : Nat) : Prop :=
  if c.inited then
    c.descAddr.toNat % 16 = 0
      ∧ c.availAddr.toNat = c.descAddr.toNat + 16 * size
      ∧ c.usedAddr.toNat % 4096 = 0
      ∧ c.availAddr.toNat + 6 + 2 * size ≤ c.usedAddr.toNat
      ∧ c.usedAddr.toNat < c.availAddr.toNat + 6 + 2 * size + 4096
      ∧ c.regionLen.toNat = c.usedAddr.toNat - c.descAddr.toNat + 4 + 8 * size
      ∧ c.usedAddr.toNat + 4 + 8 * size ≤ addrSpace
  else c = .off

/-- Both ring contexts are laid out. -/
def State.ringsLaidOut (s : State) : Prop := s.rx.laidOut s.cfg.n ∧ s.tx.laidOut s.cfg.n

/-- R133: the non-Unused slots are the first `k`, their local addresses and `NEXT_ADDR` count up from
`LOCAL_ADDR_BASE`, and an Announced slot has the remote address `ADDR_ANY`. `NEXT_ADDR` counts modulo 2^32
(DESIGN CHOICE, log 12). -/
def State.channelTable (s : State) : Prop :=
  s.slots.length = s.cfg.maxChannels
    ∧ ∃ k, k ≤ s.cfg.maxChannels
      ∧ s.nextAddr = s.cfg.localAddrBase + BitVec.ofNat 32 k
      ∧ ∀ i slot, s.slots[i]? = some slot →
          (slot.state ≠ .unused ↔ i < k)
            ∧ (i < k → slot.localAddr = s.cfg.localAddrBase + BitVec.ofNat 32 i)
            ∧ (slot.state = .announced → slot.remote = s.cfg.addrAny)

/-- The memory is canonical and lies in the address space. -/
def State.memoryOk (s : State) : Prop := s.mem.wf = true ∧ s.mem.inSpace = true

/-- R140, R130: the stage holds at most 496 bytes, and every name 32. -/
def State.sizesOk (s : State) : Prop := s.stage.length ≤ 496 ∧ ∀ slot, slot ∈ s.slots → slot.name.length = 32

/-- Between steps the sequencer is idle, holds for a TX buffer (R530), drains (R630), or is frozen by a fault (R710);
`FCODE` is 0 exactly when there is no fault (R104). -/
def State.sequencerRests (s : State) : Prop :=
  (s.status.faulted = false → s.seq = .idle ∨ (∃ cmd job, s.seq = .run cmd (.waitBuf job))
      ∨ ∃ cmd, s.seq = .run cmd .drain)
    ∧ (s.status.faulted = true → s.seq ≠ .idle)
    ∧ (s.status.faulted = true ↔ s.status.fcode ≠ .none)

/-- A held TRANSMIT has an initialised TX ring pair, a drain an initialised RX ring pair. -/
def State.phaseOk (s : State) : Prop :=
  (∀ cmd job, s.seq = .run cmd (.waitBuf job) → s.tx.inited = true)
    ∧ ∀ cmd, s.seq = .run cmd .drain → s.rx.inited = true

/-- The counts of both kick lines, with the pulses still scheduled. -/
def State.kicksToCome (s : State) : Word × Word :=
  (s.txKickCnt + BitVec.ofNat 32 (txPulses s.env), s.rxKickCnt + BitVec.ofNat 32 (rxPulses s.env))

/-- How far a slot is in the lifecycle of R131. -/
def ChState.rank : ChState → Nat
  | .unused => 0
  | .announced => 1
  | .up => 2

/-- One event is an access the block makes. -/
def Event.byBlock : Event → Bool
  | .rd .block _ _ _ => true
  | .wr .block _ _ _ => true
  | .rd .peer _ _ _ => false
  | .wr .peer _ _ _ => false
  | .rd .core _ _ _ => false
  | .wr .core _ _ _ => false
  | .barrier => true
  | .flush _ _ => true
  | .kickOut => true
  | .cacheMaint _ => true
  | .deliver _ _ _ _ => true

end Sys2Proof.Machine
end

