-- ==== Sys2Proof/Certificates/Slice0/Obligations.lean ====
section
/-! DEFINITION. The statements for the provers, from the numbered rules of spec/. A command that "runs alone" is one
whose schedule leaves the block alone until it ends (`State.ready`, log 1); what the other agents may do meanwhile is the
subject of the statements over every schedule. -/

open Sys2Proof Sys2Proof.Machine

/-! ## Encoding -/

/-- Words of R351 and of spec/95_test_vectors.md (P1 to P3, V1 to V6), written out there, decode as they say. -/
def Obligations.DecodeReadsTheSpecsWords : Prop :=
  decode 0x00000001 = .ok (.ringInit .rx) ∧ decode 0x00000101 = .ok (.ringInit .tx)
    ∧ decode 0x00000002 = .ok (.ringTryTake .rx) ∧ decode 0x00000102 = .ok (.ringTryTake .tx)
    ∧ decode 0x00000003 = .ok (.ringHasIncoming .rx)
    ∧ decode 0x00020204 = .ok (.ringPublish .rx true 2) ∧ decode 0x00050004 = .ok (.ringPublish .rx false 5)
    ∧ decode 0x00000010 = .ok .chCreate ∧ decode 0x00000011 = .ok (.chSend 0)
    ∧ decode 0xFFFF0011 = .ok (.chSend 0xFFFF) ∧ decode 0x00000020 = .ok .poll
    ∧ decode 0x00000005 = .error .illegalOp ∧ decode 0x00000000 = .error .illegalOp
    ∧ decode 0x00000402 = .error .reserved ∧ decode 0x00000201 = .error .reserved
    ∧ decode 0x00010010 = .error .reserved ∧ decode 0x00000111 = .error .reserved

/-- R320, R351: every command, at every value its encoding admits, is read back from its word. -/
def Obligations.DecodeUndoesEncode : Prop :=
  ∀ i : Instr, i.wf = true → decode (encode i) = .ok i

/-- R320, R322: each word that is a command is the word of the command it decodes to, and that command is well
formed: no bit of a command word is ignored. -/
def Obligations.EncodeUndoesDecode : Prop :=
  ∀ (w : Word) (i : Instr), decode w = .ok i → i.wf = true ∧ encode i = w

/-- R322 with the operands of R321: the opcode, then the mask test, for all 2^32 words. -/
def Obligations.DecodeTable : Prop :=
  ∀ w : Word,
    let op := w.toNat % 256
    let r : RingId := if w.toNat / 256 % 2 = 1 then .tx else .rx
    let kick : Bool := decide (w.toNat / 512 % 2 = 1)
    let idx := w.toNat / 65536
    decode w =
      if op = 0x01 then if w &&& 0xFFFFFEFF = 0x00000001 then .ok (.ringInit r) else .error .reserved
      else if op = 0x02 then if w &&& 0xFFFFFEFF = 0x00000002 then .ok (.ringTryTake r) else .error .reserved
      else if op = 0x03 then if w &&& 0xFFFFFEFF = 0x00000003 then .ok (.ringHasIncoming r) else .error .reserved
      else if op = 0x04 then if w &&& 0x0000FCFF = 0x00000004 then .ok (.ringPublish r kick idx) else .error .reserved
      else if op = 0x10 then if w &&& 0xFFFFFFFF = 0x00000010 then .ok .chCreate else .error .reserved
      else if op = 0x11 then if w &&& 0x0000FFFF = 0x00000011 then .ok (.chSend idx) else .error .reserved
      else if op = 0x20 then if w &&& 0xFFFFFFFF = 0x00000020 then .ok .poll else .error .reserved
      else .error .illegalOp

/-- R302, R322, R324: the `CMD` write of a command's word is that command's meaning, and `withFetchWord` puts it
there. What `step` adds around `exec` is that the schedule moves past the write (log 1). -/
def Obligations.StepRunsDecodedCommand : Prop :=
  ∀ (s : State) (w : Word) (i : Instr), s.cfg.valid = true → decode w = .ok i →
    (∀ rest, s.env = .act (.regWrite s.cfg.blkBase 4 w) :: rest → step s = exec i { s with env := rest })
    ∧ step (s.withFetchWord 32 w.toNat)
        = exec i { s with seq := .idle, status := { s.status with faulted := false } }

/-- R323 (R105, R106): a word that is no command ends at once with `ERR_ILLEGAL_OP` or `ERR_RESERVED`, and changes
nothing but `ERR`, `RESULT` and the flags the acceptance clears. -/
def Obligations.UndecodableWordEndsInError : Prop :=
  ∀ (s : State) (w : Word) (rest : List Input), s.cfg.valid = true →
    s.env = .act (.regWrite s.cfg.blkBase 4 w) :: rest → ({ s with env := rest } : State).ready = true →
    (w.toNat % 256 ∉ commandRows.map (·.1) → step s = .next (State.afterError { s with env := rest } .illegalOp))
    ∧ ∀ op mask pattern, (op, mask, pattern) ∈ commandRows → w.toNat % 256 = op → w &&& mask ≠ pattern →
        step s = .next (State.afterError { s with env := rest } .reserved)

/-- R105, R830 (a): a `CMD` write, whatever the word, while the block is faulted or runs a command, sets
`CMD_OVERRUN` and does nothing else. -/
def Obligations.BusyOrFaultedWriteIsDropped : Prop :=
  ∀ (s : State) (w : Word) (rest : List Input), s.cfg.valid = true →
    s.env = .act (.regWrite s.cfg.blkBase 4 w) :: rest → s.status.faulted = true ∨ s.seq ≠ .idle →
    step s = .next { s with env := rest, status := { s.status with cmdOverrun := true } }

/-- R9: a machine whose configuration breaks one of the constraints is refused, at every step (log 3); with a
configuration that keeps them all it steps, and an idle one with nothing scheduled repeats its state (log 1). -/
def Obligations.BadConfigurationRefused : Prop :=
  ∀ s : State,
    let ok := s.cfg.log2N ≤ 15 ∧ 1 ≤ s.cfg.maxChannels ∧ s.cfg.maxChannels ≤ 16
      ∧ s.cfg.localAddrBase.toNat + s.cfg.maxChannels - 1 ≤ 0xFFFFFFFF
      ∧ (s.cfg.nsAddr.toNat < s.cfg.localAddrBase.toNat
          ∨ s.cfg.localAddrBase.toNat + s.cfg.maxChannels ≤ s.cfg.nsAddr.toNat)
      ∧ (s.cfg.addrAny.toNat < s.cfg.localAddrBase.toNat
          ∨ s.cfg.localAddrBase.toNat + s.cfg.maxChannels ≤ s.cfg.addrAny.toNat)
    (¬ok → step s = .refused .badConfig) ∧ (ok → s.env = [] → s.seq = .idle → step s = .next s)

/-! ## Reset -/

/-- R190: every state element at its reset value, for every configuration, and shared memory as it was. -/
def Obligations.ResetValues : Prop :=
  (∀ c : Config,
    let t := State.resetWith c
    t.arg0 = 0 ∧ t.arg1 = 0 ∧ t.result = 0 ∧ t.seq = .idle
      ∧ t.busy = false ∧ t.status = ⟨false, false, .ok, .none, false⟩
      ∧ (∀ r, (t.ring r).inited = false ∧ (t.ring r).descAddr = 0 ∧ (t.ring r).availAddr = 0
          ∧ (t.ring r).usedAddr = 0 ∧ (t.ring r).regionLen = 0 ∧ (t.ring r).lastAvail = 0
          ∧ (t.ring r).usedHead = 0 ∧ (t.ring r).held = [])
      ∧ t.txKickCnt = 0 ∧ t.rxKickCnt = 0 ∧ t.dropCnt = 0
      ∧ t.slots.length = c.maxChannels
      ∧ (∀ slot, slot ∈ t.slots → slot.state = .unused ∧ slot.localAddr = 0 ∧ slot.remote = 0
          ∧ slot.name = List.replicate 32 0)
      ∧ t.nextAddr = c.localAddrBase ∧ t.stage = []
      ∧ t.verdicts = ⟨false, false, false⟩ ∧ t.history = [])
  ∧ ∀ (s : State) (rest : List Input), s.cfg.valid = true → s.env = .act .reset :: rest →
      ∃ t, step s = .next t ∧ t.mem = s.mem

/-- R800, R802, R803: a reset of the running machine puts the block where R190 says, whatever it was doing, and
leaves the configuration, shared memory, the peer and the schedule alone. That the verdicts and the history empty too is
the model's reading of R190 against R170 (log 8). -/
def Obligations.ResetMoveResetsBlock : Prop :=
  ∀ (s : State) (rest : List Input), s.cfg.valid = true → s.env = .act .reset :: rest →
    step s = .next { State.resetWith s.cfg with
      mem := s.mem, peerRx := s.peerRx, peerTx := s.peerTx, peerWrote := s.peerWrote, env := rest, reads := s.reads }

/-- R801: a reset abandons a running command wherever it comes. Before the first step of a command, and before the
first of a retry after a hold lifts, there is no access. After `k` steps of any command, the block is as R190 says and of
what the command did only memory is left (and what the model keeps of the peer, log 5). For a RING_PUBLISH the accesses
already performed stay and none of the later ones happens: a used entry is written before its `idx` write. That the
history and the verdicts are emptied is log 8; what a step is, log 7. -/
def Obligations.ResetAbandonsRunningCommand : Prop :=
  ∀ (s : State) (rest : List Input),
    (∀ i : Instr, s.env = .act .reset :: rest → s.accepting = true →
      exec i s = .next (State.blockReset { s with env := rest }))
    ∧ (s.cfg.valid = true → s.resumption.isSome = true → s.env = .block :: .act .reset :: rest →
        step s = .next (State.blockReset { s with env := rest }))
    ∧ (∀ (i : Instr) (k : Nat) (t : State), s.env = List.replicate k .block ++ .act .reset :: rest →
        exec i s = .next t → t.env = rest →
        t = State.blockReset { s with
          env := rest, mem := t.mem, peerRx := t.peerRx, peerTx := t.peerTx, peerWrote := t.peerWrote })
    ∧ ∀ (r : RingId) (kick : Bool) (idx k : Nat), (Instr.ringPublish r kick idx).wf = true →
        s.env = List.replicate k .block ++ .act .reset :: rest → k < 8 → s.accepting = true →
        (s.ring r).inited = true → idx < s.cfg.n → s.publishBacked r →
        exec (.ringPublish r kick idx) s = .next (State.blockReset { s with
          env := rest, mem := publishMemUpTo s.mem (s.ring r) s.cfg.n idx s.arg0.toNat k })

/-! ## Ring commands -/

/-- R400, R401: RING_INIT's two errors, in their order (R732), and its assignments. What the peer then has on offer
(R820, R833) is ghost state of the model (log 5): it changes for this ring pair alone, and never the peer's used-read
index or what the peer has read of the used ring. -/
def Obligations.RingInitSetsUpRing : Prop :=
  ∀ (r : RingId) (s : State), s.ready = true →
    let base := s.arg0.toNat
    let size := s.cfg.n
    if base % 16 ≠ 0 then exec (.ringInit r) s = .next (s.afterError .badAlign)
    else if 2 ^ 32 < base + regionLenFor size base then exec (.ringInit r) s = .next (s.afterError .range)
    else ∃ t, exec (.ringInit r) s = .next t
      ∧ t = { State.setRing { s with result := 0, status := s.status.ended false .ok } r
                { inited := true
                  descAddr := s.arg0
                  availAddr := BitVec.ofNat 32 (base + 16 * size)
                  usedAddr := BitVec.ofNat 32 (usedAddrFor size base)
                  regionLen := BitVec.ofNat 32 (regionLenFor size base)
                  lastAvail := 0
                  usedHead := 0
                  held := [] } with
              peerRx := t.peerRx, peerTx := t.peerTx, peerWrote := t.peerWrote }
      ∧ (t.peer r).usedRead = (s.peer r).usedRead ∧ (t.peer r).usedSeen = (s.peer r).usedSeen
      ∧ (t.peer r).entryId = (s.peer r).entryId ∧ (t.peer r).entryLen = (s.peer r).entryLen
      ∧ t.peer (otherRing r) = s.peer (otherRing r)

/-- R402 with R405, R406 and R407: everything a RING_TRY_TAKE that runs alone does: the error, the two bus errors, the
empty ring, the index out of range, and the take. -/
def Obligations.RingTryTakeOutcome : Prop :=
  ∀ (r : RingId) (s : State), s.ready = true →
    let c := s.ring r
    let run := s.started (.ringTryTake r)
    exec (.ringTryTake r) s = .next (
      if c.inited = false then s.afterError .notInit
      else if s.admits c.availIdxAddr 2 = false then
        { run with status := run.status.faultedWith .busError }
      else if s.availIdx r = c.lastAvail then
        { s with result := 0, status := s.status.ended false .ok, history := s.history ++ [s.headEvent r] }
      else if s.admits (s.nextEntryAddr r) 2 = false then
        { run with
          status := run.status.faultedWith .busError
          verdicts := s.headVerdicts r
          history := s.history ++ [s.headEvent r] }
      else if s.cfg.n ≤ s.nextEntry r then
        { run with
          status := run.status.faultedWith .availIndexRange
          verdicts := s.headVerdicts r
          history := s.history ++ s.takeEvents r }
      else
        State.setRing
          { s with
            result := BitVec.ofNat 32 (65536 + s.nextEntry r)
            status := s.status.ended false .ok
            verdicts := s.takeVerdicts r (s.nextEntry r)
            history := s.history ++ s.takeEvents r }
          r { c with lastAvail := c.lastAvail + 1, held := heldInsert (s.nextEntry r) c.held })

/-- R403 with R405: everything a RING_HAS_INCOMING that runs alone does. -/
def Obligations.RingHasIncomingAnswers : Prop :=
  ∀ (r : RingId) (s : State), s.ready = true →
    let c := s.ring r
    let run := s.started (.ringHasIncoming r)
    exec (.ringHasIncoming r) s = .next (
      if c.inited = false then s.afterError .notInit
      else if s.admits c.availIdxAddr 2 = false then
        { run with status := run.status.faultedWith .busError }
      else
        { s with
          result := if s.availIdx r = c.lastAvail then 0 else 1
          status := s.status.ended false .ok
          verdicts := s.headVerdicts r
          history := s.history ++ [s.headEvent r] })

/-- R404 with R410 and R411: everything a RING_PUBLISH that runs alone does: the two errors in their order, a bus
error at each of the three writes, and the publish. -/
def Obligations.RingPublishWritesUsedEntry : Prop :=
  ∀ (r : RingId) (kick : Bool) (idx : Nat) (s : State), (Instr.ringPublish r kick idx).wf = true → s.ready = true →
    let c := s.ring r
    let e := c.usedAddr.toNat + 4 + 8 * (c.usedHead.toNat % s.cfg.n)
    let len := s.arg0.toNat
    let run := s.started (.ringPublish r kick idx)
    let noted : Verdicts :=
      { s.verdicts with publishNotHeld := s.verdicts.publishNotHeld || !c.held.contains idx }
    exec (.ringPublish r kick idx) s = .next (
      if c.inited = false then s.afterError .notInit
      else if s.cfg.n ≤ idx then s.afterError .badIndex
      else if s.admits e 4 = false then
        { run with status := run.status.faultedWith .busError, verdicts := noted }
      else if s.admits (e + 4) 4 = false then
        { run with
          status := run.status.faultedWith .busError
          verdicts := noted
          mem := s.mem.writeLE e 4 idx
          history := s.history ++ [.wr .block e 4 idx] }
      else if s.admits (c.usedAddr.toNat + 2) 2 = false then
        { run with
          status := run.status.faultedWith .busError
          verdicts := noted
          mem := (s.mem.writeLE e 4 idx).writeLE (e + 4) 4 len
          history := s.history ++ [.wr .block e 4 idx, .wr .block (e + 4) 4 len, .barrier] }
      else
        State.setRing
          { s with
            result := 0
            status := s.status.ended false .ok
            verdicts := noted
            mem := ((s.mem.writeLE e 4 idx).writeLE (e + 4) 4 len).writeLE (c.usedAddr.toNat + 2) 2
              (c.usedHead + 1).toNat
            history := s.history ++
              [.wr .block e 4 idx, .wr .block (e + 4) 4 len, .barrier,
                .wr .block (c.usedAddr.toNat + 2) 2 (c.usedHead + 1).toNat, .barrier,
                .flush c.descAddr c.regionLen] ++ if kick then [.kickOut] else [] }
          r { c with usedHead := c.usedHead + 1, held := heldErase idx c.held })

/-- R410, R224: a RING_PUBLISH that completes leaves the entry and `used.idx` as R410 says, every other byte of memory
as it was, and keeps memory canonical. -/
def Obligations.RingPublishFrame : Prop :=
  ∀ (r : RingId) (kick : Bool) (idx : Nat) (s : State), (Instr.ringPublish r kick idx).wf = true → s.ready = true →
    (s.ring r).inited = true → idx < s.cfg.n → s.publishBacked r → s.mem.wf = true →
    ∃ t, exec (.ringPublish r kick idx) s = .next t
      ∧ t.mem.readLE ((s.ring r).nextUsedAddr s.cfg.n) 4 = idx
      ∧ t.mem.readLE ((s.ring r).nextUsedAddr s.cfg.n + 4) 4 = s.arg0.toNat
      ∧ t.mem.readLE (s.ring r).usedIdxAddr 2 = (t.ring r).usedHead.toNat
      ∧ (∀ a, outsidePublish (s.ring r) s.cfg.n a → t.mem.read a = s.mem.read a)
      ∧ t.mem.wf = true

/-- R402, R403, R404, R510, R520, R620 with R700: a command whose ring pair is not initialised ends with
`ERR_NOT_INIT`, before its other checks (but CH_SEND's silent no-op comes first, R732), with no access. -/
def Obligations.NotInitialisedCommandsFail : Prop :=
  ∀ s : State, s.ready = true →
    (∀ r, (s.ring r).inited = false →
      exec (.ringTryTake r) s = .next (s.afterError .notInit)
      ∧ exec (.ringHasIncoming r) s = .next (s.afterError .notInit)
      ∧ ∀ kick idx, exec (.ringPublish r kick idx) s = .next (s.afterError .notInit))
    ∧ (s.tx.inited = false →
        exec .chCreate s = .next (s.afterError .notInit)
        ∧ ∀ idx slot, s.sendsOn idx slot → exec (.chSend idx) s = .next (s.afterError .notInit))
    ∧ (s.rx.inited = false → exec .poll s = .next (s.afterError .notInit))

/-- R103, R303, R830 (b): writes of `ARG0` and `ARG1` while a command runs reach the registers and not the command:
every command does what it does without them, but for the two registers. -/
def Obligations.OperandsAreLatched : Prop :=
  ∀ (i : Instr) (s : State) (v u : Word) (rest : List Input),
    s.env = .act (.regWrite (s.cfg.blkBase + 4) 4 v) :: .act (.regWrite (s.cfg.blkBase + 8) 4 u) :: rest →
    ({ s with env := rest } : State).ready = true →
    ∃ t, exec i { s with env := rest } = .next t ∧ exec i s = .next { t with arg0 := v, arg1 := u }

/-- R408: the array slots of consecutive positions follow each other around the ring, also across the 16-bit wrap. -/
def Obligations.IndexWrapKeepsSlots : Prop :=
  ∀ (c : Config) (p : Half), c.log2N ≤ 15 →
    slotOf c.n (p + 1) = (slotOf c.n p + 1) % c.n ∧ slotOf c.n p < c.n

/-! ## Channel commands -/

/-- R510, R511, R530, R341: a CH_CREATE with a TX buffer announces the lowest Unused slot and returns it. -/
def Obligations.ChCreateAnnounces : Prop :=
  ∀ (s : State) (i : Nat), s.ready = true → s.tx.inited = true → s.lowestUnused i →
    s.backs s.arg0.toNat (nameBytesRead s.mem s.arg0.toNat 32).length → s.txFits 40 → s.txBacked 40 →
    exec .chCreate s
      = .next ((s.announced i).afterTransmit s.nextAddr s.cfg.nsAddr s.announcementGiven (BitVec.ofNat 32 i))

/-- R510, R530: without a TX buffer, CH_CREATE holds with its slot already Announced. -/
def Obligations.ChCreateHoldsWithoutBuffer : Prop :=
  ∀ (s : State) (i : Nat), s.ready = true → s.tx.inited = true → s.lowestUnused i →
    s.backs s.arg0.toNat (nameBytesRead s.mem s.arg0.toNat 32).length →
    s.admits s.tx.availIdxAddr 2 = true → s.availIdx .tx = s.tx.lastAvail →
    exec .chCreate s
      = .next ((s.announced i).afterHold ⟨encode .chCreate, s.arg0, s.arg1⟩
          ⟨s.nextAddr, s.cfg.nsAddr, BitVec.ofNat 32 i⟩)

/-- R510: with no Unused slot, CH_CREATE ends with `ERR_RESOURCE_EXHAUSTED` and no other effect. -/
def Obligations.ChCreateNeedsFreeSlot : Prop :=
  ∀ s : State, s.ready = true → s.tx.inited = true → (∀ slot, slot ∈ s.slots → slot.state ≠ .unused) →
    exec .chCreate s = .next (s.afterError .resourceExhausted)

/-- R510, R511: all name reads come before any state change: a bus error at the first byte the platform does not back
leaves the table, `NEXT_ADDR` and the stage as they were, with the bytes before it read. -/
def Obligations.ChCreateNameFaultAllocatesNothing : Prop :=
  ∀ (s : State) (i k : Nat), s.ready = true → s.tx.inited = true → s.lowestUnused i →
    k < (nameBytesRead s.mem s.arg0.toNat 32).length → s.backs s.arg0.toNat k →
    s.admits (s.arg0.toNat + k) 1 = false →
    exec .chCreate s = .next { s.started .chCreate with
      status := (s.status.ended false .ok).faultedWith .busError
      history := s.history ++ byteReads s.arg0.toNat (s.mem.readBytes s.arg0.toNat k) }

/-- R520, R530, R340: a CH_SEND with a TX buffer sends at most 496 bytes from `ARG0`, sets `TRUNC` when there were
more, and completes. -/
def Obligations.ChSendSendsPayload : Prop :=
  ∀ (s : State) (idx : Nat) (slot : Slot), s.ready = true → s.tx.inited = true → s.sendsOn idx slot →
    s.backs s.arg0.toNat (min s.arg1.toNat 496) → s.txFits (min s.arg1.toNat 496) →
    s.txBacked (min s.arg1.toNat 496) →
    exec (.chSend idx) s
      = .next ((s.staged s.arg0.toNat s.arg1.toNat).afterTransmit slot.localAddr slot.remote
          (s.mem.readBytes s.arg0.toNat (min s.arg1.toNat 496)) 0)

/-- R530: without a TX buffer, CH_SEND holds with its payload staged. -/
def Obligations.ChSendHoldsWithoutBuffer : Prop :=
  ∀ (s : State) (idx : Nat) (slot : Slot), s.ready = true → s.tx.inited = true → s.sendsOn idx slot →
    s.backs s.arg0.toNat (min s.arg1.toNat 496) →
    s.admits s.tx.availIdxAddr 2 = true → s.availIdx .tx = s.tx.lastAvail →
    exec (.chSend idx) s
      = .next ((s.staged s.arg0.toNat s.arg1.toNat).afterHold ⟨encode (.chSend idx), s.arg0, s.arg1⟩
          ⟨slot.localAddr, slot.remote, 0⟩)

/-- R520, R701 (c): a CH_SEND to a slot beyond the table or Unused completes with no access and no error. -/
def Obligations.ChSendOnInactiveChannelDoesNothing : Prop :=
  ∀ (s : State) (idx : Nat), s.ready = true → (¬∃ slot, s.sendsOn idx slot) →
    exec (.chSend idx) s = .next { s with result := 0, status := s.status.ended false .ok }

/-- R531, R711: a TX buffer shorter than the packet faults before any byte of it is written; the descriptor is taken
and not published. So it is in a CH_SEND, in a CH_CREATE, whose slot is then already Announced, and when a held send goes
on. -/
def Obligations.SmallTxBufferFaults : Prop :=
  ∀ s : State, s.tx.inited = true → s.txDescBacked → s.availIdx .tx ≠ s.tx.lastAvail → s.nextEntry .tx < s.cfg.n →
    let faulted (t : State) : Prop :=
      t.seq ≠ .idle ∧ t.result = s.result ∧ t.mem = s.mem
        ∧ t.tx = { s.tx with
            lastAvail := s.tx.lastAvail + 1
            held := heldInsert (s.nextEntry .tx) s.tx.held }
        ∧ t.rx = s.rx
    (∀ (idx : Nat) (slot : Slot), s.ready = true → s.sendsOn idx slot →
      s.backs s.arg0.toNat (min s.arg1.toNat 496) → s.txBufLen < 16 + min s.arg1.toNat 496 →
      ∃ t, exec (.chSend idx) s = .next t ∧ faulted t ∧ t.slots = s.slots ∧ t.nextAddr = s.nextAddr
        ∧ t.status = (s.status.ended (decide (496 < s.arg1.toNat)) .ok).faultedWith .txBufSmall)
    ∧ (∀ i : Nat, s.ready = true → s.lowestUnused i →
      s.backs s.arg0.toNat (nameBytesRead s.mem s.arg0.toNat 32).length → s.txBufLen < 56 →
      ∃ t, exec .chCreate s = .next t ∧ faulted t ∧ t.slots = (s.announced i).slots ∧ t.nextAddr = s.nextAddr + 1
        ∧ t.status = (s.status.ended false .ok).faultedWith .txBufSmall)
    ∧ ∀ (cmd : Latched) (job : TxJob), s.cfg.valid = true → s.quiet = true → s.status.faulted = false →
      s.seq = .run cmd (.waitBuf job) → s.txBufLen < 16 + s.stage.length →
      ∃ t, step s = .next t ∧ faulted t ∧ t.slots = s.slots ∧ t.nextAddr = s.nextAddr
        ∧ t.status = s.status.faultedWith .txBufSmall

/-- R530: when the condition of a hold lifts, the retry takes the buffer, sends the staged packet and ends the command.
That the retry, left alone, is one step of the machine is the model's (log 1). -/
def Obligations.HeldSendGoesOn : Prop :=
  ∀ (s : State) (cmd : Latched) (job : TxJob), s.cfg.valid = true → s.quiet = true → s.status.faulted = false →
    s.seq = .run cmd (.waitBuf job) → s.stage.length ≤ 496 → s.txFits s.stage.length → s.txBacked s.stage.length →
    step s = .next (s.afterTransmit job.src job.dst s.stage job.result)

/-- R530: a hold has no step while `avail.idx` equals `LAST_AVAIL`. That the machine then repeats its state is the
model's (log 1). -/
def Obligations.HoldHasNoStep : Prop :=
  ∀ (s : State) (cmd : Latched) (job : TxJob), s.cfg.valid = true → s.seq = .run cmd (.waitBuf job) →
    s.availIdx .tx = s.tx.lastAvail →
    (s.env = [] → step s = .next s)
    ∧ ∀ rest, s.env = .block :: rest → step s = .next { s with env := rest }

/-! ## POLL -/

/-- R620, R621, R831: a POLL with no RX kick counted reads no memory and reports the TX kicks; one with an RX kick and
an empty ring makes one read of `avail.idx` and reports work; each clears both counters. -/
def Obligations.PollWithoutPackets : Prop :=
  ∀ s : State, s.ready = true → s.rx.inited = true →
    (s.rxKickCnt = 0 →
      exec .poll s = .next { s with
        result := if s.txKickCnt = 0 then 0 else 1
        status := s.status.ended false .ok
        txKickCnt := 0
        rxKickCnt := 0
        history := s.history ++ s.maintEvents })
    ∧ (s.rxKickCnt ≠ 0 → s.admits s.rx.availIdxAddr 2 = true → s.availIdx .rx = s.rx.lastAvail →
      exec .poll s = .next { s with
        result := 1
        status := s.status.ended false .ok
        txKickCnt := 0
        rxKickCnt := 0
        history := s.history ++ s.maintEvents ++ [s.headEvent .rx] })

/-- R620, R630, R540, R541, R542: a POLL with one packet for a channel delivers it and returns its descriptor. -/
def Obligations.PollDeliversPacket : Prop :=
  ∀ (s : State) (i : Nat) (slot : Slot), s.ready = true → s.rx.inited = true → s.rxKickCnt ≠ 0 → s.onePacket →
    s.rx.laidOut s.cfg.n → s.mem.wf = true → s.rxFits (s.nextEntry .rx) → s.channelFor (s.rxDst (s.nextEntry .rx)) i slot →
    exec .poll s = .next (s.afterOnePacket
      (s.slots.set i { slot with state := .up, remote := s.rxSrc (s.nextEntry .rx) }) s.dropCnt
      (s.rxHeaderReads (s.nextEntry .rx)
        ++ byteReads (s.rxBufAddr (s.nextEntry .rx) + 16) (s.rxPayload (s.nextEntry .rx))
        ++ [.deliver i (s.rxSrc (s.nextEntry .rx)) (s.rxDst (s.nextEntry .rx)) (s.rxPayload (s.nextEntry .rx))]))

/-- R540, R541, R701 (e): a packet whose buffer is shorter than a header is dropped unread; one that is too long, or
for no channel, is dropped after its header; its descriptor is returned all the same. -/
def Obligations.PollDropsPacket : Prop :=
  ∀ s : State, s.ready = true → s.rx.inited = true → s.rxKickCnt ≠ 0 → s.onePacket → s.rx.laidOut s.cfg.n →
    s.mem.wf = true →
    (s.rxBufLen (s.nextEntry .rx) < 16 → exec .poll s = .next (s.afterOnePacket s.slots (s.dropCnt + 1) []))
    ∧ (16 ≤ s.rxBufLen (s.nextEntry .rx) →
        ¬s.rxFits (s.nextEntry .rx) ∨ s.noChannelFor (s.rxDst (s.nextEntry .rx)) →
        exec .poll s
          = .next (s.afterOnePacket s.slots (s.dropCnt + 1) (s.rxHeaderReads (s.nextEntry .rx))))

/-- R630: a POLL with an RX kick, left alone, drains the whole RX ring, however much it holds: it ends with the ring
empty, one used entry for each descriptor taken, both counters 0 and `RESULT` 1. The ring pair is laid out, the
platform backs memory, the entries are in range and the buffers lie within memory. Memory outside the used entries and
`used.idx` of the RX ring pair is as before. That one step of the machine drains it is the model's (log 10). -/
def Obligations.PollDrainsRing : Prop :=
  ∀ s : State, s.ready = true → s.cfg.valid = true → s.rx.inited = true → s.rxKickCnt ≠ 0 → s.rx.laidOut s.cfg.n →
    s.mem.wf = true → s.backsAll →
    (∀ j, j < s.cfg.n → s.mem.readLE (s.rx.availEntryAddr j) 2 < s.cfg.n) →
    (∀ d, d < s.cfg.n → s.rxBufAddr d + s.rxBufLen d ≤ 2 ^ 32) →
    ∃ t, exec .poll s = .next t
      ∧ t.availIdx .rx = s.availIdx .rx ∧ t.rx.lastAvail = s.availIdx .rx
      ∧ t.rx.usedHead = s.rx.usedHead + (s.availIdx .rx - s.rx.lastAvail)
      ∧ t.txKickCnt = 0 ∧ t.rxKickCnt = 0 ∧ t.result = 1 ∧ t.seq = .idle
      ∧ t.status = s.status.ended false .ok ∧ t.tx = s.tx ∧ t.nextAddr = s.nextAddr
      ∧ ∀ a, outsideUsed s.rx s.cfg.n a → t.mem.read a = s.mem.read a

/-- R224, R410, R530: memory outside the TX buffer's packet, the used entry and `used.idx` is unchanged by a CH_SEND or
a CH_CREATE that completes, and memory outside the RX used entry and `used.idx` by a POLL of one packet. -/
def Obligations.TransportFrame : Prop :=
  ∀ (s t : State), s.ready = true → s.mem.wf = true →
    (∀ idx slot, s.tx.inited = true → s.sendsOn idx slot → s.backs s.arg0.toNat (min s.arg1.toNat 496) →
      s.txFits (min s.arg1.toNat 496) → s.txBacked (min s.arg1.toNat 496) → exec (.chSend idx) s = .next t →
      ∀ a, (a < s.txBufAddr ∨ s.txBufAddr + 16 + min s.arg1.toNat 496 ≤ a) → outsidePublish s.tx s.cfg.n a →
        t.mem.read a = s.mem.read a)
    ∧ (∀ i, s.tx.inited = true → s.lowestUnused i →
      s.backs s.arg0.toNat (nameBytesRead s.mem s.arg0.toNat 32).length → s.txFits 40 → s.txBacked 40 →
      exec .chCreate s = .next t →
      ∀ a, (a < s.txBufAddr ∨ s.txBufAddr + 56 ≤ a) → outsidePublish s.tx s.cfg.n a →
        t.mem.read a = s.mem.read a)
    ∧ (s.rx.inited = true → s.rxKickCnt ≠ 0 → s.onePacket → s.rx.laidOut s.cfg.n → exec .poll s = .next t →
      ∀ a, outsidePublish s.rx s.cfg.n a → t.mem.read a = s.mem.read a)

/-! ## Kick lines -/

/-- R600: a pulse adds one to its counter, modulo 2^32, in any state, and does nothing else. -/
def Obligations.PulseCounted : Prop :=
  ∀ (s : State) (rest : List Input), s.cfg.valid = true →
    (s.env = .act .pulseTx :: rest → step s = .next { s with env := rest, txKickCnt := s.txKickCnt + 1 })
    ∧ (s.env = .act .pulseRx :: rest → step s = .next { s with env := rest, rxKickCnt := s.rxKickCnt + 1 })

/-- R120, R600, R621, R632: under every schedule without a reset, no command loses a pulse. A command other than POLL,
and a POLL that is dropped or ends with `ERR_NOT_INIT`, leaves each counter grown by the pulses that came while it ran. A
POLL that runs clears of each line what was counted before its SWAP, and every pulse that comes after the SWAP is counted:
the SWAP of `TX_KICK_CNT` is its first step, that of `RX_KICK_CNT` its second (log 1). -/
def Obligations.NoPulseIsLost : Prop :=
  ∀ (i : Instr) (s t : State), hasReset s.env = false → exec i s = .next t →
    (i ≠ .poll ∨ s.accepting = false ∨ s.rx.inited = false → t.kicksToCome = s.kicksToCome)
    ∧ (i = .poll → s.accepting = true → s.rx.inited = true →
        t.kicksToCome = (BitVec.ofNat 32 (txPulses (afterMark s.env)),
          BitVec.ofNat 32 (rxPulses (afterMark (afterMark s.env)))))

/-! ## Register file -/

/-- R301, R224: an aligned 32-bit read inside the window returns the register's value and changes nothing, while a
command runs or the block is faulted as well. That the value is kept in a list is the model's (log 9). -/
def Obligations.RegisterReadReturnsValue : Prop :=
  ∀ (s : State) (off : Nat) (rest : List Input), s.cfg.valid = true → off % 4 = 0 → off < 1024 →
    s.env = .act (.regRead (s.cfg.blkBase + off) 4) :: rest →
    step s = .next { s with env := rest, reads := s.reads ++ [⟨off, s.regValue off⟩] }

/-- R301: a register access of another width or alignment, or outside the window, is refused; alignment is that of the
offset from `BLK_BASE` (log 3). -/
def Obligations.OddRegisterAccessRefused : Prop :=
  ∀ (s : State) (a n : Nat) (rest : List Input), s.cfg.valid = true →
    n ≠ 4 ∨ a < s.cfg.blkBase ∨ s.cfg.blkBase + 1024 ≤ a ∨ (a - s.cfg.blkBase) % 4 ≠ 0 →
    (s.env = .act (.regRead a n) :: rest → step s = .refused .registerAccess)
    ∧ ∀ v, s.env = .act (.regWrite a n v) :: rest → step s = .refused .registerAccess

/-- R301, R303: a write at 0x004 or 0x008 sets that operand register, at any time; a write at any other offset but
`CMD` is ignored. -/
def Obligations.RegisterWrites : Prop :=
  ∀ (s : State) (off : Nat) (v : Word) (rest : List Input), s.cfg.valid = true → off % 4 = 0 → off < 1024 →
    s.env = .act (.regWrite (s.cfg.blkBase + off) 4 v) :: rest → off ≠ 0 →
    step s = .next (
      if off = 4 then { s with env := rest, arg0 := v }
      else if off = 8 then { s with env := rest, arg1 := v }
      else { s with env := rest })

/-- R305: the bits of `STATUS`, with the codes of R330 and R331. -/
def Obligations.StatusWordFields : Prop :=
  ∀ s : State,
    let w := (s.regValue 0x010).toNat
    w % 2 = (if s.seq ≠ .idle ∧ s.status.faulted = false then 1 else 0)
      ∧ w / 2 % 2 = s.status.trunc.toNat
      ∧ w / 2 ^ 2 % 2 = s.status.cmdOverrun.toNat
      ∧ w / 2 ^ 3 % 2 ^ 5 = 0
      ∧ w / 2 ^ 8 % 2 ^ 8 =
          (match s.status.err with
            | .ok => 0 | .illegalOp => 1 | .reserved => 2 | .notInit => 3
            | .badIndex => 4 | .badAlign => 5 | .range => 6 | .resourceExhausted => 7)
      ∧ w / 2 ^ 16 % 2 ^ 8 =
          (match s.status.fcode with
            | .none => 0 | .availIndexRange => 1 | .txBufSmall => 2 | .busError => 3)
      ∧ w / 2 ^ 24 % 2 ^ 7 = 0
      ∧ w / 2 ^ 31 = s.status.faulted.toNat

/-- R310: the bits of `PARAMS`. -/
def Obligations.ParamsWordFields : Prop :=
  ∀ s : State, s.cfg.valid = true →
    let w := (s.regValue 0x014).toNat
    w % 2 ^ 4 = s.cfg.log2N ∧ w / 2 ^ 4 % 2 ^ 4 = 0 ∧ w / 2 ^ 8 % 2 ^ 5 = s.cfg.maxChannels
      ∧ w / 2 ^ 13 % 2 ^ 3 = 0 ∧ w / 2 ^ 16 % 2 = s.cfg.rxReturnKick.toNat ∧ w / 2 ^ 17 = 0

/-- R306, R309, R311: the read-only registers of the ring contexts and of the channel slots; a slot the table does not
have reads 0. -/
def Obligations.ContextRegisters : Prop :=
  ∀ s : State,
    (∀ r, let b := if r = .rx then 0x040 else 0x060
      s.regValue b = (if (s.ring r).inited then 1 else 0) ∧ s.regValue (b + 0x04) = (s.ring r).descAddr
        ∧ s.regValue (b + 0x08) = (s.ring r).availAddr ∧ s.regValue (b + 0x0C) = (s.ring r).usedAddr
        ∧ s.regValue (b + 0x10) = (s.ring r).regionLen
        ∧ (s.regValue (b + 0x14)).toNat = (s.ring r).lastAvail.toNat
        ∧ (s.regValue (b + 0x18)).toNat = (s.ring r).usedHead.toNat ∧ s.regValue (b + 0x1C) = 0)
    ∧ ∀ i, i < 16 →
      match s.slots[i]? with
      | none => (∀ k, k < 4 → s.regValue (0x100 + 0x10 * i + 4 * k) = 0)
          ∧ ∀ k, k < 8 → s.regValue (0x200 + 0x20 * i + 4 * k) = 0
      | some slot =>
        (s.regValue (0x100 + 0x10 * i)).toNat
            = (match slot.state with | .unused => 0 | .announced => 1 | .up => 2)
          ∧ s.regValue (0x104 + 0x10 * i) = slot.localAddr ∧ s.regValue (0x108 + 0x10 * i) = slot.remote
          ∧ s.regValue (0x10C + 0x10 * i) = 0
          ∧ (slot.name.length = 32 → ∀ k, k < 8 →
              s.regValue (0x200 + 0x20 * i + 4 * k)
                = slot.name.getD (4 * k + 3) 0 ++ slot.name.getD (4 * k + 2) 0 ++ slot.name.getD (4 * k + 1) 0
                    ++ slot.name.getD (4 * k) 0)

/-- R300, R302, R303, R307, R308: the registers below 0x040 and the reserved offsets: `CMD` and these read 0. -/
def Obligations.RegisterMap : Prop :=
  ∀ s : State,
    s.regValue 0x004 = s.arg0 ∧ s.regValue 0x008 = s.arg1 ∧ s.regValue 0x00C = s.result
      ∧ s.regValue 0x018 = s.txKickCnt ∧ s.regValue 0x01C = s.rxKickCnt ∧ s.regValue 0x020 = s.dropCnt
      ∧ s.regValue 0x024 = s.nextAddr
      ∧ ∀ off, off = 0 ∨ (0x028 ≤ off ∧ off < 0x040) ∨ (0x080 ≤ off ∧ off < 0x100) → s.regValue off = 0

/-! ## The peer -/

/-- R225, R230: a peer write to memory that no ring pair claims is performed, whether the ring pairs are in use or not:
the bytes written, one event, nothing else but the model's ghost set of the bytes the peer has written (log 5). A ring
pair in use claims its region and the buffers of the descriptors that are not the peer's. -/
def Obligations.PeerWriteHappens : Prop :=
  ∀ (s : State) (a : Nat) (w : Width) (v : Word) (rest : List Input), s.cfg.valid = true →
    s.env = .act (.peerWrite a w v) :: rest → a % w.bytes = 0 → s.admits a w.bytes = true →
    s.unclaimed .rx a w.bytes → s.unclaimed .tx a w.bytes →
    ∃ t, step s = .next t ∧ s.wrote t a w v rest ∧ t.peerRx = s.peerRx ∧ t.peerTx = s.peerTx

/-- R231, R236, R721, by log 4 and log 5. On a ring pair in use the peer offers a descriptor of its own by its three
steps; it has no move that raises `avail.idx` past an entry that it has not written since that was last offered, or whose
descriptor it has not written, and where the schedule asks for one, nothing happens. On any ring pair, also after a reset of
the block, it reclaims a descriptor once it has read a `used.idx` that differs from its index and the whole entry there, and
not before. -/
def Obligations.PeerOffersAndReclaims : Prop :=
  ∀ (s : State) (r : RingId) (rest : List Input), s.cfg.valid = true →
    (s.env = .act (.peerReclaim r) :: rest → (s.peer r).restarting = false →
      (∀ (u : Half) (d : Nat), (s.peer r).usedSeen = some u → u ≠ (s.peer r).usedRead → (s.peer r).entryId = some d →
        (s.peer r).entryLen = true →
        ∃ t, step s = .next t ∧ (t.peer r).usedRead = (s.peer r).usedRead + 1
          ∧ (t.peer r).lent = heldErase d (s.peer r).lent)
      ∧ ((s.peer r).usedSeen = none ∨ (s.peer r).usedSeen = some (s.peer r).usedRead ∨ (s.peer r).entryId = none
          ∨ (s.peer r).entryLen = false → step s = .next { s with env := rest }))
    ∧ ((s.ring r).inited = true → (s.ring r).laidOut s.cfg.n →
      let c := s.ring r
      let free (a n : Nat) : Prop := s.admits a n = true ∧ s.clearOfBuffers r a n ∧ s.unclaimed (otherRing r) a n
      (∀ (d off : Nat) (v : Word), d < s.cfg.n → d ∉ s.notPeers r → off = 0 ∨ off = 8 →
        free (c.descEntryAddr d + off) 4 → s.env = .act (.peerWrite (c.descEntryAddr d + off) .b4 v) :: rest →
        ∃ t, step s = .next t ∧ s.wrote t (c.descEntryAddr d + off) .b4 v rest)
      ∧ (∀ (j : Nat) (v : Word), j < s.cfg.n → j ∉ s.offeredSlots r → free (c.availEntryAddr j) 2 →
        s.env = .act (.peerWrite (c.availEntryAddr j) .b2 v) :: rest →
        ∃ t, step s = .next t ∧ s.wrote t (c.availEntryAddr j) .b2 v rest)
      ∧ ∀ v : Word, (s.peer r).restarting = false → free c.availIdxAddr 2 →
        s.env = .act (.peerWrite c.availIdxAddr .b2 v) :: rest →
        let a := s.availIdx r
        let k := (v.setWidth 16 - a).toNat
        ((∀ i, i < k → s.entryReady r (slotOf s.cfg.n (a + BitVec.ofNat 16 i)) = true) →
          ∃ t, step s = .next t ∧ s.wrote t c.availIdxAddr .b2 v rest
            ∧ ∀ d, d ∈ (t.peer r).lent ↔
                d ∈ (s.peer r).lent ∨ ∃ i, i < k ∧ s.entryNow r (slotOf s.cfg.n (a + BitVec.ofNat 16 i)) = d)
        ∧ ((∃ i, i < k ∧ s.entryReady r (slotOf s.cfg.n (a + BitVec.ofNat 16 i)) = false) →
          step s = .next { s with env := rest }))

/-- R230, R721, by log 4: the peer has no move that writes the used ring of a ring pair in use. Where the schedule asks for
one, nothing happens. -/
def Obligations.PeerCannotWriteUsedRing : Prop :=
  ∀ (s : State) (r : RingId) (a : Nat) (w : Width) (v : Word) (rest : List Input),
    s.env = .act (.peerWrite a w v) :: rest → (s.ring r).inited = true → (s.ring r).laidOut s.cfg.n →
    a < (s.ring r).usedAddr.toNat + 4 + 8 * s.cfg.n → (s.ring r).usedAddr.toNat < a + w.bytes →
    (∀ t, step s = .next t → t = { s with env := rest })
    ∧ (s.cfg.valid = true → a = (s.ring r).usedIdxAddr → w = .b2 → s.admits a 2 = true → s.unclaimed (otherRing r) a 2 →
        step s = .next { s with env := rest })

/-- R223: a 1-byte peer access to a ring field of a ring pair in use is refused. -/
def Obligations.PeerByteAccessToRingRefused : Prop :=
  ∀ (s : State) (r : RingId) (a : Nat) (v : Word) (rest : List Input), s.cfg.valid = true →
    (s.ring r).inited = true → (s.ring r).laidOut s.cfg.n → s.admits a 1 = true →
    ((s.ring r).descAddr.toNat ≤ a ∧ a < (s.ring r).availAddr.toNat + 6 + 2 * s.cfg.n)
      ∨ ((s.ring r).usedAddr.toNat ≤ a ∧ a < (s.ring r).usedAddr.toNat + 4 + 8 * s.cfg.n) →
    (s.env = .act (.peerRead a .b1) :: rest → step s = .refused .mixedWidth)
    ∧ (s.env = .act (.peerWrite a .b1 v) :: rest → step s = .refused .mixedWidth)

/-- R235, R413, by log 4: no write of the peer changes, on a ring pair in use, a byte of the buffer of a descriptor that
is offered, held, or returned and not reclaimed, nor a byte of that descriptor, nor an avail entry offered and not yet
taken. -/
def Obligations.PeerLeavesHeldBuffersAlone : Prop :=
  ∀ (s t : State) (r : RingId) (d a : Nat) (w : Width) (v : Word) (rest : List Input),
    s.env = .act (.peerWrite a w v) :: rest → step s = .next t → (s.ring r).inited = true → s.mem.wf = true →
    (d ∈ (s.peer r).lent ∨ d ∈ (s.offeredSlots r).map (s.entryNow r) ∨ d ∈ (s.ring r).held → d < s.cfg.n →
      (∀ b, s.mem.readLE ((s.ring r).descEntryAddr d) 4 ≤ b →
        b < s.mem.readLE ((s.ring r).descEntryAddr d) 4 + s.mem.readLE ((s.ring r).descEntryAddr d + 8) 4 →
        t.mem.read b = s.mem.read b)
      ∧ ((s.ring r).laidOut s.cfg.n → ∀ b, (s.ring r).descEntryAddr d ≤ b → b < (s.ring r).descEntryAddr d + 16 →
        t.mem.read b = s.mem.read b))
    ∧ ((s.ring r).laidOut s.cfg.n → ∀ j, j ∈ s.offeredSlots r →
      t.mem.readLE ((s.ring r).availEntryAddr j) 2 = s.mem.readLE ((s.ring r).availEntryAddr j) 2)

/-- R750: what the peer does to memory changes no register of the block and no block state; its reclaims and restarts
(log 5) do not either. -/
def Obligations.PeerCannotTouchBlock : Prop :=
  ∀ (s t : State) (m : Move) (rest : List Input), s.env = .act m :: rest →
    (∃ a w v, m = .peerWrite a w v) ∨ (∃ a w, m = .peerRead a w) ∨ (∃ r, m = .peerReclaim r)
      ∨ (∃ r, m = .peerRestart r) →
    step s = .next t →
    t = { s with
      mem := t.mem, history := t.history, peerRx := t.peerRx, peerTx := t.peerTx, peerWrote := t.peerWrote, env := rest }

/-! ## Invariants of every step -/

/-- R190, R133: the reset state of every legal configuration meets the invariants below. -/
def Obligations.ResetStateMeetsInvariants : Prop :=
  ∀ c : Config, c.valid = true →
    let s := State.resetWith c
    s.channelTable ∧ s.ringsLaidOut ∧ s.phaseOk ∧ s.memoryOk ∧ s.sizesOk ∧ s.sequencerRests

/-- R133: the four invariants of the channel table hold at reset and after every step, under every schedule, and the
local addresses of the slots in use are distinct. `NEXT_ADDR` counts modulo 2^32, the model's choice (log 12). -/
def Obligations.ChannelTableKept : Prop :=
  (∀ c : Config, c.valid = true → (State.resetWith c).channelTable)
  ∧ (∀ s t : State, s.channelTable → step s = .next t → t.channelTable)
  ∧ ∀ s : State, s.cfg.valid = true → s.channelTable →
      ∀ (i j : Nat) (a b : Slot), s.slots[i]? = some a → s.slots[j]? = some b → a.state ≠ .unused → b.state ≠ .unused →
        a.localAddr = b.localAddr → i = j

/-- R210, R221, R401: every ring pair in use stays laid out as RING_INIT lays it out, within 2^32, under every
schedule. -/
def Obligations.RingLayoutKept : Prop :=
  ∀ s t : State, s.ringsLaidOut → s.phaseOk → step s = .next t → t.ringsLaidOut ∧ t.phaseOk

/-- R200, R12: memory keeps its canonical form and no byte outside the 2^32 addresses is ever stored. -/
def Obligations.MemoryKept : Prop :=
  ∀ s t : State, s.memoryOk → step s = .next t → t.memoryOk

/-- R130, R140: the stage never holds more than 496 bytes, nor a name other than 32. -/
def Obligations.SizesKept : Prop :=
  ∀ s t : State, s.sizesOk → step s = .next t → t.sizesOk

/-- R102, R104, R710: after every step the sequencer is idle, holds, drains, or is frozen by a fault; `FCODE` names a
fault exactly while the block is faulted. That a drain can rest between two steps is the model's (log 10). -/
def Obligations.SequencerRestsKept : Prop :=
  ∀ s t : State, s.sequencerRests → step s = .next t → t.sequencerRests

/-- R131: without a reset, under every schedule, no slot goes back in the lifecycle, and a slot in use keeps its local
address and its name. -/
def Obligations.ChannelLifecycle : Prop :=
  ∀ s t : State, hasReset s.env = false → step s = .next t →
    ∀ (i : Nat) (a : Slot), s.slots[i]? = some a →
      ∃ b, t.slots[i]? = some b ∧ a.state.rank ≤ b.state.rank
        ∧ (a.state ≠ .unused → b.localAddr = a.localAddr ∧ b.name = a.name)

/-- R710: a faulted block is frozen until reset: no step but a reset changes `SEQ`, `RESULT`, the ring contexts, the
channels, the stage or any field of `STATUS` but `CMD_OVERRUN`, the block makes no access and emits no event. -/
def Obligations.FaultFreezesBlock : Prop :=
  ∀ (s t : State), s.status.faulted = true → s.env.head? ≠ some (.act .reset) → step s = .next t →
    t.seq = s.seq ∧ t.result = s.result ∧ t.rx = s.rx ∧ t.tx = s.tx ∧ t.dropCnt = s.dropCnt ∧ t.slots = s.slots
      ∧ t.nextAddr = s.nextAddr ∧ t.stage = s.stage ∧ t.verdicts = s.verdicts ∧ t.cfg = s.cfg
      ∧ t.status = { s.status with cmdOverrun := t.status.cmdOverrun }
      ∧ (t.history = s.history ∨ ∃ e, e.byBlock = false ∧ t.history = s.history ++ [e])

/-- R802: no step, a reset included, changes a parameter; `PARAMS` reads the same before and after. -/
def Obligations.ConfigNeverChanges : Prop :=
  ∀ s t : State, step s = .next t → t.cfg = s.cfg ∧ t.regValue 0x014 = s.regValue 0x014

/-- R150, R170, R720: without a reset in its schedule (log 8), a step appends to the history and clears no verdict. -/
def Obligations.RecordOnlyGrows : Prop :=
  ∀ s t : State, hasReset s.env = false → step s = .next t →
    (∃ more, t.history = s.history ++ more)
      ∧ (s.verdicts.peerOverrun = true → t.verdicts.peerOverrun = true)
      ∧ (s.verdicts.doubleOffer = true → t.verdicts.doubleOffer = true)
      ∧ (s.verdicts.publishNotHeld = true → t.verdicts.publishNotHeld = true)

/-- R544, R9: a packet for `NS_ADDR` finds no channel, so that PollDropsPacket says what becomes of it. -/
def Obligations.NsAddrPacketsHaveNoChannel : Prop :=
  ∀ s : State, s.cfg.valid = true → s.channelTable → s.noChannelFor s.cfg.nsAddr
end

