-- ==== Sys2Proof/Laws/Encoding.lean ====
section
/-! SUPPORT. The fields of a command word built from its fields (spec/30_encoding.md R320): one lemma per field, and
the word as a number. -/

namespace Sys2Proof

theorem toNat_append_add {n m : Nat} (x : BitVec n) (y : BitVec m) :
    (x ++ y).toNat = x.toNat * 2 ^ m + y.toNat := by
  rw [BitVec.toNat_append, ← Nat.shiftLeft_add_eq_or_of_lt y.isLt, Nat.shiftLeft_eq]

/-- The command word as a number. -/
theorem commandWord_toNat (op : Byte) (r : BitVec 1) (k : Bool) (idx : Nat) :
    (commandWord op r k idx).toNat = idx % 65536 * 65536 + k.toNat * 512 + r.toNat * 256 + op.toNat := by
  unfold commandWord
  simp only [toNat_append_add, BitVec.toNat_ofNat, BitVec.toNat_ofBool]
  simp
  omega

theorem opField_toNat (w : Word) : (opField w).toNat = w.toNat % 256 := by simp [opField]

theorem idxField_eq (w : Word) : idxField w = w.toNat / 65536 := by
  have := w.isLt
  simp [idxField, Nat.shiftRight_eq_div_pow]
  omega

theorem kickField_eq (w : Word) : kickField w = decide (w.toNat / 512 % 2 = 1) := by
  simp [kickField, BitVec.getLsbD, Nat.testBit_eq_decide_div_mod_eq]

theorem ringField_eq (w : Word) : ringField w = if w.toNat / 256 % 2 = 1 then .tx else .rx := by
  simp [ringField, BitVec.getLsbD, Nat.testBit_eq_decide_div_mod_eq]

@[simp] theorem opField_commandWord (op : Byte) (r : BitVec 1) (k : Bool) (idx : Nat) :
    opField (commandWord op r k idx) = op := by
  apply BitVec.eq_of_toNat_eq
  rw [opField_toNat, commandWord_toNat]
  have := op.isLt
  omega

@[simp] theorem kickField_commandWord (op : Byte) (r : BitVec 1) (k : Bool) (idx : Nat) :
    kickField (commandWord op r k idx) = k := by
  rw [kickField_eq, commandWord_toNat]
  have h1 := op.isLt
  have h2 := r.isLt
  have h3 : (idx % 65536 * 65536 + k.toNat * 512 + r.toNat * 256 + op.toNat) / 512 % 2 = k.toNat := by
    cases k <;> simp only [Bool.toNat_true, Bool.toNat_false] <;> omega
  rw [h3]
  cases k <;> rfl

@[simp] theorem ringField_commandWord (op : Byte) (r : RingId) (k : Bool) (idx : Nat) :
    ringField (commandWord op (ringBit r) k idx) = r := by
  rw [ringField_eq, commandWord_toNat]
  have h1 := op.isLt
  have h3 : (idx % 65536 * 65536 + k.toNat * 512 + (ringBit r).toNat * 256 + op.toNat) / 256 % 2
      = (ringBit r).toNat := by
    have h2 := (ringBit r).isLt
    cases k <;> simp only [Bool.toNat_true, Bool.toNat_false] <;> omega
  rw [h3]
  cases r <;> rfl

theorem idxField_commandWord (op : Byte) (r : BitVec 1) (k : Bool) {idx : Nat} (h : idx ≤ 0xFFFF) :
    idxField (commandWord op r k idx) = idx := by
  rw [idxField_eq, commandWord_toNat]
  have h1 := op.isLt
  have h2 := r.isLt
  cases k <;> simp only [Bool.toNat_true, Bool.toNat_false] <;> omega

/-- `RSV`, bits 15:10, is 0 in every command word (R320). -/
theorem rsvField_commandWord (op : Byte) (r : BitVec 1) (k : Bool) (idx : Nat) :
    (commandWord op r k idx).extractLsb' 10 6 = 0 := by
  apply BitVec.eq_of_toNat_eq
  simp only [BitVec.extractLsb'_toNat, Nat.shiftRight_eq_div_pow, commandWord_toNat]
  have h1 := op.isLt
  have h2 := r.isLt
  cases k <;> simp only [Bool.toNat_true, Bool.toNat_false] <;> simp <;> omega

end Sys2Proof
end

