-- ==== Sys2Proof/Laws/Memory.lean ====
section
/-! SUPPORT. The laws of little-endian bytes and of the byte store (spec/20_memory.md R220, R225): a read after a write
gives the byte written and leaves every other byte alone, and every memory operation keeps the canonical form. -/

namespace Sys2Proof.Machine

/-! Little-endian bytes. -/

@[simp] theorem leBytes_length (n v : Nat) : (leBytes n v).length = n := by
  induction n generalizing v with
  | zero => rfl
  | succ n ih => simp [leBytes, ih]

theorem leValue_lt (bs : List Byte) : leValue bs < 256 ^ bs.length := by
  induction bs with
  | nil => simp [leValue]
  | cons b bs ih =>
    have hb : b.toNat < 256 := b.isLt
    simp only [leValue, List.length_cons, Nat.pow_succ]
    omega

theorem leValue_leBytes {n v : Nat} (h : v < 256 ^ n) : leValue (leBytes n v) = v := by
  induction n generalizing v with
  | zero => simp at h; simp [leBytes, leValue, h]
  | succ n ih =>
    have hv : v / 256 < 256 ^ n := Nat.div_lt_of_lt_mul (by rw [Nat.pow_succ] at h; omega)
    simp only [leBytes, leValue, ih hv, BitVec.toNat_ofNat]
    omega

/-! The canonical form. -/

theorem Memory.wfFrom_mono {m : Memory} {lo lo' : Nat} (h : m.wfFrom lo' = true) (hl : lo ≤ lo') :
    m.wfFrom lo = true := by
  cases m with
  | nil => rfl
  | cons c m =>
    obtain ⟨k, b⟩ := c
    simp only [Memory.wfFrom, Bool.and_eq_true, decide_eq_true_eq] at h ⊢
    exact ⟨⟨by omega, h.1.2⟩, h.2⟩

theorem Memory.wf_of_wfFrom {m : Memory} {lo : Nat} (h : m.wfFrom lo = true) : m.wf = true :=
  Memory.wfFrom_mono h (Nat.zero_le lo)

/-- An address below the first listed one reads as unlisted. -/
theorem Memory.read_of_lt {m : Memory} {lo a : Nat} (h : m.wfFrom lo = true) (ha : a < lo) :
    m.read a = Memory.unlisted := by
  induction m generalizing lo with
  | nil => rfl
  | cons c m ih =>
    obtain ⟨k, b⟩ := c
    simp only [Memory.wfFrom, Bool.and_eq_true, decide_eq_true_eq] at h
    have hk : k ≠ a := by omega
    simp only [Memory.read, if_neg hk]
    exact ih h.2 (by omega)

theorem Memory.wfFrom_put {m : Memory} {lo a : Nat} {b : Byte} (hm : m.wfFrom (a + 1) = true) (ha : lo ≤ a) :
    (Memory.put a b m).wfFrom lo = true := by
  unfold Memory.put
  split
  · exact Memory.wfFrom_mono hm (by omega)
  · next hb => simp [Memory.wfFrom, ha, hb, hm]

theorem Memory.read_put {m : Memory} {a c : Nat} {b : Byte} (hm : m.wfFrom (a + 1) = true) :
    (Memory.put a b m).read c = if c = a then b else m.read c := by
  unfold Memory.put
  split
  · next hb =>
    split
    · next hc => subst hc; rw [Memory.read_of_lt hm (by omega), hb]
    · rfl
  · simp only [Memory.read, eq_comm]

theorem Memory.wfFrom_write {m : Memory} {lo a : Nat} (b : Byte) (hm : m.wfFrom lo = true) (ha : lo ≤ a) :
    (m.write a b).wfFrom lo = true := by
  induction m generalizing lo with
  | nil => exact Memory.wfFrom_put rfl ha
  | cons c m ih =>
    obtain ⟨k, d⟩ := c
    simp only [Memory.wfFrom, Bool.and_eq_true, decide_eq_true_eq] at hm
    simp only [Memory.write]
    split
    · refine Memory.wfFrom_put ?_ ha
      simp [Memory.wfFrom, hm.1.2, hm.2]
      omega
    · split
      · next h => subst h; exact Memory.wfFrom_put hm.2 ha
      · simp only [Memory.wfFrom, Bool.and_eq_true, decide_eq_true_eq]
        exact ⟨hm.1, ih hm.2 (by omega)⟩

theorem Memory.read_write_from {m : Memory} {lo a : Nat} (b : Byte) (c : Nat) (hm : m.wfFrom lo = true) :
    (m.write a b).read c = if c = a then b else m.read c := by
  induction m generalizing lo with
  | nil => exact Memory.read_put rfl
  | cons cell m ih =>
    obtain ⟨k, d⟩ := cell
    simp only [Memory.wfFrom, Bool.and_eq_true, decide_eq_true_eq] at hm
    simp only [Memory.write]
    split
    · refine Memory.read_put ?_
      simp [Memory.wfFrom, hm.1.2, hm.2]
      omega
    · split
      · next h =>
        subst h
        rw [Memory.read_put hm.2]
        split
        · rfl
        · next hc => simp only [Memory.read, if_neg (Ne.symm hc)]
      · simp only [Memory.read]
        split
        · next h => subst h; rw [if_neg (by omega)]
        · exact ih hm.2

/-- A write keeps the canonical form. -/
theorem Memory.wf_write {m : Memory} (a : Nat) (b : Byte) (hm : m.wf = true) : (m.write a b).wf = true :=
  Memory.wfFrom_write b hm (Nat.zero_le a)

/-- Read after write, at the address and elsewhere. -/
theorem Memory.read_write {m : Memory} (a c : Nat) (b : Byte) (hm : m.wf = true) :
    (m.write a b).read c = if c = a then b else m.read c :=
  Memory.read_write_from b c hm

theorem Memory.wf_writeBytes {m : Memory} (a : Nat) (bs : List Byte) (hm : m.wf = true) :
    (m.writeBytes a bs).wf = true := by
  induction bs generalizing m a with
  | nil => exact hm
  | cons b bs ih => exact ih (a + 1) (Memory.wf_write a b hm)

theorem Memory.wf_writeLE {m : Memory} (a n v : Nat) (hm : m.wf = true) : (m.writeLE a n v).wf = true :=
  Memory.wf_writeBytes a _ hm

theorem Memory.inSpace_write {m : Memory} {a : Nat} (b : Byte) (hm : m.inSpace = true) (ha : a < addrSpace) :
    (m.write a b).inSpace = true := by
  induction m with
  | nil => simp only [Memory.write, Memory.put]; split <;> simp [Memory.inSpace, ha]
  | cons cell m ih =>
    obtain ⟨k, d⟩ := cell
    simp only [Memory.inSpace, List.all_cons, Bool.and_eq_true, decide_eq_true_eq] at hm ih
    simp only [Memory.write, Memory.put]
    split
    · split <;> simp [Memory.inSpace, hm, ha]
    · split
      · split <;> simp [Memory.inSpace, ha] <;> simpa using hm.2
      · have := ih hm.2
        simp only [Memory.inSpace, List.all_cons, Bool.and_eq_true, decide_eq_true_eq]
        exact ⟨hm.1, this⟩

theorem Memory.inSpace_writeBytes {m : Memory} {a : Nat} (bs : List Byte) (hm : m.inSpace = true)
    (ha : a + bs.length ≤ addrSpace) : (m.writeBytes a bs).inSpace = true := by
  induction bs generalizing m a with
  | nil => exact hm
  | cons b bs ih =>
    simp only [List.length_cons] at ha
    exact ih (Memory.inSpace_write b hm (by omega)) (by omega)

theorem Memory.inSpace_writeLE {m : Memory} {a n : Nat} (v : Nat) (hm : m.inSpace = true) (ha : a + n ≤ addrSpace) :
    (m.writeLE a n v).inSpace = true :=
  Memory.inSpace_writeBytes _ hm (by simpa using ha)

/-! Runs of bytes. -/

theorem Memory.read_writeBytes_outside {m : Memory} {a c : Nat} {bs : List Byte} (hm : m.wf = true)
    (hc : c < a ∨ a + bs.length ≤ c) : (m.writeBytes a bs).read c = m.read c := by
  induction bs generalizing m a with
  | nil => rfl
  | cons b bs ih =>
    simp only [List.length_cons] at hc
    rw [Memory.writeBytes, ih (Memory.wf_write a b hm) (by omega), Memory.read_write a c b hm, if_neg (by omega)]

theorem Memory.read_writeLE_outside {m : Memory} {a n v c : Nat} (hm : m.wf = true) (hc : c < a ∨ a + n ≤ c) :
    (m.writeLE a n v).read c = m.read c :=
  Memory.read_writeBytes_outside hm (by simpa using hc)

@[simp] theorem Memory.readBytes_length (m : Memory) (a n : Nat) : (m.readBytes a n).length = n := by
  induction n generalizing a with
  | zero => rfl
  | succ n ih => simp [Memory.readBytes, ih]

theorem Memory.readBytes_congr {m m' : Memory} {a n : Nat} (h : ∀ c, a ≤ c → c < a + n → m.read c = m'.read c) :
    m.readBytes a n = m'.readBytes a n := by
  induction n generalizing a with
  | zero => rfl
  | succ n ih =>
    simp only [Memory.readBytes]
    rw [h a (by omega) (by omega), ih fun c h1 h2 => h c (by omega) (by omega)]

/-- A number whose bytes are the same is the same. -/
theorem Memory.readLE_congr {m m' : Memory} {a n : Nat} (h : ∀ c, a ≤ c → c < a + n → m.read c = m'.read c) :
    m.readLE a n = m'.readLE a n := by
  simp only [Memory.readLE, Memory.readBytes_congr h]

theorem Memory.readLE_lt (m : Memory) (a n : Nat) : m.readLE a n < 256 ^ n := by
  have h := leValue_lt (m.readBytes a n)
  rwa [Memory.readBytes_length] at h

theorem Memory.readBytes_writeBytes {m : Memory} {a : Nat} {bs : List Byte} (hm : m.wf = true) :
    (m.writeBytes a bs).readBytes a bs.length = bs := by
  induction bs generalizing m a with
  | nil => rfl
  | cons b bs ih =>
    have hw := Memory.wf_write a b hm
    simp only [List.length_cons, Memory.readBytes, Memory.writeBytes]
    rw [ih hw, Memory.read_writeBytes_outside hw (by omega), Memory.read_write a a b hm, if_pos rfl]

/-- The number written is read back. -/
theorem Memory.readLE_writeLE {m : Memory} {a n v : Nat} (hm : m.wf = true) (hv : v < 256 ^ n) :
    (m.writeLE a n v).readLE a n = v := by
  have h := Memory.readBytes_writeBytes (m := m) (a := a) (bs := leBytes n v) hm
  rw [leBytes_length] at h
  rw [Memory.readLE, Memory.writeLE, h, leValue_leBytes hv]

/-- A write of a number elsewhere leaves a number alone. -/
theorem Memory.readLE_writeLE_outside {m : Memory} {a n v c k : Nat} (hm : m.wf = true)
    (h : c + k ≤ a ∨ a + n ≤ c) : (m.writeLE a n v).readLE c k = m.readLE c k :=
  Memory.readLE_congr fun x h1 h2 => Memory.read_writeLE_outside hm (by omega)

theorem Memory.writeBytes_append (m : Memory) (a : Nat) (bs cs : List Byte) :
    m.writeBytes a (bs ++ cs) = (m.writeBytes a bs).writeBytes (a + bs.length) cs := by
  induction bs generalizing m a with
  | nil => rfl
  | cons b bs ih =>
    simp only [List.cons_append, Memory.writeBytes, ih, List.length_cons]
    congr 1
    omega

/-- A byte read as a number, and a number written as one byte. -/
theorem Memory.readLE_one (m : Memory) (a : Nat) : m.readLE a 1 = (m.read a).toNat := by
  simp [Memory.readLE, Memory.readBytes, leValue]

theorem Memory.writeLE_one (m : Memory) (a : Nat) (b : Byte) : m.writeLE a 1 b.toNat = m.write a b := by
  simp [Memory.writeLE, leBytes, Memory.writeBytes]

/-! The held sets are strictly rising lists. -/

theorem heldInsert_mem (d x : Nat) (l : List Nat) : x ∈ heldInsert d l ↔ x = d ∨ x ∈ l := by
  induction l with
  | nil => simp [heldInsert]
  | cons k ks ih =>
    simp only [heldInsert]
    split
    · simp
    · split
      · next h => subst h; simp
      · simp only [List.mem_cons, ih]; tauto

theorem heldInsert_sorted {d : Nat} {l : List Nat} (h : l.Pairwise (· < ·)) :
    (heldInsert d l).Pairwise (· < ·) := by
  induction l with
  | nil => simp [heldInsert]
  | cons k ks ih =>
    rw [List.pairwise_cons] at h
    simp only [heldInsert]
    split
    · next hd =>
      rw [List.pairwise_cons, List.pairwise_cons]
      refine ⟨fun x hx => ?_, h⟩
      rcases List.mem_cons.1 hx with rfl | hx
      · exact hd
      · exact lt_trans hd (h.1 x hx)
    · split
      · exact List.pairwise_cons.2 h
      · rw [List.pairwise_cons]
        refine ⟨fun x hx => ?_, ih h.2⟩
        rcases (heldInsert_mem d x ks).1 hx with rfl | hx
        · omega
        · exact h.1 x hx

theorem heldErase_sublist (d : Nat) (l : List Nat) : (heldErase d l).Sublist l := by
  induction l with
  | nil => exact List.Sublist.refl _
  | cons k ks ih =>
    simp only [heldErase]
    split
    · exact List.sublist_cons_self k ks
    · exact ih.cons_cons k

end Sys2Proof.Machine
end

