-- ==== Sys2Proof/Laws/State.lean ====
section
/-! SUPPORT. What each named update of State changes, field by field, so that no later proof unfolds a record
update. -/

namespace Sys2Proof.Machine

/-- Two states with equal fields are equal. -/
theorem State.eq_of_fields {s t : State}
    (h_cfg : s.cfg = t.cfg)
    (h_arg0 : s.arg0 = t.arg0)
    (h_arg1 : s.arg1 = t.arg1)
    (h_result : s.result = t.result)
    (h_seq : s.seq = t.seq)
    (h_status : s.status = t.status)
    (h_rx : s.rx = t.rx)
    (h_tx : s.tx = t.tx)
    (h_txKickCnt : s.txKickCnt = t.txKickCnt)
    (h_rxKickCnt : s.rxKickCnt = t.rxKickCnt)
    (h_dropCnt : s.dropCnt = t.dropCnt)
    (h_slots : s.slots = t.slots)
    (h_nextAddr : s.nextAddr = t.nextAddr)
    (h_stage : s.stage = t.stage)
    (h_mem : s.mem = t.mem)
    (h_history : s.history = t.history)
    (h_verdicts : s.verdicts = t.verdicts)
    (h_peerRx : s.peerRx = t.peerRx)
    (h_peerTx : s.peerTx = t.peerTx)
    (h_peerWrote : s.peerWrote = t.peerWrote)
    (h_env : s.env = t.env)
    (h_reads : s.reads = t.reads) : s = t := by
  cases s
  cases t
  simp only [State.mk.injEq]
  exact ⟨h_cfg, h_arg0, h_arg1, h_result, h_seq, h_status, h_rx, h_tx, h_txKickCnt, h_rxKickCnt, h_dropCnt, h_slots, h_nextAddr, h_stage, h_mem, h_history, h_verdicts, h_peerRx, h_peerTx, h_peerWrote, h_env, h_reads⟩

@[simp] theorem State.emit_cfg (s : State) (e : Event) : (s.emit e).cfg = s.cfg := rfl
@[simp] theorem State.emit_arg0 (s : State) (e : Event) : (s.emit e).arg0 = s.arg0 := rfl
@[simp] theorem State.emit_arg1 (s : State) (e : Event) : (s.emit e).arg1 = s.arg1 := rfl
@[simp] theorem State.emit_result (s : State) (e : Event) : (s.emit e).result = s.result := rfl
@[simp] theorem State.emit_seq (s : State) (e : Event) : (s.emit e).seq = s.seq := rfl
@[simp] theorem State.emit_status (s : State) (e : Event) : (s.emit e).status = s.status := rfl
@[simp] theorem State.emit_rx (s : State) (e : Event) : (s.emit e).rx = s.rx := rfl
@[simp] theorem State.emit_tx (s : State) (e : Event) : (s.emit e).tx = s.tx := rfl
@[simp] theorem State.emit_txKickCnt (s : State) (e : Event) : (s.emit e).txKickCnt = s.txKickCnt := rfl
@[simp] theorem State.emit_rxKickCnt (s : State) (e : Event) : (s.emit e).rxKickCnt = s.rxKickCnt := rfl
@[simp] theorem State.emit_dropCnt (s : State) (e : Event) : (s.emit e).dropCnt = s.dropCnt := rfl
@[simp] theorem State.emit_slots (s : State) (e : Event) : (s.emit e).slots = s.slots := rfl
@[simp] theorem State.emit_nextAddr (s : State) (e : Event) : (s.emit e).nextAddr = s.nextAddr := rfl
@[simp] theorem State.emit_stage (s : State) (e : Event) : (s.emit e).stage = s.stage := rfl
@[simp] theorem State.emit_mem (s : State) (e : Event) : (s.emit e).mem = s.mem := rfl
@[simp] theorem State.emit_history (s : State) (e : Event) : (s.emit e).history = s.history ++ [e] := rfl
@[simp] theorem State.emit_verdicts (s : State) (e : Event) : (s.emit e).verdicts = s.verdicts := rfl
@[simp] theorem State.emit_peerRx (s : State) (e : Event) : (s.emit e).peerRx = s.peerRx := rfl
@[simp] theorem State.emit_peerTx (s : State) (e : Event) : (s.emit e).peerTx = s.peerTx := rfl
@[simp] theorem State.emit_peerWrote (s : State) (e : Event) : (s.emit e).peerWrote = s.peerWrote := rfl
@[simp] theorem State.emit_env (s : State) (e : Event) : (s.emit e).env = s.env := rfl
@[simp] theorem State.emit_reads (s : State) (e : Event) : (s.emit e).reads = s.reads := rfl

@[simp] theorem State.dropCommand_cfg (s : State) : (s.dropCommand).cfg = s.cfg := rfl
@[simp] theorem State.dropCommand_arg0 (s : State) : (s.dropCommand).arg0 = s.arg0 := rfl
@[simp] theorem State.dropCommand_arg1 (s : State) : (s.dropCommand).arg1 = s.arg1 := rfl
@[simp] theorem State.dropCommand_result (s : State) : (s.dropCommand).result = s.result := rfl
@[simp] theorem State.dropCommand_seq (s : State) : (s.dropCommand).seq = s.seq := rfl
@[simp] theorem State.dropCommand_status (s : State) : (s.dropCommand).status = { s.status with cmdOverrun := true } := rfl
@[simp] theorem State.dropCommand_rx (s : State) : (s.dropCommand).rx = s.rx := rfl
@[simp] theorem State.dropCommand_tx (s : State) : (s.dropCommand).tx = s.tx := rfl
@[simp] theorem State.dropCommand_txKickCnt (s : State) : (s.dropCommand).txKickCnt = s.txKickCnt := rfl
@[simp] theorem State.dropCommand_rxKickCnt (s : State) : (s.dropCommand).rxKickCnt = s.rxKickCnt := rfl
@[simp] theorem State.dropCommand_dropCnt (s : State) : (s.dropCommand).dropCnt = s.dropCnt := rfl
@[simp] theorem State.dropCommand_slots (s : State) : (s.dropCommand).slots = s.slots := rfl
@[simp] theorem State.dropCommand_nextAddr (s : State) : (s.dropCommand).nextAddr = s.nextAddr := rfl
@[simp] theorem State.dropCommand_stage (s : State) : (s.dropCommand).stage = s.stage := rfl
@[simp] theorem State.dropCommand_mem (s : State) : (s.dropCommand).mem = s.mem := rfl
@[simp] theorem State.dropCommand_history (s : State) : (s.dropCommand).history = s.history := rfl
@[simp] theorem State.dropCommand_verdicts (s : State) : (s.dropCommand).verdicts = s.verdicts := rfl
@[simp] theorem State.dropCommand_peerRx (s : State) : (s.dropCommand).peerRx = s.peerRx := rfl
@[simp] theorem State.dropCommand_peerTx (s : State) : (s.dropCommand).peerTx = s.peerTx := rfl
@[simp] theorem State.dropCommand_peerWrote (s : State) : (s.dropCommand).peerWrote = s.peerWrote := rfl
@[simp] theorem State.dropCommand_env (s : State) : (s.dropCommand).env = s.env := rfl
@[simp] theorem State.dropCommand_reads (s : State) : (s.dropCommand).reads = s.reads := rfl

@[simp] theorem State.accept_cfg (s : State) (w : Word) : (s.accept w).cfg = s.cfg := rfl
@[simp] theorem State.accept_arg0 (s : State) (w : Word) : (s.accept w).arg0 = s.arg0 := rfl
@[simp] theorem State.accept_arg1 (s : State) (w : Word) : (s.accept w).arg1 = s.arg1 := rfl
@[simp] theorem State.accept_result (s : State) (w : Word) : (s.accept w).result = s.result := rfl
@[simp] theorem State.accept_seq (s : State) (w : Word) : (s.accept w).seq = .run ⟨w, s.arg0, s.arg1⟩ .start := rfl
@[simp] theorem State.accept_status (s : State) (w : Word) : (s.accept w).status = { s.status with trunc := false, cmdOverrun := false, err := .ok } := rfl
@[simp] theorem State.accept_rx (s : State) (w : Word) : (s.accept w).rx = s.rx := rfl
@[simp] theorem State.accept_tx (s : State) (w : Word) : (s.accept w).tx = s.tx := rfl
@[simp] theorem State.accept_txKickCnt (s : State) (w : Word) : (s.accept w).txKickCnt = s.txKickCnt := rfl
@[simp] theorem State.accept_rxKickCnt (s : State) (w : Word) : (s.accept w).rxKickCnt = s.rxKickCnt := rfl
@[simp] theorem State.accept_dropCnt (s : State) (w : Word) : (s.accept w).dropCnt = s.dropCnt := rfl
@[simp] theorem State.accept_slots (s : State) (w : Word) : (s.accept w).slots = s.slots := rfl
@[simp] theorem State.accept_nextAddr (s : State) (w : Word) : (s.accept w).nextAddr = s.nextAddr := rfl
@[simp] theorem State.accept_stage (s : State) (w : Word) : (s.accept w).stage = s.stage := rfl
@[simp] theorem State.accept_mem (s : State) (w : Word) : (s.accept w).mem = s.mem := rfl
@[simp] theorem State.accept_history (s : State) (w : Word) : (s.accept w).history = s.history := rfl
@[simp] theorem State.accept_verdicts (s : State) (w : Word) : (s.accept w).verdicts = s.verdicts := rfl
@[simp] theorem State.accept_peerRx (s : State) (w : Word) : (s.accept w).peerRx = s.peerRx := rfl
@[simp] theorem State.accept_peerTx (s : State) (w : Word) : (s.accept w).peerTx = s.peerTx := rfl
@[simp] theorem State.accept_peerWrote (s : State) (w : Word) : (s.accept w).peerWrote = s.peerWrote := rfl
@[simp] theorem State.accept_env (s : State) (w : Word) : (s.accept w).env = s.env := rfl
@[simp] theorem State.accept_reads (s : State) (w : Word) : (s.accept w).reads = s.reads := rfl

@[simp] theorem State.complete_cfg (s : State) (v : Word) (e : ErrCode) : (s.complete v e).cfg = s.cfg := rfl
@[simp] theorem State.complete_arg0 (s : State) (v : Word) (e : ErrCode) : (s.complete v e).arg0 = s.arg0 := rfl
@[simp] theorem State.complete_arg1 (s : State) (v : Word) (e : ErrCode) : (s.complete v e).arg1 = s.arg1 := rfl
@[simp] theorem State.complete_result (s : State) (v : Word) (e : ErrCode) : (s.complete v e).result = v := rfl
@[simp] theorem State.complete_seq (s : State) (v : Word) (e : ErrCode) : (s.complete v e).seq = .idle := rfl
@[simp] theorem State.complete_status (s : State) (v : Word) (e : ErrCode) : (s.complete v e).status = { s.status with err := e } := rfl
@[simp] theorem State.complete_rx (s : State) (v : Word) (e : ErrCode) : (s.complete v e).rx = s.rx := rfl
@[simp] theorem State.complete_tx (s : State) (v : Word) (e : ErrCode) : (s.complete v e).tx = s.tx := rfl
@[simp] theorem State.complete_txKickCnt (s : State) (v : Word) (e : ErrCode) : (s.complete v e).txKickCnt = s.txKickCnt := rfl
@[simp] theorem State.complete_rxKickCnt (s : State) (v : Word) (e : ErrCode) : (s.complete v e).rxKickCnt = s.rxKickCnt := rfl
@[simp] theorem State.complete_dropCnt (s : State) (v : Word) (e : ErrCode) : (s.complete v e).dropCnt = s.dropCnt := rfl
@[simp] theorem State.complete_slots (s : State) (v : Word) (e : ErrCode) : (s.complete v e).slots = s.slots := rfl
@[simp] theorem State.complete_nextAddr (s : State) (v : Word) (e : ErrCode) : (s.complete v e).nextAddr = s.nextAddr := rfl
@[simp] theorem State.complete_stage (s : State) (v : Word) (e : ErrCode) : (s.complete v e).stage = s.stage := rfl
@[simp] theorem State.complete_mem (s : State) (v : Word) (e : ErrCode) : (s.complete v e).mem = s.mem := rfl
@[simp] theorem State.complete_history (s : State) (v : Word) (e : ErrCode) : (s.complete v e).history = s.history := rfl
@[simp] theorem State.complete_verdicts (s : State) (v : Word) (e : ErrCode) : (s.complete v e).verdicts = s.verdicts := rfl
@[simp] theorem State.complete_peerRx (s : State) (v : Word) (e : ErrCode) : (s.complete v e).peerRx = s.peerRx := rfl
@[simp] theorem State.complete_peerTx (s : State) (v : Word) (e : ErrCode) : (s.complete v e).peerTx = s.peerTx := rfl
@[simp] theorem State.complete_peerWrote (s : State) (v : Word) (e : ErrCode) : (s.complete v e).peerWrote = s.peerWrote := rfl
@[simp] theorem State.complete_env (s : State) (v : Word) (e : ErrCode) : (s.complete v e).env = s.env := rfl
@[simp] theorem State.complete_reads (s : State) (v : Word) (e : ErrCode) : (s.complete v e).reads = s.reads := rfl

@[simp] theorem State.takeFault_cfg (s : State) (c : FaultCode) : (s.takeFault c).cfg = s.cfg := rfl
@[simp] theorem State.takeFault_arg0 (s : State) (c : FaultCode) : (s.takeFault c).arg0 = s.arg0 := rfl
@[simp] theorem State.takeFault_arg1 (s : State) (c : FaultCode) : (s.takeFault c).arg1 = s.arg1 := rfl
@[simp] theorem State.takeFault_result (s : State) (c : FaultCode) : (s.takeFault c).result = s.result := rfl
@[simp] theorem State.takeFault_seq (s : State) (c : FaultCode) : (s.takeFault c).seq = s.seq := rfl
@[simp] theorem State.takeFault_status (s : State) (c : FaultCode) : (s.takeFault c).status = { s.status with fcode := c, faulted := true } := rfl
@[simp] theorem State.takeFault_rx (s : State) (c : FaultCode) : (s.takeFault c).rx = s.rx := rfl
@[simp] theorem State.takeFault_tx (s : State) (c : FaultCode) : (s.takeFault c).tx = s.tx := rfl
@[simp] theorem State.takeFault_txKickCnt (s : State) (c : FaultCode) : (s.takeFault c).txKickCnt = s.txKickCnt := rfl
@[simp] theorem State.takeFault_rxKickCnt (s : State) (c : FaultCode) : (s.takeFault c).rxKickCnt = s.rxKickCnt := rfl
@[simp] theorem State.takeFault_dropCnt (s : State) (c : FaultCode) : (s.takeFault c).dropCnt = s.dropCnt := rfl
@[simp] theorem State.takeFault_slots (s : State) (c : FaultCode) : (s.takeFault c).slots = s.slots := rfl
@[simp] theorem State.takeFault_nextAddr (s : State) (c : FaultCode) : (s.takeFault c).nextAddr = s.nextAddr := rfl
@[simp] theorem State.takeFault_stage (s : State) (c : FaultCode) : (s.takeFault c).stage = s.stage := rfl
@[simp] theorem State.takeFault_mem (s : State) (c : FaultCode) : (s.takeFault c).mem = s.mem := rfl
@[simp] theorem State.takeFault_history (s : State) (c : FaultCode) : (s.takeFault c).history = s.history := rfl
@[simp] theorem State.takeFault_verdicts (s : State) (c : FaultCode) : (s.takeFault c).verdicts = s.verdicts := rfl
@[simp] theorem State.takeFault_peerRx (s : State) (c : FaultCode) : (s.takeFault c).peerRx = s.peerRx := rfl
@[simp] theorem State.takeFault_peerTx (s : State) (c : FaultCode) : (s.takeFault c).peerTx = s.peerTx := rfl
@[simp] theorem State.takeFault_peerWrote (s : State) (c : FaultCode) : (s.takeFault c).peerWrote = s.peerWrote := rfl
@[simp] theorem State.takeFault_env (s : State) (c : FaultCode) : (s.takeFault c).env = s.env := rfl
@[simp] theorem State.takeFault_reads (s : State) (c : FaultCode) : (s.takeFault c).reads = s.reads := rfl

@[simp] theorem State.setPhase_cfg (s : State) (p : Phase) : (s.setPhase p).cfg = s.cfg := rfl
@[simp] theorem State.setPhase_arg0 (s : State) (p : Phase) : (s.setPhase p).arg0 = s.arg0 := rfl
@[simp] theorem State.setPhase_arg1 (s : State) (p : Phase) : (s.setPhase p).arg1 = s.arg1 := rfl
@[simp] theorem State.setPhase_result (s : State) (p : Phase) : (s.setPhase p).result = s.result := rfl
@[simp] theorem State.setPhase_seq (s : State) (p : Phase) : (s.setPhase p).seq = s.seq.withPhase p := rfl
@[simp] theorem State.setPhase_status (s : State) (p : Phase) : (s.setPhase p).status = s.status := rfl
@[simp] theorem State.setPhase_rx (s : State) (p : Phase) : (s.setPhase p).rx = s.rx := rfl
@[simp] theorem State.setPhase_tx (s : State) (p : Phase) : (s.setPhase p).tx = s.tx := rfl
@[simp] theorem State.setPhase_txKickCnt (s : State) (p : Phase) : (s.setPhase p).txKickCnt = s.txKickCnt := rfl
@[simp] theorem State.setPhase_rxKickCnt (s : State) (p : Phase) : (s.setPhase p).rxKickCnt = s.rxKickCnt := rfl
@[simp] theorem State.setPhase_dropCnt (s : State) (p : Phase) : (s.setPhase p).dropCnt = s.dropCnt := rfl
@[simp] theorem State.setPhase_slots (s : State) (p : Phase) : (s.setPhase p).slots = s.slots := rfl
@[simp] theorem State.setPhase_nextAddr (s : State) (p : Phase) : (s.setPhase p).nextAddr = s.nextAddr := rfl
@[simp] theorem State.setPhase_stage (s : State) (p : Phase) : (s.setPhase p).stage = s.stage := rfl
@[simp] theorem State.setPhase_mem (s : State) (p : Phase) : (s.setPhase p).mem = s.mem := rfl
@[simp] theorem State.setPhase_history (s : State) (p : Phase) : (s.setPhase p).history = s.history := rfl
@[simp] theorem State.setPhase_verdicts (s : State) (p : Phase) : (s.setPhase p).verdicts = s.verdicts := rfl
@[simp] theorem State.setPhase_peerRx (s : State) (p : Phase) : (s.setPhase p).peerRx = s.peerRx := rfl
@[simp] theorem State.setPhase_peerTx (s : State) (p : Phase) : (s.setPhase p).peerTx = s.peerTx := rfl
@[simp] theorem State.setPhase_peerWrote (s : State) (p : Phase) : (s.setPhase p).peerWrote = s.peerWrote := rfl
@[simp] theorem State.setPhase_env (s : State) (p : Phase) : (s.setPhase p).env = s.env := rfl
@[simp] theorem State.setPhase_reads (s : State) (p : Phase) : (s.setPhase p).reads = s.reads := rfl

@[simp] theorem State.setSlot_cfg (s : State) (i : Nat) (x : Slot) : (s.setSlot i x).cfg = s.cfg := rfl
@[simp] theorem State.setSlot_arg0 (s : State) (i : Nat) (x : Slot) : (s.setSlot i x).arg0 = s.arg0 := rfl
@[simp] theorem State.setSlot_arg1 (s : State) (i : Nat) (x : Slot) : (s.setSlot i x).arg1 = s.arg1 := rfl
@[simp] theorem State.setSlot_result (s : State) (i : Nat) (x : Slot) : (s.setSlot i x).result = s.result := rfl
@[simp] theorem State.setSlot_seq (s : State) (i : Nat) (x : Slot) : (s.setSlot i x).seq = s.seq := rfl
@[simp] theorem State.setSlot_status (s : State) (i : Nat) (x : Slot) : (s.setSlot i x).status = s.status := rfl
@[simp] theorem State.setSlot_rx (s : State) (i : Nat) (x : Slot) : (s.setSlot i x).rx = s.rx := rfl
@[simp] theorem State.setSlot_tx (s : State) (i : Nat) (x : Slot) : (s.setSlot i x).tx = s.tx := rfl
@[simp] theorem State.setSlot_txKickCnt (s : State) (i : Nat) (x : Slot) : (s.setSlot i x).txKickCnt = s.txKickCnt := rfl
@[simp] theorem State.setSlot_rxKickCnt (s : State) (i : Nat) (x : Slot) : (s.setSlot i x).rxKickCnt = s.rxKickCnt := rfl
@[simp] theorem State.setSlot_dropCnt (s : State) (i : Nat) (x : Slot) : (s.setSlot i x).dropCnt = s.dropCnt := rfl
@[simp] theorem State.setSlot_slots (s : State) (i : Nat) (x : Slot) : (s.setSlot i x).slots = s.slots.set i x := rfl
@[simp] theorem State.setSlot_nextAddr (s : State) (i : Nat) (x : Slot) : (s.setSlot i x).nextAddr = s.nextAddr := rfl
@[simp] theorem State.setSlot_stage (s : State) (i : Nat) (x : Slot) : (s.setSlot i x).stage = s.stage := rfl
@[simp] theorem State.setSlot_mem (s : State) (i : Nat) (x : Slot) : (s.setSlot i x).mem = s.mem := rfl
@[simp] theorem State.setSlot_history (s : State) (i : Nat) (x : Slot) : (s.setSlot i x).history = s.history := rfl
@[simp] theorem State.setSlot_verdicts (s : State) (i : Nat) (x : Slot) : (s.setSlot i x).verdicts = s.verdicts := rfl
@[simp] theorem State.setSlot_peerRx (s : State) (i : Nat) (x : Slot) : (s.setSlot i x).peerRx = s.peerRx := rfl
@[simp] theorem State.setSlot_peerTx (s : State) (i : Nat) (x : Slot) : (s.setSlot i x).peerTx = s.peerTx := rfl
@[simp] theorem State.setSlot_peerWrote (s : State) (i : Nat) (x : Slot) : (s.setSlot i x).peerWrote = s.peerWrote := rfl
@[simp] theorem State.setSlot_env (s : State) (i : Nat) (x : Slot) : (s.setSlot i x).env = s.env := rfl
@[simp] theorem State.setSlot_reads (s : State) (i : Nat) (x : Slot) : (s.setSlot i x).reads = s.reads := rfl

@[simp] theorem State.storeBy_cfg (s : State) (who : Agent) (a : Nat) (w : Width) (v : Nat) : (s.storeBy who a w v).cfg = s.cfg := rfl
@[simp] theorem State.storeBy_arg0 (s : State) (who : Agent) (a : Nat) (w : Width) (v : Nat) : (s.storeBy who a w v).arg0 = s.arg0 := rfl
@[simp] theorem State.storeBy_arg1 (s : State) (who : Agent) (a : Nat) (w : Width) (v : Nat) : (s.storeBy who a w v).arg1 = s.arg1 := rfl
@[simp] theorem State.storeBy_result (s : State) (who : Agent) (a : Nat) (w : Width) (v : Nat) : (s.storeBy who a w v).result = s.result := rfl
@[simp] theorem State.storeBy_seq (s : State) (who : Agent) (a : Nat) (w : Width) (v : Nat) : (s.storeBy who a w v).seq = s.seq := rfl
@[simp] theorem State.storeBy_status (s : State) (who : Agent) (a : Nat) (w : Width) (v : Nat) : (s.storeBy who a w v).status = s.status := rfl
@[simp] theorem State.storeBy_rx (s : State) (who : Agent) (a : Nat) (w : Width) (v : Nat) : (s.storeBy who a w v).rx = s.rx := rfl
@[simp] theorem State.storeBy_tx (s : State) (who : Agent) (a : Nat) (w : Width) (v : Nat) : (s.storeBy who a w v).tx = s.tx := rfl
@[simp] theorem State.storeBy_txKickCnt (s : State) (who : Agent) (a : Nat) (w : Width) (v : Nat) : (s.storeBy who a w v).txKickCnt = s.txKickCnt := rfl
@[simp] theorem State.storeBy_rxKickCnt (s : State) (who : Agent) (a : Nat) (w : Width) (v : Nat) : (s.storeBy who a w v).rxKickCnt = s.rxKickCnt := rfl
@[simp] theorem State.storeBy_dropCnt (s : State) (who : Agent) (a : Nat) (w : Width) (v : Nat) : (s.storeBy who a w v).dropCnt = s.dropCnt := rfl
@[simp] theorem State.storeBy_slots (s : State) (who : Agent) (a : Nat) (w : Width) (v : Nat) : (s.storeBy who a w v).slots = s.slots := rfl
@[simp] theorem State.storeBy_nextAddr (s : State) (who : Agent) (a : Nat) (w : Width) (v : Nat) : (s.storeBy who a w v).nextAddr = s.nextAddr := rfl
@[simp] theorem State.storeBy_stage (s : State) (who : Agent) (a : Nat) (w : Width) (v : Nat) : (s.storeBy who a w v).stage = s.stage := rfl
@[simp] theorem State.storeBy_mem (s : State) (who : Agent) (a : Nat) (w : Width) (v : Nat) : (s.storeBy who a w v).mem = s.mem.writeLE a w.bytes (v % 2 ^ (8 * w.bytes)) := rfl
@[simp] theorem State.storeBy_history (s : State) (who : Agent) (a : Nat) (w : Width) (v : Nat) : (s.storeBy who a w v).history = s.history ++ [.wr who a w.bytes (v % 2 ^ (8 * w.bytes))] := rfl
@[simp] theorem State.storeBy_verdicts (s : State) (who : Agent) (a : Nat) (w : Width) (v : Nat) : (s.storeBy who a w v).verdicts = s.verdicts := rfl
@[simp] theorem State.storeBy_peerRx (s : State) (who : Agent) (a : Nat) (w : Width) (v : Nat) : (s.storeBy who a w v).peerRx = s.peerRx := rfl
@[simp] theorem State.storeBy_peerTx (s : State) (who : Agent) (a : Nat) (w : Width) (v : Nat) : (s.storeBy who a w v).peerTx = s.peerTx := rfl
@[simp] theorem State.storeBy_peerWrote (s : State) (who : Agent) (a : Nat) (w : Width) (v : Nat) : (s.storeBy who a w v).peerWrote = s.peerWrote := rfl
@[simp] theorem State.storeBy_env (s : State) (who : Agent) (a : Nat) (w : Width) (v : Nat) : (s.storeBy who a w v).env = s.env := rfl
@[simp] theorem State.storeBy_reads (s : State) (who : Agent) (a : Nat) (w : Width) (v : Nat) : (s.storeBy who a w v).reads = s.reads := rfl

@[simp] theorem State.loadBy_cfg (s : State) (who : Agent) (a : Nat) (w : Width) : (s.loadBy who a w).cfg = s.cfg := rfl
@[simp] theorem State.loadBy_arg0 (s : State) (who : Agent) (a : Nat) (w : Width) : (s.loadBy who a w).arg0 = s.arg0 := rfl
@[simp] theorem State.loadBy_arg1 (s : State) (who : Agent) (a : Nat) (w : Width) : (s.loadBy who a w).arg1 = s.arg1 := rfl
@[simp] theorem State.loadBy_result (s : State) (who : Agent) (a : Nat) (w : Width) : (s.loadBy who a w).result = s.result := rfl
@[simp] theorem State.loadBy_seq (s : State) (who : Agent) (a : Nat) (w : Width) : (s.loadBy who a w).seq = s.seq := rfl
@[simp] theorem State.loadBy_status (s : State) (who : Agent) (a : Nat) (w : Width) : (s.loadBy who a w).status = s.status := rfl
@[simp] theorem State.loadBy_rx (s : State) (who : Agent) (a : Nat) (w : Width) : (s.loadBy who a w).rx = s.rx := rfl
@[simp] theorem State.loadBy_tx (s : State) (who : Agent) (a : Nat) (w : Width) : (s.loadBy who a w).tx = s.tx := rfl
@[simp] theorem State.loadBy_txKickCnt (s : State) (who : Agent) (a : Nat) (w : Width) : (s.loadBy who a w).txKickCnt = s.txKickCnt := rfl
@[simp] theorem State.loadBy_rxKickCnt (s : State) (who : Agent) (a : Nat) (w : Width) : (s.loadBy who a w).rxKickCnt = s.rxKickCnt := rfl
@[simp] theorem State.loadBy_dropCnt (s : State) (who : Agent) (a : Nat) (w : Width) : (s.loadBy who a w).dropCnt = s.dropCnt := rfl
@[simp] theorem State.loadBy_slots (s : State) (who : Agent) (a : Nat) (w : Width) : (s.loadBy who a w).slots = s.slots := rfl
@[simp] theorem State.loadBy_nextAddr (s : State) (who : Agent) (a : Nat) (w : Width) : (s.loadBy who a w).nextAddr = s.nextAddr := rfl
@[simp] theorem State.loadBy_stage (s : State) (who : Agent) (a : Nat) (w : Width) : (s.loadBy who a w).stage = s.stage := rfl
@[simp] theorem State.loadBy_mem (s : State) (who : Agent) (a : Nat) (w : Width) : (s.loadBy who a w).mem = s.mem := rfl
@[simp] theorem State.loadBy_history (s : State) (who : Agent) (a : Nat) (w : Width) : (s.loadBy who a w).history = s.history ++ [.rd who a w.bytes (s.mem.readLE a w.bytes)] := rfl
@[simp] theorem State.loadBy_verdicts (s : State) (who : Agent) (a : Nat) (w : Width) : (s.loadBy who a w).verdicts = s.verdicts := rfl
@[simp] theorem State.loadBy_peerRx (s : State) (who : Agent) (a : Nat) (w : Width) : (s.loadBy who a w).peerRx = s.peerRx := rfl
@[simp] theorem State.loadBy_peerTx (s : State) (who : Agent) (a : Nat) (w : Width) : (s.loadBy who a w).peerTx = s.peerTx := rfl
@[simp] theorem State.loadBy_peerWrote (s : State) (who : Agent) (a : Nat) (w : Width) : (s.loadBy who a w).peerWrote = s.peerWrote := rfl
@[simp] theorem State.loadBy_env (s : State) (who : Agent) (a : Nat) (w : Width) : (s.loadBy who a w).env = s.env := rfl
@[simp] theorem State.loadBy_reads (s : State) (who : Agent) (a : Nat) (w : Width) : (s.loadBy who a w).reads = s.reads := rfl

@[simp] theorem State.notePeerOverrun_cfg (s : State) (b : Bool) : (s.notePeerOverrun b).cfg = s.cfg := rfl
@[simp] theorem State.notePeerOverrun_arg0 (s : State) (b : Bool) : (s.notePeerOverrun b).arg0 = s.arg0 := rfl
@[simp] theorem State.notePeerOverrun_arg1 (s : State) (b : Bool) : (s.notePeerOverrun b).arg1 = s.arg1 := rfl
@[simp] theorem State.notePeerOverrun_result (s : State) (b : Bool) : (s.notePeerOverrun b).result = s.result := rfl
@[simp] theorem State.notePeerOverrun_seq (s : State) (b : Bool) : (s.notePeerOverrun b).seq = s.seq := rfl
@[simp] theorem State.notePeerOverrun_status (s : State) (b : Bool) : (s.notePeerOverrun b).status = s.status := rfl
@[simp] theorem State.notePeerOverrun_rx (s : State) (b : Bool) : (s.notePeerOverrun b).rx = s.rx := rfl
@[simp] theorem State.notePeerOverrun_tx (s : State) (b : Bool) : (s.notePeerOverrun b).tx = s.tx := rfl
@[simp] theorem State.notePeerOverrun_txKickCnt (s : State) (b : Bool) : (s.notePeerOverrun b).txKickCnt = s.txKickCnt := rfl
@[simp] theorem State.notePeerOverrun_rxKickCnt (s : State) (b : Bool) : (s.notePeerOverrun b).rxKickCnt = s.rxKickCnt := rfl
@[simp] theorem State.notePeerOverrun_dropCnt (s : State) (b : Bool) : (s.notePeerOverrun b).dropCnt = s.dropCnt := rfl
@[simp] theorem State.notePeerOverrun_slots (s : State) (b : Bool) : (s.notePeerOverrun b).slots = s.slots := rfl
@[simp] theorem State.notePeerOverrun_nextAddr (s : State) (b : Bool) : (s.notePeerOverrun b).nextAddr = s.nextAddr := rfl
@[simp] theorem State.notePeerOverrun_stage (s : State) (b : Bool) : (s.notePeerOverrun b).stage = s.stage := rfl
@[simp] theorem State.notePeerOverrun_mem (s : State) (b : Bool) : (s.notePeerOverrun b).mem = s.mem := rfl
@[simp] theorem State.notePeerOverrun_history (s : State) (b : Bool) : (s.notePeerOverrun b).history = s.history := rfl
@[simp] theorem State.notePeerOverrun_verdicts (s : State) (b : Bool) : (s.notePeerOverrun b).verdicts = { s.verdicts with peerOverrun := s.verdicts.peerOverrun || b } := rfl
@[simp] theorem State.notePeerOverrun_peerRx (s : State) (b : Bool) : (s.notePeerOverrun b).peerRx = s.peerRx := rfl
@[simp] theorem State.notePeerOverrun_peerTx (s : State) (b : Bool) : (s.notePeerOverrun b).peerTx = s.peerTx := rfl
@[simp] theorem State.notePeerOverrun_peerWrote (s : State) (b : Bool) : (s.notePeerOverrun b).peerWrote = s.peerWrote := rfl
@[simp] theorem State.notePeerOverrun_env (s : State) (b : Bool) : (s.notePeerOverrun b).env = s.env := rfl
@[simp] theorem State.notePeerOverrun_reads (s : State) (b : Bool) : (s.notePeerOverrun b).reads = s.reads := rfl

@[simp] theorem State.noteDoubleOffer_cfg (s : State) (b : Bool) : (s.noteDoubleOffer b).cfg = s.cfg := rfl
@[simp] theorem State.noteDoubleOffer_arg0 (s : State) (b : Bool) : (s.noteDoubleOffer b).arg0 = s.arg0 := rfl
@[simp] theorem State.noteDoubleOffer_arg1 (s : State) (b : Bool) : (s.noteDoubleOffer b).arg1 = s.arg1 := rfl
@[simp] theorem State.noteDoubleOffer_result (s : State) (b : Bool) : (s.noteDoubleOffer b).result = s.result := rfl
@[simp] theorem State.noteDoubleOffer_seq (s : State) (b : Bool) : (s.noteDoubleOffer b).seq = s.seq := rfl
@[simp] theorem State.noteDoubleOffer_status (s : State) (b : Bool) : (s.noteDoubleOffer b).status = s.status := rfl
@[simp] theorem State.noteDoubleOffer_rx (s : State) (b : Bool) : (s.noteDoubleOffer b).rx = s.rx := rfl
@[simp] theorem State.noteDoubleOffer_tx (s : State) (b : Bool) : (s.noteDoubleOffer b).tx = s.tx := rfl
@[simp] theorem State.noteDoubleOffer_txKickCnt (s : State) (b : Bool) : (s.noteDoubleOffer b).txKickCnt = s.txKickCnt := rfl
@[simp] theorem State.noteDoubleOffer_rxKickCnt (s : State) (b : Bool) : (s.noteDoubleOffer b).rxKickCnt = s.rxKickCnt := rfl
@[simp] theorem State.noteDoubleOffer_dropCnt (s : State) (b : Bool) : (s.noteDoubleOffer b).dropCnt = s.dropCnt := rfl
@[simp] theorem State.noteDoubleOffer_slots (s : State) (b : Bool) : (s.noteDoubleOffer b).slots = s.slots := rfl
@[simp] theorem State.noteDoubleOffer_nextAddr (s : State) (b : Bool) : (s.noteDoubleOffer b).nextAddr = s.nextAddr := rfl
@[simp] theorem State.noteDoubleOffer_stage (s : State) (b : Bool) : (s.noteDoubleOffer b).stage = s.stage := rfl
@[simp] theorem State.noteDoubleOffer_mem (s : State) (b : Bool) : (s.noteDoubleOffer b).mem = s.mem := rfl
@[simp] theorem State.noteDoubleOffer_history (s : State) (b : Bool) : (s.noteDoubleOffer b).history = s.history := rfl
@[simp] theorem State.noteDoubleOffer_verdicts (s : State) (b : Bool) : (s.noteDoubleOffer b).verdicts = { s.verdicts with doubleOffer := s.verdicts.doubleOffer || b } := rfl
@[simp] theorem State.noteDoubleOffer_peerRx (s : State) (b : Bool) : (s.noteDoubleOffer b).peerRx = s.peerRx := rfl
@[simp] theorem State.noteDoubleOffer_peerTx (s : State) (b : Bool) : (s.noteDoubleOffer b).peerTx = s.peerTx := rfl
@[simp] theorem State.noteDoubleOffer_peerWrote (s : State) (b : Bool) : (s.noteDoubleOffer b).peerWrote = s.peerWrote := rfl
@[simp] theorem State.noteDoubleOffer_env (s : State) (b : Bool) : (s.noteDoubleOffer b).env = s.env := rfl
@[simp] theorem State.noteDoubleOffer_reads (s : State) (b : Bool) : (s.noteDoubleOffer b).reads = s.reads := rfl

@[simp] theorem State.notePublishNotHeld_cfg (s : State) (b : Bool) : (s.notePublishNotHeld b).cfg = s.cfg := rfl
@[simp] theorem State.notePublishNotHeld_arg0 (s : State) (b : Bool) : (s.notePublishNotHeld b).arg0 = s.arg0 := rfl
@[simp] theorem State.notePublishNotHeld_arg1 (s : State) (b : Bool) : (s.notePublishNotHeld b).arg1 = s.arg1 := rfl
@[simp] theorem State.notePublishNotHeld_result (s : State) (b : Bool) : (s.notePublishNotHeld b).result = s.result := rfl
@[simp] theorem State.notePublishNotHeld_seq (s : State) (b : Bool) : (s.notePublishNotHeld b).seq = s.seq := rfl
@[simp] theorem State.notePublishNotHeld_status (s : State) (b : Bool) : (s.notePublishNotHeld b).status = s.status := rfl
@[simp] theorem State.notePublishNotHeld_rx (s : State) (b : Bool) : (s.notePublishNotHeld b).rx = s.rx := rfl
@[simp] theorem State.notePublishNotHeld_tx (s : State) (b : Bool) : (s.notePublishNotHeld b).tx = s.tx := rfl
@[simp] theorem State.notePublishNotHeld_txKickCnt (s : State) (b : Bool) : (s.notePublishNotHeld b).txKickCnt = s.txKickCnt := rfl
@[simp] theorem State.notePublishNotHeld_rxKickCnt (s : State) (b : Bool) : (s.notePublishNotHeld b).rxKickCnt = s.rxKickCnt := rfl
@[simp] theorem State.notePublishNotHeld_dropCnt (s : State) (b : Bool) : (s.notePublishNotHeld b).dropCnt = s.dropCnt := rfl
@[simp] theorem State.notePublishNotHeld_slots (s : State) (b : Bool) : (s.notePublishNotHeld b).slots = s.slots := rfl
@[simp] theorem State.notePublishNotHeld_nextAddr (s : State) (b : Bool) : (s.notePublishNotHeld b).nextAddr = s.nextAddr := rfl
@[simp] theorem State.notePublishNotHeld_stage (s : State) (b : Bool) : (s.notePublishNotHeld b).stage = s.stage := rfl
@[simp] theorem State.notePublishNotHeld_mem (s : State) (b : Bool) : (s.notePublishNotHeld b).mem = s.mem := rfl
@[simp] theorem State.notePublishNotHeld_history (s : State) (b : Bool) : (s.notePublishNotHeld b).history = s.history := rfl
@[simp] theorem State.notePublishNotHeld_verdicts (s : State) (b : Bool) : (s.notePublishNotHeld b).verdicts = { s.verdicts with publishNotHeld := s.verdicts.publishNotHeld || b } := rfl
@[simp] theorem State.notePublishNotHeld_peerRx (s : State) (b : Bool) : (s.notePublishNotHeld b).peerRx = s.peerRx := rfl
@[simp] theorem State.notePublishNotHeld_peerTx (s : State) (b : Bool) : (s.notePublishNotHeld b).peerTx = s.peerTx := rfl
@[simp] theorem State.notePublishNotHeld_peerWrote (s : State) (b : Bool) : (s.notePublishNotHeld b).peerWrote = s.peerWrote := rfl
@[simp] theorem State.notePublishNotHeld_env (s : State) (b : Bool) : (s.notePublishNotHeld b).env = s.env := rfl
@[simp] theorem State.notePublishNotHeld_reads (s : State) (b : Bool) : (s.notePublishNotHeld b).reads = s.reads := rfl

@[simp] theorem setStage_cfg (s : State) (bs : List Byte) : (setStage bs s).cfg = s.cfg := rfl
@[simp] theorem setStage_arg0 (s : State) (bs : List Byte) : (setStage bs s).arg0 = s.arg0 := rfl
@[simp] theorem setStage_arg1 (s : State) (bs : List Byte) : (setStage bs s).arg1 = s.arg1 := rfl
@[simp] theorem setStage_result (s : State) (bs : List Byte) : (setStage bs s).result = s.result := rfl
@[simp] theorem setStage_seq (s : State) (bs : List Byte) : (setStage bs s).seq = s.seq := rfl
@[simp] theorem setStage_status (s : State) (bs : List Byte) : (setStage bs s).status = s.status := rfl
@[simp] theorem setStage_rx (s : State) (bs : List Byte) : (setStage bs s).rx = s.rx := rfl
@[simp] theorem setStage_tx (s : State) (bs : List Byte) : (setStage bs s).tx = s.tx := rfl
@[simp] theorem setStage_txKickCnt (s : State) (bs : List Byte) : (setStage bs s).txKickCnt = s.txKickCnt := rfl
@[simp] theorem setStage_rxKickCnt (s : State) (bs : List Byte) : (setStage bs s).rxKickCnt = s.rxKickCnt := rfl
@[simp] theorem setStage_dropCnt (s : State) (bs : List Byte) : (setStage bs s).dropCnt = s.dropCnt := rfl
@[simp] theorem setStage_slots (s : State) (bs : List Byte) : (setStage bs s).slots = s.slots := rfl
@[simp] theorem setStage_nextAddr (s : State) (bs : List Byte) : (setStage bs s).nextAddr = s.nextAddr := rfl
@[simp] theorem setStage_stage (s : State) (bs : List Byte) : (setStage bs s).stage = bs := rfl
@[simp] theorem setStage_mem (s : State) (bs : List Byte) : (setStage bs s).mem = s.mem := rfl
@[simp] theorem setStage_history (s : State) (bs : List Byte) : (setStage bs s).history = s.history := rfl
@[simp] theorem setStage_verdicts (s : State) (bs : List Byte) : (setStage bs s).verdicts = s.verdicts := rfl
@[simp] theorem setStage_peerRx (s : State) (bs : List Byte) : (setStage bs s).peerRx = s.peerRx := rfl
@[simp] theorem setStage_peerTx (s : State) (bs : List Byte) : (setStage bs s).peerTx = s.peerTx := rfl
@[simp] theorem setStage_peerWrote (s : State) (bs : List Byte) : (setStage bs s).peerWrote = s.peerWrote := rfl
@[simp] theorem setStage_env (s : State) (bs : List Byte) : (setStage bs s).env = s.env := rfl
@[simp] theorem setStage_reads (s : State) (bs : List Byte) : (setStage bs s).reads = s.reads := rfl

@[simp] theorem setTrunc_cfg (s : State) : (setTrunc s).cfg = s.cfg := rfl
@[simp] theorem setTrunc_arg0 (s : State) : (setTrunc s).arg0 = s.arg0 := rfl
@[simp] theorem setTrunc_arg1 (s : State) : (setTrunc s).arg1 = s.arg1 := rfl
@[simp] theorem setTrunc_result (s : State) : (setTrunc s).result = s.result := rfl
@[simp] theorem setTrunc_seq (s : State) : (setTrunc s).seq = s.seq := rfl
@[simp] theorem setTrunc_status (s : State) : (setTrunc s).status = { s.status with trunc := true } := rfl
@[simp] theorem setTrunc_rx (s : State) : (setTrunc s).rx = s.rx := rfl
@[simp] theorem setTrunc_tx (s : State) : (setTrunc s).tx = s.tx := rfl
@[simp] theorem setTrunc_txKickCnt (s : State) : (setTrunc s).txKickCnt = s.txKickCnt := rfl
@[simp] theorem setTrunc_rxKickCnt (s : State) : (setTrunc s).rxKickCnt = s.rxKickCnt := rfl
@[simp] theorem setTrunc_dropCnt (s : State) : (setTrunc s).dropCnt = s.dropCnt := rfl
@[simp] theorem setTrunc_slots (s : State) : (setTrunc s).slots = s.slots := rfl
@[simp] theorem setTrunc_nextAddr (s : State) : (setTrunc s).nextAddr = s.nextAddr := rfl
@[simp] theorem setTrunc_stage (s : State) : (setTrunc s).stage = s.stage := rfl
@[simp] theorem setTrunc_mem (s : State) : (setTrunc s).mem = s.mem := rfl
@[simp] theorem setTrunc_history (s : State) : (setTrunc s).history = s.history := rfl
@[simp] theorem setTrunc_verdicts (s : State) : (setTrunc s).verdicts = s.verdicts := rfl
@[simp] theorem setTrunc_peerRx (s : State) : (setTrunc s).peerRx = s.peerRx := rfl
@[simp] theorem setTrunc_peerTx (s : State) : (setTrunc s).peerTx = s.peerTx := rfl
@[simp] theorem setTrunc_peerWrote (s : State) : (setTrunc s).peerWrote = s.peerWrote := rfl
@[simp] theorem setTrunc_env (s : State) : (setTrunc s).env = s.env := rfl
@[simp] theorem setTrunc_reads (s : State) : (setTrunc s).reads = s.reads := rfl

@[simp] theorem announceSlot_cfg (s : State) (i : Nat) (nm : List Byte) : (announceSlot i nm s).cfg = s.cfg := rfl
@[simp] theorem announceSlot_arg0 (s : State) (i : Nat) (nm : List Byte) : (announceSlot i nm s).arg0 = s.arg0 := rfl
@[simp] theorem announceSlot_arg1 (s : State) (i : Nat) (nm : List Byte) : (announceSlot i nm s).arg1 = s.arg1 := rfl
@[simp] theorem announceSlot_result (s : State) (i : Nat) (nm : List Byte) : (announceSlot i nm s).result = s.result := rfl
@[simp] theorem announceSlot_seq (s : State) (i : Nat) (nm : List Byte) : (announceSlot i nm s).seq = s.seq := rfl
@[simp] theorem announceSlot_status (s : State) (i : Nat) (nm : List Byte) : (announceSlot i nm s).status = s.status := rfl
@[simp] theorem announceSlot_rx (s : State) (i : Nat) (nm : List Byte) : (announceSlot i nm s).rx = s.rx := rfl
@[simp] theorem announceSlot_tx (s : State) (i : Nat) (nm : List Byte) : (announceSlot i nm s).tx = s.tx := rfl
@[simp] theorem announceSlot_txKickCnt (s : State) (i : Nat) (nm : List Byte) : (announceSlot i nm s).txKickCnt = s.txKickCnt := rfl
@[simp] theorem announceSlot_rxKickCnt (s : State) (i : Nat) (nm : List Byte) : (announceSlot i nm s).rxKickCnt = s.rxKickCnt := rfl
@[simp] theorem announceSlot_dropCnt (s : State) (i : Nat) (nm : List Byte) : (announceSlot i nm s).dropCnt = s.dropCnt := rfl
@[simp] theorem announceSlot_slots (s : State) (i : Nat) (nm : List Byte) : (announceSlot i nm s).slots = s.slots.set i ⟨.announced, s.nextAddr, s.cfg.addrAny, nm⟩ := rfl
@[simp] theorem announceSlot_nextAddr (s : State) (i : Nat) (nm : List Byte) : (announceSlot i nm s).nextAddr = s.nextAddr + 1 := rfl
@[simp] theorem announceSlot_stage (s : State) (i : Nat) (nm : List Byte) : (announceSlot i nm s).stage = s.stage := rfl
@[simp] theorem announceSlot_mem (s : State) (i : Nat) (nm : List Byte) : (announceSlot i nm s).mem = s.mem := rfl
@[simp] theorem announceSlot_history (s : State) (i : Nat) (nm : List Byte) : (announceSlot i nm s).history = s.history := rfl
@[simp] theorem announceSlot_verdicts (s : State) (i : Nat) (nm : List Byte) : (announceSlot i nm s).verdicts = s.verdicts := rfl
@[simp] theorem announceSlot_peerRx (s : State) (i : Nat) (nm : List Byte) : (announceSlot i nm s).peerRx = s.peerRx := rfl
@[simp] theorem announceSlot_peerTx (s : State) (i : Nat) (nm : List Byte) : (announceSlot i nm s).peerTx = s.peerTx := rfl
@[simp] theorem announceSlot_peerWrote (s : State) (i : Nat) (nm : List Byte) : (announceSlot i nm s).peerWrote = s.peerWrote := rfl
@[simp] theorem announceSlot_env (s : State) (i : Nat) (nm : List Byte) : (announceSlot i nm s).env = s.env := rfl
@[simp] theorem announceSlot_reads (s : State) (i : Nat) (nm : List Byte) : (announceSlot i nm s).reads = s.reads := rfl

@[simp] theorem State.setRing_cfg (s : State) (r : RingId) (c : RingCtx) : (s.setRing r c).cfg = s.cfg := by cases r <;> rfl
@[simp] theorem State.setRing_arg0 (s : State) (r : RingId) (c : RingCtx) : (s.setRing r c).arg0 = s.arg0 := by cases r <;> rfl
@[simp] theorem State.setRing_arg1 (s : State) (r : RingId) (c : RingCtx) : (s.setRing r c).arg1 = s.arg1 := by cases r <;> rfl
@[simp] theorem State.setRing_result (s : State) (r : RingId) (c : RingCtx) : (s.setRing r c).result = s.result := by cases r <;> rfl
@[simp] theorem State.setRing_seq (s : State) (r : RingId) (c : RingCtx) : (s.setRing r c).seq = s.seq := by cases r <;> rfl
@[simp] theorem State.setRing_status (s : State) (r : RingId) (c : RingCtx) : (s.setRing r c).status = s.status := by cases r <;> rfl
@[simp] theorem State.setRing_txKickCnt (s : State) (r : RingId) (c : RingCtx) : (s.setRing r c).txKickCnt = s.txKickCnt := by cases r <;> rfl
@[simp] theorem State.setRing_rxKickCnt (s : State) (r : RingId) (c : RingCtx) : (s.setRing r c).rxKickCnt = s.rxKickCnt := by cases r <;> rfl
@[simp] theorem State.setRing_dropCnt (s : State) (r : RingId) (c : RingCtx) : (s.setRing r c).dropCnt = s.dropCnt := by cases r <;> rfl
@[simp] theorem State.setRing_slots (s : State) (r : RingId) (c : RingCtx) : (s.setRing r c).slots = s.slots := by cases r <;> rfl
@[simp] theorem State.setRing_nextAddr (s : State) (r : RingId) (c : RingCtx) : (s.setRing r c).nextAddr = s.nextAddr := by cases r <;> rfl
@[simp] theorem State.setRing_stage (s : State) (r : RingId) (c : RingCtx) : (s.setRing r c).stage = s.stage := by cases r <;> rfl
@[simp] theorem State.setRing_mem (s : State) (r : RingId) (c : RingCtx) : (s.setRing r c).mem = s.mem := by cases r <;> rfl
@[simp] theorem State.setRing_history (s : State) (r : RingId) (c : RingCtx) : (s.setRing r c).history = s.history := by cases r <;> rfl
@[simp] theorem State.setRing_verdicts (s : State) (r : RingId) (c : RingCtx) : (s.setRing r c).verdicts = s.verdicts := by cases r <;> rfl
@[simp] theorem State.setRing_peerRx (s : State) (r : RingId) (c : RingCtx) : (s.setRing r c).peerRx = s.peerRx := by cases r <;> rfl
@[simp] theorem State.setRing_peerTx (s : State) (r : RingId) (c : RingCtx) : (s.setRing r c).peerTx = s.peerTx := by cases r <;> rfl
@[simp] theorem State.setRing_peerWrote (s : State) (r : RingId) (c : RingCtx) : (s.setRing r c).peerWrote = s.peerWrote := by cases r <;> rfl
@[simp] theorem State.setRing_env (s : State) (r : RingId) (c : RingCtx) : (s.setRing r c).env = s.env := by cases r <;> rfl
@[simp] theorem State.setRing_reads (s : State) (r : RingId) (c : RingCtx) : (s.setRing r c).reads = s.reads := by cases r <;> rfl

@[simp] theorem State.setPeer_cfg (s : State) (r : RingId) (p : PeerRing) : (s.setPeer r p).cfg = s.cfg := by cases r <;> rfl
@[simp] theorem State.setPeer_arg0 (s : State) (r : RingId) (p : PeerRing) : (s.setPeer r p).arg0 = s.arg0 := by cases r <;> rfl
@[simp] theorem State.setPeer_arg1 (s : State) (r : RingId) (p : PeerRing) : (s.setPeer r p).arg1 = s.arg1 := by cases r <;> rfl
@[simp] theorem State.setPeer_result (s : State) (r : RingId) (p : PeerRing) : (s.setPeer r p).result = s.result := by cases r <;> rfl
@[simp] theorem State.setPeer_seq (s : State) (r : RingId) (p : PeerRing) : (s.setPeer r p).seq = s.seq := by cases r <;> rfl
@[simp] theorem State.setPeer_status (s : State) (r : RingId) (p : PeerRing) : (s.setPeer r p).status = s.status := by cases r <;> rfl
@[simp] theorem State.setPeer_rx (s : State) (r : RingId) (p : PeerRing) : (s.setPeer r p).rx = s.rx := by cases r <;> rfl
@[simp] theorem State.setPeer_tx (s : State) (r : RingId) (p : PeerRing) : (s.setPeer r p).tx = s.tx := by cases r <;> rfl
@[simp] theorem State.setPeer_txKickCnt (s : State) (r : RingId) (p : PeerRing) : (s.setPeer r p).txKickCnt = s.txKickCnt := by cases r <;> rfl
@[simp] theorem State.setPeer_rxKickCnt (s : State) (r : RingId) (p : PeerRing) : (s.setPeer r p).rxKickCnt = s.rxKickCnt := by cases r <;> rfl
@[simp] theorem State.setPeer_dropCnt (s : State) (r : RingId) (p : PeerRing) : (s.setPeer r p).dropCnt = s.dropCnt := by cases r <;> rfl
@[simp] theorem State.setPeer_slots (s : State) (r : RingId) (p : PeerRing) : (s.setPeer r p).slots = s.slots := by cases r <;> rfl
@[simp] theorem State.setPeer_nextAddr (s : State) (r : RingId) (p : PeerRing) : (s.setPeer r p).nextAddr = s.nextAddr := by cases r <;> rfl
@[simp] theorem State.setPeer_stage (s : State) (r : RingId) (p : PeerRing) : (s.setPeer r p).stage = s.stage := by cases r <;> rfl
@[simp] theorem State.setPeer_mem (s : State) (r : RingId) (p : PeerRing) : (s.setPeer r p).mem = s.mem := by cases r <;> rfl
@[simp] theorem State.setPeer_history (s : State) (r : RingId) (p : PeerRing) : (s.setPeer r p).history = s.history := by cases r <;> rfl
@[simp] theorem State.setPeer_verdicts (s : State) (r : RingId) (p : PeerRing) : (s.setPeer r p).verdicts = s.verdicts := by cases r <;> rfl
@[simp] theorem State.setPeer_env (s : State) (r : RingId) (p : PeerRing) : (s.setPeer r p).env = s.env := by cases r <;> rfl
@[simp] theorem State.setPeer_reads (s : State) (r : RingId) (p : PeerRing) : (s.setPeer r p).reads = s.reads := by cases r <;> rfl

@[simp] theorem ghostTake_cfg (s : State) (r : RingId) (d : Nat) : (ghostTake r d s).cfg = s.cfg := by cases r <;> rfl
@[simp] theorem ghostTake_arg0 (s : State) (r : RingId) (d : Nat) : (ghostTake r d s).arg0 = s.arg0 := by cases r <;> rfl
@[simp] theorem ghostTake_arg1 (s : State) (r : RingId) (d : Nat) : (ghostTake r d s).arg1 = s.arg1 := by cases r <;> rfl
@[simp] theorem ghostTake_result (s : State) (r : RingId) (d : Nat) : (ghostTake r d s).result = s.result := by cases r <;> rfl
@[simp] theorem ghostTake_seq (s : State) (r : RingId) (d : Nat) : (ghostTake r d s).seq = s.seq := by cases r <;> rfl
@[simp] theorem ghostTake_status (s : State) (r : RingId) (d : Nat) : (ghostTake r d s).status = s.status := by cases r <;> rfl
@[simp] theorem ghostTake_txKickCnt (s : State) (r : RingId) (d : Nat) : (ghostTake r d s).txKickCnt = s.txKickCnt := by cases r <;> rfl
@[simp] theorem ghostTake_rxKickCnt (s : State) (r : RingId) (d : Nat) : (ghostTake r d s).rxKickCnt = s.rxKickCnt := by cases r <;> rfl
@[simp] theorem ghostTake_dropCnt (s : State) (r : RingId) (d : Nat) : (ghostTake r d s).dropCnt = s.dropCnt := by cases r <;> rfl
@[simp] theorem ghostTake_slots (s : State) (r : RingId) (d : Nat) : (ghostTake r d s).slots = s.slots := by cases r <;> rfl
@[simp] theorem ghostTake_nextAddr (s : State) (r : RingId) (d : Nat) : (ghostTake r d s).nextAddr = s.nextAddr := by cases r <;> rfl
@[simp] theorem ghostTake_stage (s : State) (r : RingId) (d : Nat) : (ghostTake r d s).stage = s.stage := by cases r <;> rfl
@[simp] theorem ghostTake_mem (s : State) (r : RingId) (d : Nat) : (ghostTake r d s).mem = s.mem := by cases r <;> rfl
@[simp] theorem ghostTake_history (s : State) (r : RingId) (d : Nat) : (ghostTake r d s).history = s.history := by cases r <;> rfl
@[simp] theorem ghostTake_verdicts (s : State) (r : RingId) (d : Nat) : (ghostTake r d s).verdicts = { s.verdicts with doubleOffer := s.verdicts.doubleOffer || (s.ring r).held.contains d } := by cases r <;> rfl
@[simp] theorem ghostTake_peerRx (s : State) (r : RingId) (d : Nat) : (ghostTake r d s).peerRx = s.peerRx := by cases r <;> rfl
@[simp] theorem ghostTake_peerTx (s : State) (r : RingId) (d : Nat) : (ghostTake r d s).peerTx = s.peerTx := by cases r <;> rfl
@[simp] theorem ghostTake_peerWrote (s : State) (r : RingId) (d : Nat) : (ghostTake r d s).peerWrote = s.peerWrote := by cases r <;> rfl
@[simp] theorem ghostTake_env (s : State) (r : RingId) (d : Nat) : (ghostTake r d s).env = s.env := by cases r <;> rfl
@[simp] theorem ghostTake_reads (s : State) (r : RingId) (d : Nat) : (ghostTake r d s).reads = s.reads := by cases r <;> rfl

@[simp] theorem ghostRelease_cfg (s : State) (r : RingId) (d : Nat) : (ghostRelease r d s).cfg = s.cfg := by cases r <;> rfl
@[simp] theorem ghostRelease_arg0 (s : State) (r : RingId) (d : Nat) : (ghostRelease r d s).arg0 = s.arg0 := by cases r <;> rfl
@[simp] theorem ghostRelease_arg1 (s : State) (r : RingId) (d : Nat) : (ghostRelease r d s).arg1 = s.arg1 := by cases r <;> rfl
@[simp] theorem ghostRelease_result (s : State) (r : RingId) (d : Nat) : (ghostRelease r d s).result = s.result := by cases r <;> rfl
@[simp] theorem ghostRelease_seq (s : State) (r : RingId) (d : Nat) : (ghostRelease r d s).seq = s.seq := by cases r <;> rfl
@[simp] theorem ghostRelease_status (s : State) (r : RingId) (d : Nat) : (ghostRelease r d s).status = s.status := by cases r <;> rfl
@[simp] theorem ghostRelease_txKickCnt (s : State) (r : RingId) (d : Nat) : (ghostRelease r d s).txKickCnt = s.txKickCnt := by cases r <;> rfl
@[simp] theorem ghostRelease_rxKickCnt (s : State) (r : RingId) (d : Nat) : (ghostRelease r d s).rxKickCnt = s.rxKickCnt := by cases r <;> rfl
@[simp] theorem ghostRelease_dropCnt (s : State) (r : RingId) (d : Nat) : (ghostRelease r d s).dropCnt = s.dropCnt := by cases r <;> rfl
@[simp] theorem ghostRelease_slots (s : State) (r : RingId) (d : Nat) : (ghostRelease r d s).slots = s.slots := by cases r <;> rfl
@[simp] theorem ghostRelease_nextAddr (s : State) (r : RingId) (d : Nat) : (ghostRelease r d s).nextAddr = s.nextAddr := by cases r <;> rfl
@[simp] theorem ghostRelease_stage (s : State) (r : RingId) (d : Nat) : (ghostRelease r d s).stage = s.stage := by cases r <;> rfl
@[simp] theorem ghostRelease_mem (s : State) (r : RingId) (d : Nat) : (ghostRelease r d s).mem = s.mem := by cases r <;> rfl
@[simp] theorem ghostRelease_history (s : State) (r : RingId) (d : Nat) : (ghostRelease r d s).history = s.history := by cases r <;> rfl
@[simp] theorem ghostRelease_verdicts (s : State) (r : RingId) (d : Nat) : (ghostRelease r d s).verdicts = s.verdicts := by cases r <;> rfl
@[simp] theorem ghostRelease_peerRx (s : State) (r : RingId) (d : Nat) : (ghostRelease r d s).peerRx = s.peerRx := by cases r <;> rfl
@[simp] theorem ghostRelease_peerTx (s : State) (r : RingId) (d : Nat) : (ghostRelease r d s).peerTx = s.peerTx := by cases r <;> rfl
@[simp] theorem ghostRelease_peerWrote (s : State) (r : RingId) (d : Nat) : (ghostRelease r d s).peerWrote = s.peerWrote := by cases r <;> rfl
@[simp] theorem ghostRelease_env (s : State) (r : RingId) (d : Nat) : (ghostRelease r d s).env = s.env := by cases r <;> rfl
@[simp] theorem ghostRelease_reads (s : State) (r : RingId) (d : Nat) : (ghostRelease r d s).reads = s.reads := by cases r <;> rfl

@[simp] theorem advanceLastAvail_cfg (s : State) (r : RingId) : (advanceLastAvail r s).cfg = s.cfg := by cases r <;> rfl
@[simp] theorem advanceLastAvail_arg0 (s : State) (r : RingId) : (advanceLastAvail r s).arg0 = s.arg0 := by cases r <;> rfl
@[simp] theorem advanceLastAvail_arg1 (s : State) (r : RingId) : (advanceLastAvail r s).arg1 = s.arg1 := by cases r <;> rfl
@[simp] theorem advanceLastAvail_result (s : State) (r : RingId) : (advanceLastAvail r s).result = s.result := by cases r <;> rfl
@[simp] theorem advanceLastAvail_seq (s : State) (r : RingId) : (advanceLastAvail r s).seq = s.seq := by cases r <;> rfl
@[simp] theorem advanceLastAvail_status (s : State) (r : RingId) : (advanceLastAvail r s).status = s.status := by cases r <;> rfl
@[simp] theorem advanceLastAvail_txKickCnt (s : State) (r : RingId) : (advanceLastAvail r s).txKickCnt = s.txKickCnt := by cases r <;> rfl
@[simp] theorem advanceLastAvail_rxKickCnt (s : State) (r : RingId) : (advanceLastAvail r s).rxKickCnt = s.rxKickCnt := by cases r <;> rfl
@[simp] theorem advanceLastAvail_dropCnt (s : State) (r : RingId) : (advanceLastAvail r s).dropCnt = s.dropCnt := by cases r <;> rfl
@[simp] theorem advanceLastAvail_slots (s : State) (r : RingId) : (advanceLastAvail r s).slots = s.slots := by cases r <;> rfl
@[simp] theorem advanceLastAvail_nextAddr (s : State) (r : RingId) : (advanceLastAvail r s).nextAddr = s.nextAddr := by cases r <;> rfl
@[simp] theorem advanceLastAvail_stage (s : State) (r : RingId) : (advanceLastAvail r s).stage = s.stage := by cases r <;> rfl
@[simp] theorem advanceLastAvail_mem (s : State) (r : RingId) : (advanceLastAvail r s).mem = s.mem := by cases r <;> rfl
@[simp] theorem advanceLastAvail_history (s : State) (r : RingId) : (advanceLastAvail r s).history = s.history := by cases r <;> rfl
@[simp] theorem advanceLastAvail_verdicts (s : State) (r : RingId) : (advanceLastAvail r s).verdicts = s.verdicts := by cases r <;> rfl
@[simp] theorem advanceLastAvail_peerRx (s : State) (r : RingId) : (advanceLastAvail r s).peerRx = s.peerRx := by cases r <;> rfl
@[simp] theorem advanceLastAvail_peerTx (s : State) (r : RingId) : (advanceLastAvail r s).peerTx = s.peerTx := by cases r <;> rfl
@[simp] theorem advanceLastAvail_peerWrote (s : State) (r : RingId) : (advanceLastAvail r s).peerWrote = s.peerWrote := by cases r <;> rfl
@[simp] theorem advanceLastAvail_env (s : State) (r : RingId) : (advanceLastAvail r s).env = s.env := by cases r <;> rfl
@[simp] theorem advanceLastAvail_reads (s : State) (r : RingId) : (advanceLastAvail r s).reads = s.reads := by cases r <;> rfl

@[simp] theorem advanceUsedHead_cfg (s : State) (r : RingId) : (advanceUsedHead r s).cfg = s.cfg := by cases r <;> rfl
@[simp] theorem advanceUsedHead_arg0 (s : State) (r : RingId) : (advanceUsedHead r s).arg0 = s.arg0 := by cases r <;> rfl
@[simp] theorem advanceUsedHead_arg1 (s : State) (r : RingId) : (advanceUsedHead r s).arg1 = s.arg1 := by cases r <;> rfl
@[simp] theorem advanceUsedHead_result (s : State) (r : RingId) : (advanceUsedHead r s).result = s.result := by cases r <;> rfl
@[simp] theorem advanceUsedHead_seq (s : State) (r : RingId) : (advanceUsedHead r s).seq = s.seq := by cases r <;> rfl
@[simp] theorem advanceUsedHead_status (s : State) (r : RingId) : (advanceUsedHead r s).status = s.status := by cases r <;> rfl
@[simp] theorem advanceUsedHead_txKickCnt (s : State) (r : RingId) : (advanceUsedHead r s).txKickCnt = s.txKickCnt := by cases r <;> rfl
@[simp] theorem advanceUsedHead_rxKickCnt (s : State) (r : RingId) : (advanceUsedHead r s).rxKickCnt = s.rxKickCnt := by cases r <;> rfl
@[simp] theorem advanceUsedHead_dropCnt (s : State) (r : RingId) : (advanceUsedHead r s).dropCnt = s.dropCnt := by cases r <;> rfl
@[simp] theorem advanceUsedHead_slots (s : State) (r : RingId) : (advanceUsedHead r s).slots = s.slots := by cases r <;> rfl
@[simp] theorem advanceUsedHead_nextAddr (s : State) (r : RingId) : (advanceUsedHead r s).nextAddr = s.nextAddr := by cases r <;> rfl
@[simp] theorem advanceUsedHead_stage (s : State) (r : RingId) : (advanceUsedHead r s).stage = s.stage := by cases r <;> rfl
@[simp] theorem advanceUsedHead_mem (s : State) (r : RingId) : (advanceUsedHead r s).mem = s.mem := by cases r <;> rfl
@[simp] theorem advanceUsedHead_history (s : State) (r : RingId) : (advanceUsedHead r s).history = s.history := by cases r <;> rfl
@[simp] theorem advanceUsedHead_verdicts (s : State) (r : RingId) : (advanceUsedHead r s).verdicts = s.verdicts := by cases r <;> rfl
@[simp] theorem advanceUsedHead_peerRx (s : State) (r : RingId) : (advanceUsedHead r s).peerRx = s.peerRx := by cases r <;> rfl
@[simp] theorem advanceUsedHead_peerTx (s : State) (r : RingId) : (advanceUsedHead r s).peerTx = s.peerTx := by cases r <;> rfl
@[simp] theorem advanceUsedHead_peerWrote (s : State) (r : RingId) : (advanceUsedHead r s).peerWrote = s.peerWrote := by cases r <;> rfl
@[simp] theorem advanceUsedHead_env (s : State) (r : RingId) : (advanceUsedHead r s).env = s.env := by cases r <;> rfl
@[simp] theorem advanceUsedHead_reads (s : State) (r : RingId) : (advanceUsedHead r s).reads = s.reads := by cases r <;> rfl

@[simp] theorem initRing_cfg (s : State) (r : RingId) (base : Word) : (initRing r base s).cfg = s.cfg := by cases r <;> rfl
@[simp] theorem initRing_arg0 (s : State) (r : RingId) (base : Word) : (initRing r base s).arg0 = s.arg0 := by cases r <;> rfl
@[simp] theorem initRing_arg1 (s : State) (r : RingId) (base : Word) : (initRing r base s).arg1 = s.arg1 := by cases r <;> rfl
@[simp] theorem initRing_result (s : State) (r : RingId) (base : Word) : (initRing r base s).result = s.result := by cases r <;> rfl
@[simp] theorem initRing_seq (s : State) (r : RingId) (base : Word) : (initRing r base s).seq = s.seq := by cases r <;> rfl
@[simp] theorem initRing_status (s : State) (r : RingId) (base : Word) : (initRing r base s).status = s.status := by cases r <;> rfl
@[simp] theorem initRing_txKickCnt (s : State) (r : RingId) (base : Word) : (initRing r base s).txKickCnt = s.txKickCnt := by cases r <;> rfl
@[simp] theorem initRing_rxKickCnt (s : State) (r : RingId) (base : Word) : (initRing r base s).rxKickCnt = s.rxKickCnt := by cases r <;> rfl
@[simp] theorem initRing_dropCnt (s : State) (r : RingId) (base : Word) : (initRing r base s).dropCnt = s.dropCnt := by cases r <;> rfl
@[simp] theorem initRing_slots (s : State) (r : RingId) (base : Word) : (initRing r base s).slots = s.slots := by cases r <;> rfl
@[simp] theorem initRing_nextAddr (s : State) (r : RingId) (base : Word) : (initRing r base s).nextAddr = s.nextAddr := by cases r <;> rfl
@[simp] theorem initRing_stage (s : State) (r : RingId) (base : Word) : (initRing r base s).stage = s.stage := by cases r <;> rfl
@[simp] theorem initRing_mem (s : State) (r : RingId) (base : Word) : (initRing r base s).mem = s.mem := by cases r <;> rfl
@[simp] theorem initRing_history (s : State) (r : RingId) (base : Word) : (initRing r base s).history = s.history := by cases r <;> rfl
@[simp] theorem initRing_verdicts (s : State) (r : RingId) (base : Word) : (initRing r base s).verdicts = s.verdicts := by cases r <;> rfl
@[simp] theorem initRing_env (s : State) (r : RingId) (base : Word) : (initRing r base s).env = s.env := by cases r <;> rfl
@[simp] theorem initRing_reads (s : State) (r : RingId) (base : Word) : (initRing r base s).reads = s.reads := by cases r <;> rfl

/-! What RING_INIT and the peer's accesses leave alone. -/

@[simp] theorem State.peerAfterInit_cfg (s : State) (r : RingId) : (s.peerAfterInit r).cfg = s.cfg := by cases r <;> rfl
@[simp] theorem State.peerAfterInit_arg0 (s : State) (r : RingId) : (s.peerAfterInit r).arg0 = s.arg0 := by cases r <;> rfl
@[simp] theorem State.peerAfterInit_arg1 (s : State) (r : RingId) : (s.peerAfterInit r).arg1 = s.arg1 := by cases r <;> rfl
@[simp] theorem State.peerAfterInit_result (s : State) (r : RingId) : (s.peerAfterInit r).result = s.result := by cases r <;> rfl
@[simp] theorem State.peerAfterInit_seq (s : State) (r : RingId) : (s.peerAfterInit r).seq = s.seq := by cases r <;> rfl
@[simp] theorem State.peerAfterInit_status (s : State) (r : RingId) : (s.peerAfterInit r).status = s.status := by cases r <;> rfl
@[simp] theorem State.peerAfterInit_txKickCnt (s : State) (r : RingId) : (s.peerAfterInit r).txKickCnt = s.txKickCnt := by cases r <;> rfl
@[simp] theorem State.peerAfterInit_rxKickCnt (s : State) (r : RingId) : (s.peerAfterInit r).rxKickCnt = s.rxKickCnt := by cases r <;> rfl
@[simp] theorem State.peerAfterInit_dropCnt (s : State) (r : RingId) : (s.peerAfterInit r).dropCnt = s.dropCnt := by cases r <;> rfl
@[simp] theorem State.peerAfterInit_slots (s : State) (r : RingId) : (s.peerAfterInit r).slots = s.slots := by cases r <;> rfl
@[simp] theorem State.peerAfterInit_nextAddr (s : State) (r : RingId) : (s.peerAfterInit r).nextAddr = s.nextAddr := by cases r <;> rfl
@[simp] theorem State.peerAfterInit_stage (s : State) (r : RingId) : (s.peerAfterInit r).stage = s.stage := by cases r <;> rfl
@[simp] theorem State.peerAfterInit_mem (s : State) (r : RingId) : (s.peerAfterInit r).mem = s.mem := by cases r <;> rfl
@[simp] theorem State.peerAfterInit_history (s : State) (r : RingId) : (s.peerAfterInit r).history = s.history := by cases r <;> rfl
@[simp] theorem State.peerAfterInit_verdicts (s : State) (r : RingId) : (s.peerAfterInit r).verdicts = s.verdicts := by cases r <;> rfl
@[simp] theorem State.peerAfterInit_env (s : State) (r : RingId) : (s.peerAfterInit r).env = s.env := by cases r <;> rfl
@[simp] theorem State.peerAfterInit_reads (s : State) (r : RingId) : (s.peerAfterInit r).reads = s.reads := by cases r <;> rfl
@[simp] theorem State.peerAfterInit_rx (s : State) (r : RingId) : (s.peerAfterInit r).rx = s.rx := by cases r <;> rfl
@[simp] theorem State.peerAfterInit_tx (s : State) (r : RingId) : (s.peerAfterInit r).tx = s.tx := by cases r <;> rfl

@[simp] theorem State.afterPeerWrite_cfg (s : State) (a : Nat) (w : Width) (v : Word) : (s.afterPeerWrite a w v).cfg = s.cfg := rfl
@[simp] theorem State.afterPeerWrite_arg0 (s : State) (a : Nat) (w : Width) (v : Word) : (s.afterPeerWrite a w v).arg0 = s.arg0 := rfl
@[simp] theorem State.afterPeerWrite_arg1 (s : State) (a : Nat) (w : Width) (v : Word) : (s.afterPeerWrite a w v).arg1 = s.arg1 := rfl
@[simp] theorem State.afterPeerWrite_result (s : State) (a : Nat) (w : Width) (v : Word) : (s.afterPeerWrite a w v).result = s.result := rfl
@[simp] theorem State.afterPeerWrite_seq (s : State) (a : Nat) (w : Width) (v : Word) : (s.afterPeerWrite a w v).seq = s.seq := rfl
@[simp] theorem State.afterPeerWrite_status (s : State) (a : Nat) (w : Width) (v : Word) : (s.afterPeerWrite a w v).status = s.status := rfl
@[simp] theorem State.afterPeerWrite_txKickCnt (s : State) (a : Nat) (w : Width) (v : Word) : (s.afterPeerWrite a w v).txKickCnt = s.txKickCnt := rfl
@[simp] theorem State.afterPeerWrite_rxKickCnt (s : State) (a : Nat) (w : Width) (v : Word) : (s.afterPeerWrite a w v).rxKickCnt = s.rxKickCnt := rfl
@[simp] theorem State.afterPeerWrite_dropCnt (s : State) (a : Nat) (w : Width) (v : Word) : (s.afterPeerWrite a w v).dropCnt = s.dropCnt := rfl
@[simp] theorem State.afterPeerWrite_slots (s : State) (a : Nat) (w : Width) (v : Word) : (s.afterPeerWrite a w v).slots = s.slots := rfl
@[simp] theorem State.afterPeerWrite_nextAddr (s : State) (a : Nat) (w : Width) (v : Word) : (s.afterPeerWrite a w v).nextAddr = s.nextAddr := rfl
@[simp] theorem State.afterPeerWrite_stage (s : State) (a : Nat) (w : Width) (v : Word) : (s.afterPeerWrite a w v).stage = s.stage := rfl
@[simp] theorem State.afterPeerWrite_verdicts (s : State) (a : Nat) (w : Width) (v : Word) : (s.afterPeerWrite a w v).verdicts = s.verdicts := rfl
@[simp] theorem State.afterPeerWrite_env (s : State) (a : Nat) (w : Width) (v : Word) : (s.afterPeerWrite a w v).env = s.env := rfl
@[simp] theorem State.afterPeerWrite_reads (s : State) (a : Nat) (w : Width) (v : Word) : (s.afterPeerWrite a w v).reads = s.reads := rfl
@[simp] theorem State.afterPeerWrite_rx (s : State) (a : Nat) (w : Width) (v : Word) : (s.afterPeerWrite a w v).rx = s.rx := rfl
@[simp] theorem State.afterPeerWrite_tx (s : State) (a : Nat) (w : Width) (v : Word) : (s.afterPeerWrite a w v).tx = s.tx := rfl

@[simp] theorem State.afterPeerRead_cfg (s : State) (a : Nat) (w : Width) : (s.afterPeerRead a w).cfg = s.cfg := rfl
@[simp] theorem State.afterPeerRead_arg0 (s : State) (a : Nat) (w : Width) : (s.afterPeerRead a w).arg0 = s.arg0 := rfl
@[simp] theorem State.afterPeerRead_arg1 (s : State) (a : Nat) (w : Width) : (s.afterPeerRead a w).arg1 = s.arg1 := rfl
@[simp] theorem State.afterPeerRead_result (s : State) (a : Nat) (w : Width) : (s.afterPeerRead a w).result = s.result := rfl
@[simp] theorem State.afterPeerRead_seq (s : State) (a : Nat) (w : Width) : (s.afterPeerRead a w).seq = s.seq := rfl
@[simp] theorem State.afterPeerRead_status (s : State) (a : Nat) (w : Width) : (s.afterPeerRead a w).status = s.status := rfl
@[simp] theorem State.afterPeerRead_txKickCnt (s : State) (a : Nat) (w : Width) : (s.afterPeerRead a w).txKickCnt = s.txKickCnt := rfl
@[simp] theorem State.afterPeerRead_rxKickCnt (s : State) (a : Nat) (w : Width) : (s.afterPeerRead a w).rxKickCnt = s.rxKickCnt := rfl
@[simp] theorem State.afterPeerRead_dropCnt (s : State) (a : Nat) (w : Width) : (s.afterPeerRead a w).dropCnt = s.dropCnt := rfl
@[simp] theorem State.afterPeerRead_slots (s : State) (a : Nat) (w : Width) : (s.afterPeerRead a w).slots = s.slots := rfl
@[simp] theorem State.afterPeerRead_nextAddr (s : State) (a : Nat) (w : Width) : (s.afterPeerRead a w).nextAddr = s.nextAddr := rfl
@[simp] theorem State.afterPeerRead_stage (s : State) (a : Nat) (w : Width) : (s.afterPeerRead a w).stage = s.stage := rfl
@[simp] theorem State.afterPeerRead_verdicts (s : State) (a : Nat) (w : Width) : (s.afterPeerRead a w).verdicts = s.verdicts := rfl
@[simp] theorem State.afterPeerRead_env (s : State) (a : Nat) (w : Width) : (s.afterPeerRead a w).env = s.env := rfl
@[simp] theorem State.afterPeerRead_reads (s : State) (a : Nat) (w : Width) : (s.afterPeerRead a w).reads = s.reads := rfl
@[simp] theorem State.afterPeerRead_rx (s : State) (a : Nat) (w : Width) : (s.afterPeerRead a w).rx = s.rx := rfl
@[simp] theorem State.afterPeerRead_tx (s : State) (a : Nat) (w : Width) : (s.afterPeerRead a w).tx = s.tx := rfl

/-! The ring contexts through `ring`. -/

@[simp] theorem State.setRing_ring (s : State) (r : RingId) (c : RingCtx) : (s.setRing r c).ring r = c := by
  cases r <;> rfl

theorem State.setRing_ring_ne (s : State) {r q : RingId} (c : RingCtx) (h : q ≠ r) :
    (s.setRing r c).ring q = s.ring q := by
  cases r <;> cases q <;> first | rfl | exact absurd rfl h

@[simp] theorem State.setPeer_peer (s : State) (r : RingId) (p : PeerRing) : (s.setPeer r p).peer r = p := by
  cases r <;> rfl

theorem State.setPeer_peer_ne (s : State) {r q : RingId} (p : PeerRing) (h : q ≠ r) :
    (s.setPeer r p).peer q = s.peer q := by
  cases r <;> cases q <;> first | rfl | exact absurd rfl h

@[simp] theorem State.setPeer_ring (s : State) (r q : RingId) (p : PeerRing) : (s.setPeer r p).ring q = s.ring q := by
  cases r <;> cases q <;> rfl

@[simp] theorem State.setRing_peer (s : State) (r q : RingId) (c : RingCtx) : (s.setRing r c).peer q = s.peer q := by
  cases r <;> cases q <;> rfl

@[simp] theorem State.emit_ring (s : State) (e : Event) (q : RingId) : (s.emit e).ring q = s.ring q := by
  cases q <;> rfl

@[simp] theorem State.emit_peer (s : State) (e : Event) (q : RingId) : (s.emit e).peer q = s.peer q := by
  cases q <;> rfl

@[simp] theorem State.dropCommand_ring (s : State) (q : RingId) : (s.dropCommand).ring q = s.ring q := by
  cases q <;> rfl

@[simp] theorem State.dropCommand_peer (s : State) (q : RingId) : (s.dropCommand).peer q = s.peer q := by
  cases q <;> rfl

@[simp] theorem State.accept_ring (s : State) (w : Word) (q : RingId) : (s.accept w).ring q = s.ring q := by
  cases q <;> rfl

@[simp] theorem State.accept_peer (s : State) (w : Word) (q : RingId) : (s.accept w).peer q = s.peer q := by
  cases q <;> rfl

@[simp] theorem State.complete_ring (s : State) (v : Word) (e : ErrCode) (q : RingId) : (s.complete v e).ring q = s.ring q := by
  cases q <;> rfl

@[simp] theorem State.complete_peer (s : State) (v : Word) (e : ErrCode) (q : RingId) : (s.complete v e).peer q = s.peer q := by
  cases q <;> rfl

@[simp] theorem State.takeFault_ring (s : State) (c : FaultCode) (q : RingId) : (s.takeFault c).ring q = s.ring q := by
  cases q <;> rfl

@[simp] theorem State.takeFault_peer (s : State) (c : FaultCode) (q : RingId) : (s.takeFault c).peer q = s.peer q := by
  cases q <;> rfl

@[simp] theorem State.setPhase_ring (s : State) (p : Phase) (q : RingId) : (s.setPhase p).ring q = s.ring q := by
  cases q <;> rfl

@[simp] theorem State.setPhase_peer (s : State) (p : Phase) (q : RingId) : (s.setPhase p).peer q = s.peer q := by
  cases q <;> rfl

@[simp] theorem State.setSlot_ring (s : State) (i : Nat) (x : Slot) (q : RingId) : (s.setSlot i x).ring q = s.ring q := by
  cases q <;> rfl

@[simp] theorem State.setSlot_peer (s : State) (i : Nat) (x : Slot) (q : RingId) : (s.setSlot i x).peer q = s.peer q := by
  cases q <;> rfl

@[simp] theorem State.storeBy_ring (s : State) (who : Agent) (a : Nat) (w : Width) (v : Nat) (q : RingId) : (s.storeBy who a w v).ring q = s.ring q := by
  cases q <;> rfl

@[simp] theorem State.storeBy_peer (s : State) (who : Agent) (a : Nat) (w : Width) (v : Nat) (q : RingId) : (s.storeBy who a w v).peer q = s.peer q := by
  cases q <;> rfl

@[simp] theorem State.loadBy_ring (s : State) (who : Agent) (a : Nat) (w : Width) (q : RingId) : (s.loadBy who a w).ring q = s.ring q := by
  cases q <;> rfl

@[simp] theorem State.loadBy_peer (s : State) (who : Agent) (a : Nat) (w : Width) (q : RingId) : (s.loadBy who a w).peer q = s.peer q := by
  cases q <;> rfl

@[simp] theorem State.notePeerOverrun_ring (s : State) (b : Bool) (q : RingId) : (s.notePeerOverrun b).ring q = s.ring q := by
  cases q <;> rfl

@[simp] theorem State.notePeerOverrun_peer (s : State) (b : Bool) (q : RingId) : (s.notePeerOverrun b).peer q = s.peer q := by
  cases q <;> rfl

@[simp] theorem State.noteDoubleOffer_ring (s : State) (b : Bool) (q : RingId) : (s.noteDoubleOffer b).ring q = s.ring q := by
  cases q <;> rfl

@[simp] theorem State.noteDoubleOffer_peer (s : State) (b : Bool) (q : RingId) : (s.noteDoubleOffer b).peer q = s.peer q := by
  cases q <;> rfl

@[simp] theorem State.notePublishNotHeld_ring (s : State) (b : Bool) (q : RingId) : (s.notePublishNotHeld b).ring q = s.ring q := by
  cases q <;> rfl

@[simp] theorem State.notePublishNotHeld_peer (s : State) (b : Bool) (q : RingId) : (s.notePublishNotHeld b).peer q = s.peer q := by
  cases q <;> rfl

@[simp] theorem setStage_ring (s : State) (bs : List Byte) (q : RingId) : (setStage bs s).ring q = s.ring q := by
  cases q <;> rfl

@[simp] theorem setStage_peer (s : State) (bs : List Byte) (q : RingId) : (setStage bs s).peer q = s.peer q := by
  cases q <;> rfl

@[simp] theorem setTrunc_ring (s : State) (q : RingId) : (setTrunc s).ring q = s.ring q := by
  cases q <;> rfl

@[simp] theorem setTrunc_peer (s : State) (q : RingId) : (setTrunc s).peer q = s.peer q := by
  cases q <;> rfl

@[simp] theorem announceSlot_ring (s : State) (i : Nat) (nm : List Byte) (q : RingId) : (announceSlot i nm s).ring q = s.ring q := by
  cases q <;> rfl

@[simp] theorem announceSlot_peer (s : State) (i : Nat) (nm : List Byte) (q : RingId) : (announceSlot i nm s).peer q = s.peer q := by
  cases q <;> rfl

theorem ghostTake_ring (s : State) (r : RingId) (d : Nat) :
    (ghostTake r d s).ring r = { s.ring r with held := heldInsert d (s.ring r).held } := by
  cases r <;> rfl

theorem advanceLastAvail_ring (s : State) (r : RingId) :
    (advanceLastAvail r s).ring r = { s.ring r with lastAvail := (s.ring r).lastAvail + 1 } := by
  cases r <;> rfl

theorem ghostRelease_ring (s : State) (r : RingId) (d : Nat) :
    (ghostRelease r d s).ring r = { s.ring r with held := heldErase d (s.ring r).held } := by
  cases r <;> rfl

theorem advanceUsedHead_ring (s : State) (r : RingId) :
    (advanceUsedHead r s).ring r = { s.ring r with usedHead := (s.ring r).usedHead + 1 } := by
  cases r <;> rfl

theorem ghostTake_ring_ne (s : State) {r q : RingId} (d : Nat) (h : q ≠ r) : (ghostTake r d s).ring q = s.ring q := by
  cases r <;> cases q <;> first | rfl | exact absurd rfl h

theorem advanceLastAvail_ring_ne (s : State) {r q : RingId} (h : q ≠ r) :
    (advanceLastAvail r s).ring q = s.ring q := by
  cases r <;> cases q <;> first | rfl | exact absurd rfl h

theorem ghostRelease_ring_ne (s : State) {r q : RingId} (d : Nat) (h : q ≠ r) :
    (ghostRelease r d s).ring q = s.ring q := by
  cases r <;> cases q <;> first | rfl | exact absurd rfl h

theorem advanceUsedHead_ring_ne (s : State) {r q : RingId} (h : q ≠ r) : (advanceUsedHead r s).ring q = s.ring q := by
  cases r <;> cases q <;> first | rfl | exact absurd rfl h

/-! What reset keeps (R801, R802), and what it sets (R190). -/

@[simp] theorem State.blockReset_cfg (s : State) : s.blockReset.cfg = s.cfg := rfl

@[simp] theorem State.blockReset_mem (s : State) : s.blockReset.mem = s.mem := rfl

@[simp] theorem State.blockReset_env (s : State) : s.blockReset.env = s.env := rfl

@[simp] theorem State.blockReset_reads (s : State) : s.blockReset.reads = s.reads := rfl

@[simp] theorem State.blockReset_peer (s : State) (q : RingId) : s.blockReset.peer q = s.peer q := by
  cases q <;> rfl

@[simp] theorem State.blockReset_ring (s : State) (q : RingId) : s.blockReset.ring q = .off := by
  cases q <;> rfl

@[simp] theorem State.blockReset_slots (s : State) :
    s.blockReset.slots = List.replicate s.cfg.maxChannels .free := rfl

@[simp] theorem State.blockReset_nextAddr (s : State) : s.blockReset.nextAddr = s.cfg.localAddrBase := rfl

@[simp] theorem State.blockReset_seq (s : State) : s.blockReset.seq = .idle := rfl

@[simp] theorem State.blockReset_status (s : State) :
    s.blockReset.status = ⟨false, false, .ok, .none, false⟩ := rfl

@[simp] theorem State.blockReset_stage (s : State) : s.blockReset.stage = [] := rfl

/-! Every admission test depends on the configuration alone. -/

theorem State.admits_congr {s t : State} (h : t.cfg = s.cfg) (a n : Nat) : t.admits a n = s.admits a n := by
  simp [State.admits, h]

end Sys2Proof.Machine
end

