-- ==== Sys2Proof/Laws/Run.lean ====
section
/-! SUPPORT. Running pseudocode in a state whose schedule leaves the block alone: one equation per primitive and per
shared operation (spec/00_scope.md R12, spec/40_ring_engine.md R405, R406, R410), which later proofs rewrite with
instead of unfolding. -/

namespace Sys2Proof.Machine

/-! Sequencing. -/

theorem Prog.bind_ok {α β : Type} {p : Prog α} {f : α → Prog β} {s t : State} {a : α} (h : p s = .ok (a, t)) :
    (p >>= f) s = f a t := by
  simp only [bind, StateT.bind, h, Except.bind]

theorem Prog.bind_error {α β : Type} {p : Prog α} {f : α → Prog β} {s : State} {e : Stop} (h : p s = .error e) :
    (p >>= f) s = .error e := by
  simp only [bind, StateT.bind, h, Except.bind]

@[simp] theorem Prog.pure_apply {α : Type} (a : α) (s : State) : (pure a : Prog α) s = .ok (a, s) := rfl

theorem Prog.outcome_ok {p : Prog Unit} {s t : State} (h : p s = .ok ((), t)) : p.outcome s = .next t := by
  simp only [Prog.outcome, h]

theorem Prog.outcome_halt {p : Prog Unit} {s t : State} (h : p s = .error (.halt t)) : p.outcome s = .next t := by
  simp only [Prog.outcome, h]

/-! Quiet schedules. -/

theorem State.quiet_congr {s t : State} (h : t.env = s.env) : t.quiet = s.quiet := by
  simp only [State.quiet, h]

theorem yield_quiet {s : State} (h : s.quiet = true) : yield s = .ok ((), s) := by
  unfold State.quiet at h
  unfold yield
  split at h
  · next he => rw [he]; rfl
  · next he => rw [he]; rfl
  · cases h
  · cases h

theorem act_quiet {s : State} {f : State → State} (h : s.quiet = true) : act f s = .ok ((), f s) := by
  unfold act
  rw [Prog.bind_ok (yield_quiet h)]
  rfl

@[simp] theorem ghost_apply (f : State → State) (s : State) : ghost f s = .ok ((), f s) := rfl

@[simp] theorem enterPhase_apply (p : Phase) (s : State) : enterPhase p s = .ok ((), s.setPhase p) := rfl

@[simp] theorem getRing_apply (r : RingId) (s : State) : getRing r s = .ok (s.ring r, s) := rfl

@[simp] theorem getCfg_apply (s : State) : getCfg s = .ok (s.cfg, s) := rfl

@[simp] theorem getSlots_apply (s : State) : getSlots s = .ok (s.slots, s) := rfl

@[simp] theorem getStage_apply (s : State) : getStage s = .ok (s.stage, s) := rfl

@[simp] theorem operand0_apply (s : State) : operand0 s = .ok (s.seq.latched.arg0, s) := rfl

@[simp] theorem operand1_apply (s : State) : operand1 s = .ok (s.seq.latched.arg1, s) := rfl

@[simp] theorem hold_apply {α : Type} (s : State) : (hold : Prog α) s = .error (.halt s) := rfl

theorem raiseFault_quiet {α : Type} {s : State} (c : FaultCode) (h : s.quiet = true) :
    (raiseFault c : Prog α) s = .error (.halt (s.takeFault c)) := by
  unfold raiseFault
  rw [Prog.bind_ok (yield_quiet h)]

theorem failWith_quiet {α : Type} {s : State} (c : ErrCode) (h : s.quiet = true) :
    (failWith c : Prog α) s = .error (.halt (s.complete 0 c)) := by
  unfold failWith
  rw [Prog.bind_ok (yield_quiet h)]

theorem finish_quiet {s : State} (v : Word) (h : s.quiet = true) : finish v s = .ok ((), s.complete v .ok) :=
  act_quiet h

theorem emitEvent_quiet {s : State} (e : Event) (h : s.quiet = true) : emitEvent e s = .ok ((), s.emit e) :=
  act_quiet h

theorem barrier_quiet {s : State} (h : s.quiet = true) : barrier s = .ok ((), s.emit .barrier) :=
  act_quiet h

theorem memRead_quiet {s : State} {a : Nat} {w : Width} (h : s.quiet = true) :
    memRead a w s =
      if s.admits a w.bytes then .ok (s.mem.readLE a w.bytes, s.loadBy .block a w)
      else .error (.halt (s.takeFault .busError)) := by
  unfold memRead
  rw [Prog.bind_ok (yield_quiet h)]

theorem memWrite_quiet {s : State} {a v : Nat} {w : Width} (h : s.quiet = true) :
    memWrite a w v s =
      if s.admits a w.bytes then .ok ((), s.storeBy .block a w v)
      else .error (.halt (s.takeFault .busError)) := by
  unfold memWrite
  rw [Prog.bind_ok (yield_quiet h)]

theorem memRead_backed {s : State} {a : Nat} {w : Width} (h : s.quiet = true) (hb : s.admits a w.bytes = true) :
    memRead a w s = .ok (s.mem.readLE a w.bytes, s.loadBy .block a w) := by
  rw [memRead_quiet h, if_pos hb]

theorem memWrite_backed {s : State} {a v : Nat} {w : Width} (h : s.quiet = true) (hb : s.admits a w.bytes = true) :
    memWrite a w v s = .ok ((), s.storeBy .block a w v) := by
  rw [memWrite_quiet h, if_pos hb]

/-! Byte moves. -/

/-- The state after reading bytes `bs` from `a` upward. -/
def State.afterByteReads (s : State) (a : Nat) (bs : List Byte) : State :=
  { s with history := s.history ++ byteReads a bs }

/-- The state after writing bytes `bs` from `a` upward. -/
def State.afterByteWrites (s : State) (a : Nat) (bs : List Byte) : State :=
  { s with mem := s.mem.writeBytes a bs, history := s.history ++ byteWrites a bs }

theorem readBytes_backed {s : State} {a n : Nat} (h : s.quiet = true) (hb : s.backs a n) :
    readBytes a n s = .ok (s.mem.readBytes a n, s.afterByteReads a (s.mem.readBytes a n)) := by
  induction n generalizing s a with
  | zero => simp [readBytes, Memory.readBytes, State.afterByteReads, byteReads]
  | succ n ih =>
    have hq : (s.loadBy .block a .b1).quiet = true := h
    have h0 : s.admits a Width.b1.bytes = true := hb 0 (by omega)
    have hrest : (s.loadBy .block a .b1).backs (a + 1) n := by
      intro k hk
      have := hb (k + 1) (by omega)
      rw [show a + 1 + k = a + (k + 1) by omega]
      exact this
    simp only [readBytes]
    rw [Prog.bind_ok (memRead_backed h h0), Prog.bind_ok (ih hq hrest)]
    simp [Memory.readBytes, State.afterByteReads, byteReads, State.loadBy, State.emit, Width.bytes,
      Memory.readLE_one]

theorem writeBytes_backed {s : State} {a : Nat} {bs : List Byte} (h : s.quiet = true) (hb : s.backs a bs.length) :
    writeBytes a bs s = .ok ((), s.afterByteWrites a bs) := by
  induction bs generalizing s a with
  | nil => simp [writeBytes, State.afterByteWrites, Memory.writeBytes, byteWrites]
  | cons b bs ih =>
    have hq : (s.storeBy .block a .b1 b.toNat).quiet = true := h
    have h0 : s.admits a Width.b1.bytes = true := hb 0 (by simp)
    have hrest : (s.storeBy .block a .b1 b.toNat).backs (a + 1) bs.length := by
      intro k hk
      have := hb (k + 1) (by simp; omega)
      rw [show a + 1 + k = a + (k + 1) by omega]
      exact this
    have hbv : b.toNat % 256 = b.toNat := Nat.mod_eq_of_lt b.isLt
    simp only [writeBytes]
    rw [Prog.bind_ok (memWrite_backed h h0), ih hq hrest]
    simp [State.afterByteWrites, byteWrites, Memory.writeBytes, State.storeBy, Width.bytes, hbv, Memory.writeLE_one]

/-! The ring operations. -/

/-- The state after AVAIL_HEAD(r) (R405). -/
def State.afterHead (s : State) (r : RingId) : State :=
  { s with verdicts := s.headVerdicts r, history := s.history ++ [s.headEvent r] }

@[simp] theorem State.afterHead_ring (s : State) (r q : RingId) : (s.afterHead r).ring q = s.ring q := by
  cases q <;> rfl

theorem availHead_quiet {s : State} {r : RingId} (h : s.quiet = true) :
    availHead r s =
      if s.admits (s.ring r).availIdxAddr 2 then .ok (s.availIdx r, s.afterHead r)
      else .error (.halt (s.takeFault .busError)) := by
  unfold availHead
  rw [Prog.bind_ok (getRing_apply r s)]
  by_cases hb : s.admits (s.ring r).availIdxAddr 2 = true
  · rw [if_pos hb, Prog.bind_ok (memRead_backed h hb), Prog.bind_ok (ghost_apply _ _)]
    simp [State.notePeerOverrun, State.loadBy, State.emit, State.afterHead, State.headVerdicts, State.headEvent,
      State.availIdx, lead, Width.bytes]
    cases r <;> rfl
  · rw [if_neg hb]
    refine Prog.bind_error ?_
    rw [memRead_quiet h]
    exact if_neg hb

/-- The state after a TAKE(r) that returns the next entry (R406, R407). -/
def State.afterTake (s : State) (r : RingId) : State :=
  ({ s with verdicts := s.takeVerdicts r (s.nextEntry r), history := s.history ++ s.takeEvents r }).setRing r
    { s.ring r with
      lastAvail := (s.ring r).lastAvail + 1
      held := heldInsert (s.nextEntry r) (s.ring r).held }

/-- TAKE(r), whatever it finds (R406). -/
theorem take_quiet {s : State} {r : RingId} (h : s.quiet = true) :
    take r s =
      if s.admits (s.ring r).availIdxAddr 2 = false then .error (.halt (s.takeFault .busError))
      else if s.availIdx r = (s.ring r).lastAvail then .ok (none, s.afterHead r)
      else if s.admits (s.nextEntryAddr r) 2 = false then .error (.halt ((s.afterHead r).takeFault .busError))
      else if s.cfg.n ≤ s.nextEntry r then
        .error (.halt (State.takeFault .availIndexRange
          { s.afterHead r with history := s.history ++ s.takeEvents r }))
      else .ok (some (s.nextEntry r), s.afterTake r) := by
  unfold take
  have hq : (s.afterHead r).quiet = true := h
  by_cases hb : s.admits (s.ring r).availIdxAddr 2 = true
  · rw [if_neg (by simp [hb])]
    have hh : availHead r s = .ok (s.availIdx r, s.afterHead r) := by rw [availHead_quiet h, if_pos hb]
    rw [Prog.bind_ok hh, Prog.bind_ok (getRing_apply r _), State.afterHead_ring]
    by_cases he : s.availIdx r = (s.ring r).lastAvail
    · rw [if_pos he, if_pos he]; rfl
    · rw [if_neg he, if_neg he, Prog.bind_ok (getCfg_apply _)]
      have hmr : memRead ((s.ring r).availEntryAddr (slotOf (s.afterHead r).cfg.n (s.ring r).lastAvail)) .b2
          (s.afterHead r) =
          if s.admits (s.nextEntryAddr r) 2 then
            .ok (s.nextEntry r, (s.afterHead r).loadBy .block (s.nextEntryAddr r) .b2)
          else .error (.halt ((s.afterHead r).takeFault .busError)) := memRead_quiet hq
      by_cases hb2 : s.admits (s.nextEntryAddr r) 2 = true
      · rw [if_neg (by simp [hb2])]
        rw [if_pos hb2] at hmr
        rw [Prog.bind_ok hmr]
        have hq2 : ((s.afterHead r).loadBy .block (s.nextEntryAddr r) .b2).quiet = true := h
        have hev : (s.afterHead r).loadBy .block (s.nextEntryAddr r) .b2
            = { s.afterHead r with history := s.history ++ s.takeEvents r } := by
          simp [State.loadBy, State.emit, State.afterHead, State.takeEvents, State.nextEntry, Width.bytes]
        by_cases hn : s.cfg.n ≤ s.nextEntry r
        · have hn' : (s.afterHead r).cfg.n ≤ s.nextEntry r := hn
          rw [if_pos hn, if_pos hn', raiseFault_quiet _ hq2, hev]
        · have hn' : ¬ (s.afterHead r).cfg.n ≤ s.nextEntry r := hn
          rw [if_neg hn, if_neg hn', Prog.bind_ok (ghost_apply _ _)]
          have hq3 : (ghostTake r (s.nextEntry r) ((s.afterHead r).loadBy .block (s.nextEntryAddr r) .b2)).quiet
              = true := by rw [State.quiet_congr (ghostTake_env _ r _)]; exact hq2
          rw [Prog.bind_ok (act_quiet hq3), hev]
          cases r <;> rfl
      · rw [if_pos (by simpa using hb2)]
        rw [if_neg hb2] at hmr
        exact Prog.bind_error hmr
  · rw [if_pos (by simpa using hb)]
    refine Prog.bind_error ?_
    rw [availHead_quiet h, if_neg hb]

/-- The state after PUBLISH(r, d, len, kick) (R410). -/
def State.afterPublish (s : State) (r : RingId) (d len : Nat) (kick : Bool) : State :=
  ({ s with
      mem := publishMem s.mem (s.ring r) s.cfg.n d len
      history := s.history ++ publishEvents (s.ring r) s.cfg.n d len kick
      verdicts := { s.verdicts with
        publishNotHeld := s.verdicts.publishNotHeld || !(s.ring r).held.contains d } }).setRing r
    { s.ring r with usedHead := (s.ring r).usedHead + 1, held := heldErase d (s.ring r).held }

/-- PUBLISH(r, d, len, kick) when its writes are backed (R410). -/
theorem publish_backed {s : State} {r : RingId} {d len : Nat} {kick : Bool} (h : s.quiet = true)
    (hb : s.publishBacked r) (hd : d < 2 ^ 32) (hl : len < 2 ^ 32) :
    publish r d len kick s = .ok ((), s.afterPublish r d len kick) := by
  obtain ⟨h1, h2, h3⟩ := hb
  have hdm : d % 4294967296 = d := Nat.mod_eq_of_lt (by omega)
  have hlm : len % 4294967296 = len := Nat.mod_eq_of_lt (by omega)
  unfold publish
  rw [Prog.bind_ok (ghost_apply _ _), Prog.bind_ok (getRing_apply r _), Prog.bind_ok (getCfg_apply _)]
  rw [State.notePublishNotHeld_ring, State.notePublishNotHeld_cfg]
  have hq : ∀ u : State, u.env = s.env → u.quiet = true := fun u hu => by rw [State.quiet_congr hu, h]
  have ha : ∀ u : State, u.cfg = s.cfg → ∀ a n, s.admits a n = true → u.admits a n = true := fun u hu a n hx => by
    rw [State.admits_congr hu, hx]
  refine (Prog.bind_ok (memWrite_backed (hq _ ?_) (ha _ ?_ _ _ h1))).trans ?_
  · rfl
  · rfl
  refine (Prog.bind_ok (memWrite_backed (hq _ ?_) (ha _ ?_ _ _ h2))).trans ?_
  · rfl
  · rfl
  refine (Prog.bind_ok (barrier_quiet (hq _ ?_))).trans ?_
  · rfl
  refine (Prog.bind_ok (memWrite_backed (hq _ ?_) (ha _ ?_ _ _ h3))).trans ?_
  · rfl
  · rfl
  refine (Prog.bind_ok (ghost_apply _ _)).trans ?_
  refine (Prog.bind_ok (act_quiet (hq _ ?_))).trans ?_
  · simp
  refine (Prog.bind_ok (barrier_quiet (hq _ ?_))).trans ?_
  · simp
  refine (Prog.bind_ok (emitEvent_quiet _ (hq _ ?_))).trans ?_
  · simp
  cases kick
  · simp only [Bool.false_eq_true, if_false, Prog.pure_apply]
    cases r <;>
    simp [State.afterPublish, publishMem, publishEvents, RingCtx.nextUsedAddr, slotOf, Width.bytes,
      State.notePublishNotHeld, State.storeBy, State.emit, ghostRelease, advanceUsedHead, State.setRing, State.ring,
      hdm, hlm]
  · simp only [if_true]
    rw [emitEvent_quiet _ (hq _ (by simp))]
    cases r <;>
    simp [State.afterPublish, publishMem, publishEvents, RingCtx.nextUsedAddr, slotOf, Width.bytes,
      State.notePublishNotHeld, State.storeBy, State.emit, ghostRelease, advanceUsedHead, State.setRing, State.ring,
      hdm, hlm]

end Sys2Proof.Machine
end

