-- ==== Sys2Proof/Laws/Triple.lean ====
section
/-! SUPPORT. A small program logic for the pseudocode under any schedule: what holds after a program that goes on, and
what holds where it stops. It says once what the moves of the other agents (spec/10_state.md R100) can do between two
steps of the block. -/

namespace Sys2Proof.Machine

/-! What a move does. -/

theorem outsideAccess_ok {who : Agent} {a : Nat} {w : Width} {s : State} (h : outsideAccess who a w s = .ok ()) :
    s.admits a w.bytes = true := by
  unfold outsideAccess at h
  split_ifs at h with h1 h2
  exact h2

theorem peerAccess_ok {a : Nat} {w : Width} {s : State} (h : peerAccess a w s = .ok ()) :
    s.admits a w.bytes = true ∧ s.mixedAccess .rx a w.bytes = false ∧ s.mixedAccess .tx a w.bytes = false := by
  unfold peerAccess at h
  split at h
  · cases h
  · next hb =>
    split_ifs at h with hm
    simp only [Bool.or_eq_true, not_or, Bool.not_eq_true] at hm
    exact ⟨outsideAccess_ok hb, hm⟩

/-- An access that the model has no meaning for ends in a fault or a refusal. -/
theorem peerAccess_not_halt {a : Nat} {w : Width} {s t : State} : peerAccess a w s ≠ .error (.halt t) := by
  intro h
  unfold peerAccess outsideAccess at h
  split at h
  · next he => split_ifs at he <;> (cases he; cases h)
  · split_ifs at h; cases h

/-- The same state but for the peer's ghost state. -/
def State.withPeer (s : State) (rx tx : PeerRing) (wrote : List Nat) : State :=
  { s with peerRx := rx, peerTx := tx, peerWrote := wrote }

/-- Everything a move that does not stop can do. -/
theorem Move.apply_cases {m : Move} {s t : State} (h : m.apply s = .ok t) :
    (∃ off v, t = s.regStore off v) ∨ (∃ off, t = s.regLoad off)
      ∨ (∃ who a w v p q l, who ≠ .block ∧ s.admits a (Width.bytes w) = true
          ∧ t = (s.storeBy who a w v).withPeer p q l)
      ∨ (∃ a w p q l, t = (s.loadBy .peer a w).withPeer p q l) ∨ (∃ r p, t = s.setPeer r p)
      ∨ t = { s with txKickCnt := s.txKickCnt + 1 } ∨ t = { s with rxKickCnt := s.rxKickCnt + 1 } := by
  cases m with
  | regWrite a n v =>
    simp only [Move.apply, moveRegWrite] at h
    split at h <;> cases h
    exact .inl ⟨_, _, rfl⟩
  | regRead a n =>
    simp only [Move.apply, moveRegRead] at h
    split at h <;> cases h
    exact .inr (.inl ⟨_, rfl⟩)
  | coreWrite a w v =>
    simp only [Move.apply, moveCoreWrite] at h
    split at h
    · cases h
    · next hb => cases h; exact .inr (.inr (.inl ⟨.core, a, w, _, _, _, _, by decide, outsideAccess_ok hb, rfl⟩))
  | peerRead a w =>
    simp only [Move.apply, movePeerRead] at h
    split at h
    · cases h
    · cases h; exact .inr (.inr (.inr (.inl ⟨a, w, _, _, _, rfl⟩)))
  | peerWrite a w v =>
    simp only [Move.apply, movePeerWrite] at h
    split at h
    · cases h
    · next hb =>
      split_ifs at h <;> cases h
      · exact .inr (.inr (.inl ⟨.peer, a, w, _, _, _, _, by decide, (peerAccess_ok hb).1, rfl⟩))
      · exact .inr (.inr (.inr (.inr (.inl ⟨.rx, s.peerRx, rfl⟩))))
  | peerReclaim r =>
    simp only [Move.apply, movePeerReclaim] at h
    split at h <;> cases h
    · exact .inr (.inr (.inr (.inr (.inl ⟨.rx, s.peerRx, rfl⟩))))
    · exact .inr (.inr (.inr (.inr (.inl ⟨_, _, rfl⟩))))
  | peerRestart r => cases h; exact .inr (.inr (.inr (.inr (.inl ⟨_, _, rfl⟩))))
  | pulseTx => cases h; exact .inr (.inr (.inr (.inr (.inr (.inl rfl)))))
  | pulseRx => cases h; exact .inr (.inr (.inr (.inr (.inr (.inr rfl)))))
  | reset => cases h

/-- A move leaves the schedule and the configuration alone. -/
theorem Move.apply_env {m : Move} {s t : State} (h : m.apply s = .ok t) : t.env = s.env ∧ t.cfg = s.cfg := by
  obtain ⟨_, _, rfl⟩ | ⟨_, rfl⟩ | ⟨_, _, _, _, _, _, _, _, _, rfl⟩ | ⟨_, _, _, _, _, rfl⟩ | ⟨r, _, rfl⟩ | rfl | rfl := Move.apply_cases h
  · unfold State.regStore; split_ifs <;> exact ⟨rfl, rfl⟩
  · exact ⟨rfl, rfl⟩
  · exact ⟨rfl, rfl⟩
  · exact ⟨rfl, rfl⟩
  · cases r <;> exact ⟨rfl, rfl⟩
  · exact ⟨rfl, rfl⟩
  · exact ⟨rfl, rfl⟩

/-- The state of the block that no move but reset touches (R101 to R142: no agent but the block writes it). -/
structure State.SameBlock (s t : State) : Prop where
  cfg : t.cfg = s.cfg
  result : t.result = s.result
  seq : t.seq = s.seq
  rx : t.rx = s.rx
  tx : t.tx = s.tx
  dropCnt : t.dropCnt = s.dropCnt
  slots : t.slots = s.slots
  nextAddr : t.nextAddr = s.nextAddr
  stage : t.stage = s.stage
  verdicts : t.verdicts = s.verdicts
  trunc : t.status.trunc = s.status.trunc
  err : t.status.err = s.status.err
  fcode : t.status.fcode = s.status.fcode
  faulted : t.status.faulted = s.status.faulted

theorem Move.apply_sameBlock {m : Move} {s t : State} (h : m.apply s = .ok t) : s.SameBlock t := by
  obtain ⟨_, _, rfl⟩ | ⟨_, rfl⟩ | ⟨_, _, _, _, _, _, _, _, _, rfl⟩ | ⟨_, _, _, _, _, rfl⟩ | ⟨r, _, rfl⟩ | rfl | rfl := Move.apply_cases h
  · unfold State.regStore; split_ifs <;> constructor <;> rfl
  · constructor <;> rfl
  · constructor <;> rfl
  · constructor <;> rfl
  · cases r <;> constructor <;> rfl
  · constructor <;> rfl
  · constructor <;> rfl

/-- A move that halts the block is reset. -/
theorem Move.apply_halt {m : Move} {s t : State} (h : m.apply s = .error (.halt t)) :
    m = .reset ∧ t = s.blockReset := by
  have hout : ∀ who a w, outsideAccess who a w s ≠ .error (.halt t) := by
    intro who a w hx
    unfold outsideAccess at hx
    split_ifs at hx <;> cases hx
  cases m with
  | regWrite a n v => simp only [Move.apply, moveRegWrite] at h; split at h <;> cases h
  | regRead a n => simp only [Move.apply, moveRegRead] at h; split at h <;> cases h
  | coreWrite a w v =>
    simp only [Move.apply, moveCoreWrite] at h
    split at h
    · next e he => cases h; exact absurd he (hout _ _ _)
    · cases h
  | peerRead a w =>
    simp only [Move.apply, movePeerRead] at h
    split at h
    · next e he => cases h; exact absurd he peerAccess_not_halt
    · cases h
  | peerWrite a w v =>
    simp only [Move.apply, movePeerWrite] at h
    split at h
    · next e he => cases h; exact absurd he peerAccess_not_halt
    · split_ifs at h
  | peerReclaim r => simp only [Move.apply, movePeerReclaim] at h; split at h <;> cases h
  | peerRestart r => simp only [Move.apply] at h; cases h
  | pulseTx => simp only [Move.apply] at h; cases h
  | pulseRx => simp only [Move.apply] at h; cases h
  | reset => simp only [Move.apply] at h; cases h; exact ⟨rfl, rfl⟩

/-! Triples. -/

/-- A program's answer: it goes on with a value and a state that meet `Q`, or stops in a state that meets `H`, or the
model stops. -/
def Prog.Post {α : Type} (H : State → Prop) (Q : α → State → Prop) : Except Stop (α × State) → Prop
  | .ok x => Q x.1 x.2
  | .error (.halt t) => H t
  | .error (.fault _) => True
  | .error (.refuse _) => True

/-- From every state with `P`, the answer of `p` is as `Q` and `H` say. -/
def Prog.Triple {α : Type} (H P : State → Prop) (p : Prog α) (Q : α → State → Prop) : Prop :=
  ∀ s, P s → Prog.Post H Q (p s)

theorem Prog.Triple.pure {α : Type} {H P : State → Prop} {Q : α → State → Prop} {a : α} (h : ∀ s, P s → Q a s) :
    Prog.Triple H P (pure a) Q :=
  fun s hs => h s hs

theorem Prog.Triple.bind {α β : Type} {H P : State → Prop} {p : Prog α} {f : α → Prog β} {Q : α → State → Prop}
    {R : β → State → Prop} (hp : Prog.Triple H P p Q) (hf : ∀ a, Prog.Triple H (Q a) (f a) R) :
    Prog.Triple H P (p >>= f) R := by
  intro s hs
  have h := hp s hs
  cases hps : p s with
  | ok x =>
    obtain ⟨a, t⟩ := x
    rw [hps] at h
    rw [Prog.bind_ok hps]
    exact hf a t h
  | error e =>
    rw [hps] at h
    rw [Prog.bind_error hps]
    cases e <;> exact h

theorem Prog.Triple.weaken {α : Type} {H P P' : State → Prop} {p : Prog α} {Q Q' : α → State → Prop}
    (h : Prog.Triple H P p Q) (hP : ∀ s, P' s → P s) (hQ : ∀ a s, Q a s → Q' a s) : Prog.Triple H P' p Q' := by
  intro s hs
  have hp := h s (hP s hs)
  cases hps : p s with
  | ok x => rw [hps] at hp; exact hQ _ _ hp
  | error e => rw [hps] at hp; cases e <;> exact hp

theorem Prog.Triple.ite {α : Type} {H P : State → Prop} {c : Prop} [Decidable c] {p q : Prog α}
    {Q : α → State → Prop} (hp : c → Prog.Triple H P p Q) (hq : ¬c → Prog.Triple H P q Q) :
    Prog.Triple H P (if c then p else q) Q := by
  split
  · next h => exact hp h
  · next h => exact hq h

/-- A program without a schedule point. -/
theorem Prog.Triple.of_ok {α : Type} {H P : State → Prop} {p : Prog α} {Q : α → State → Prop} (a : State → α)
    (f : State → State) (hp : ∀ s, p s = .ok (a s, f s)) (h : ∀ s, P s → Q (a s) (f s)) : Prog.Triple H P p Q := by
  intro s hs
  rw [hp s]
  exact h s hs

theorem Prog.Triple.outcome {H P : State → Prop} {p : Prog Unit} (h : Prog.Triple H P p fun _ => H) {s t : State}
    (hs : P s) (ho : p.outcome s = .next t) : H t := by
  have hp := h s hs
  unfold Prog.outcome at ho
  cases hps : p s with
  | ok x => rw [hps] at hp ho; cases ho; exact hp
  | error e => rw [hps] at hp ho; cases e <;> cases ho; exact hp

/-! The schedule points. -/

/-- `P` survives what the other agents may do between two steps of the block, and a reset there leads to `H`. -/
structure Calm (H P : State → Prop) : Prop where
  /-- A mark is used up. -/
  mark : ∀ s rest, s.env = .block :: rest → P s → P { s with env := rest }
  /-- A move other than reset. -/
  move : ∀ s rest m t, s.env = .act m :: rest → P s → m.apply { s with env := rest } = .ok t → P t
  /-- A reset. -/
  reset : ∀ s rest, s.env = .act .reset :: rest → P s → H (State.blockReset { s with env := rest })

theorem runInputs_triple {H P : State → Prop} (hc : Calm H P) :
    ∀ (es : List Input) (s : State), s.env = es → P s → Prog.Post H (fun _ => P) (runInputs es s)
  | [], s, _, hs => hs
  | .settle :: _, s, _, hs => hs
  | .block :: rest, s, he, hs => hc.mark s rest he hs
  | .act m :: rest, s, he, hs => by
    simp only [runInputs]
    cases ha : m.apply { s with env := rest } with
    | ok t => exact runInputs_triple hc rest t (Move.apply_env ha).1 (hc.move s rest m t he hs ha)
    | error e =>
      cases e with
      | halt t =>
        obtain ⟨rfl, rfl⟩ := Move.apply_halt ha
        exact hc.reset s rest he hs
      | fault f => trivial
      | refuse r => trivial

theorem yield_triple {H P : State → Prop} (hc : Calm H P) : Prog.Triple H P yield fun _ => P :=
  fun s hs => runInputs_triple hc s.env s rfl hs

theorem act_triple {H P : State → Prop} {f : State → State} {Q : State → Prop} (hc : Calm H P)
    (h : ∀ s, P s → Q (f s)) : Prog.Triple H P (act f) fun _ => Q :=
  Prog.Triple.bind (yield_triple hc) fun _ => fun s hs => h s hs

theorem raiseFault_triple {α : Type} {H P : State → Prop} {Q : α → State → Prop} {c : FaultCode} (hc : Calm H P)
    (h : ∀ s, P s → H (s.takeFault c)) : Prog.Triple H P (raiseFault c) Q :=
  Prog.Triple.bind (yield_triple hc) fun _ => fun s hs => h s hs

theorem failWith_triple {α : Type} {H P : State → Prop} {Q : α → State → Prop} {c : ErrCode} (hc : Calm H P)
    (h : ∀ s, P s → H (s.complete 0 c)) : Prog.Triple H P (failWith c) Q :=
  Prog.Triple.bind (yield_triple hc) fun _ => fun s hs => h s hs

theorem memRead_triple {H P : State → Prop} {a : Nat} {w : Width} {Q : Nat → State → Prop} (hc : Calm H P)
    (hf : ∀ s, P s → H (s.takeFault .busError))
    (h : ∀ s, P s → s.admits a w.bytes = true → Q (s.mem.readLE a w.bytes) (s.loadBy .block a w)) :
    Prog.Triple H P (memRead a w) Q := by
  refine Prog.Triple.bind (yield_triple hc) fun _ => fun s hs => ?_
  by_cases hb : s.admits a w.bytes = true
  · rw [if_pos hb]; exact h s hs hb
  · rw [if_neg hb]; exact hf s hs

theorem memWrite_triple {H P : State → Prop} {a v : Nat} {w : Width} {Q : State → Prop} (hc : Calm H P)
    (hf : ∀ s, P s → H (s.takeFault .busError))
    (h : ∀ s, P s → s.admits a w.bytes = true → Q (s.storeBy .block a w v)) :
    Prog.Triple H P (memWrite a w v) fun _ => Q := by
  refine Prog.Triple.bind (yield_triple hc) fun _ => fun s hs => ?_
  by_cases hb : s.admits a w.bytes = true
  · rw [if_pos hb]; exact h s hs hb
  · rw [if_neg hb]; exact hf s hs

end Sys2Proof.Machine
end

