-- ==== Sys2Proof/Laws/Peer.lean ====
section
/-! SUPPORT. What the peer's moves do (spec/20_memory.md R223, R230 to R236): where an access falls in a ring pair's
region, when a write is performed, and what it leaves; so that later proofs unfold neither the zones nor the duties. -/

namespace Sys2Proof.Machine

/-! Where an access falls. -/

/-- The layout facts of a ring pair in use (R210). -/
theorem RingCtx.laidOut_facts {c : RingCtx} {size : Nat} (h : c.laidOut size) (hi : c.inited = true) :
    c.descAddr.toNat % 16 = 0 ∧ c.availAddr.toNat = c.descAddr.toNat + 16 * size ∧ c.usedAddr.toNat % 4096 = 0
      ∧ c.availAddr.toNat + 6 + 2 * size ≤ c.usedAddr.toNat ∧ c.usedAddr.toNat + 4 + 8 * size ≤ 2 ^ 32 := by
  unfold RingCtx.laidOut at h
  rw [if_pos hi] at h
  exact ⟨h.1, h.2.1, h.2.2.1, h.2.2.2.1, h.2.2.2.2.2.2⟩

theorem zoneOf_outside {c : RingCtx} {size a n : Nat} (h : c.outsideRegion size a n) : zoneOf c size a n = .outside :=
  if_pos h

/-- An access that meets the descriptor table is an access of one whole field of one descriptor, or no access of a
field. -/
theorem zoneOf_desc_cases {c : RingCtx} {size a n b d : Nat} (h : c.laidOut size) (hi : c.inited = true)
    (hd : d < size) (hab : a ≤ b) (hbn : b < a + n) (h1 : c.descEntryAddr d ≤ b) (h2 : b < c.descEntryAddr d + 16) :
    zoneOf c size a n = .desc d ∨ zoneOf c size a n = .mixed := by
  obtain ⟨f1, f2, f3, f4, f5⟩ := RingCtx.laidOut_facts h hi
  unfold RingCtx.descEntryAddr at h1 h2
  simp only [zoneOf]
  rw [if_neg (by omega)]
  by_cases hin : c.descAddr.toNat ≤ a ∧ a + n ≤ c.descAddr.toNat + 16 * size
  · rw [if_pos hin]
    by_cases hf : descField ((a - c.descAddr.toNat) % 16) n = true
    · rw [if_pos hf]
      refine .inl (congrArg Zone.desc ?_)
      simp only [descField, Bool.or_eq_true, Bool.and_eq_true, decide_eq_true_eq] at hf
      omega
    · rw [if_neg hf]; exact .inr rfl
  · rw [if_neg hin, if_neg (by omega), if_neg (by omega), if_neg (by omega)]
    exact .inr rfl

/-- An access that meets an avail entry is an access of that whole entry, or no access of a field. -/
theorem zoneOf_entry_cases {c : RingCtx} {size a n b j : Nat} (h : c.laidOut size) (hi : c.inited = true)
    (hj : j < size) (hab : a ≤ b) (hbn : b < a + n) (h1 : c.availEntryAddr j ≤ b) (h2 : b < c.availEntryAddr j + 2) :
    zoneOf c size a n = .availEntry j ∨ zoneOf c size a n = .mixed := by
  obtain ⟨f1, f2, f3, f4, f5⟩ := RingCtx.laidOut_facts h hi
  unfold RingCtx.availEntryAddr at h1 h2
  simp only [zoneOf]
  rw [if_neg (by omega), if_neg (by omega)]
  by_cases hin : c.availAddr.toNat ≤ a ∧ a + n ≤ c.availAddr.toNat + 6 + 2 * size
  · rw [if_pos hin]
    by_cases hf : n = 2 ∧ (a - c.availAddr.toNat) % 2 = 0
    · rw [if_pos hf, if_neg (by omega), if_pos (by omega)]
      refine .inl (congrArg Zone.availEntry ?_)
      omega
    · rw [if_neg hf]; exact .inr rfl
  · rw [if_neg hin, if_neg (by omega), if_neg (by omega)]
    exact .inr rfl

theorem zoneOf_desc {c : RingCtx} {size d off : Nat} (h : c.laidOut size) (hi : c.inited = true) (hd : d < size)
    (ho : off = 0 ∨ off = 8) : zoneOf c size (c.descEntryAddr d + off) 4 = .desc d := by
  obtain ⟨f1, f2, f3, f4, f5⟩ := RingCtx.laidOut_facts h hi
  generalize ha : c.descEntryAddr d + off = a
  unfold RingCtx.descEntryAddr at ha
  have hm : (a - c.descAddr.toNat) % 16 = off := by omega
  have hq : (a - c.descAddr.toNat) / 16 = d := by omega
  simp only [zoneOf]
  rw [if_neg (by omega), if_pos (by omega), hm, hq]
  rcases ho with rfl | rfl <;> rfl

theorem zoneOf_availEntry {c : RingCtx} {size j : Nat} (h : c.laidOut size) (hi : c.inited = true) (hj : j < size) :
    zoneOf c size (c.availEntryAddr j) 2 = .availEntry j := by
  obtain ⟨f1, f2, f3, f4, f5⟩ := RingCtx.laidOut_facts h hi
  generalize ha : c.availEntryAddr j = a
  unfold RingCtx.availEntryAddr at ha
  have hq : (a - c.availAddr.toNat - 4) / 2 = j := by omega
  suffices ∀ n, n = 2 → zoneOf c size a n = .availEntry j from this 2 rfl
  intro n hn
  simp only [zoneOf]
  rw [if_neg (by omega), if_neg (by omega), if_pos (by omega), if_pos (by omega), if_neg (by omega), if_pos (by omega),
    hq]

theorem zoneOf_availIdx {c : RingCtx} {size : Nat} (h : c.laidOut size) (hi : c.inited = true) :
    zoneOf c size c.availIdxAddr 2 = .availIdx := by
  obtain ⟨f1, f2, f3, f4, f5⟩ := RingCtx.laidOut_facts h hi
  generalize ha : c.availIdxAddr = a
  unfold RingCtx.availIdxAddr at ha
  suffices ∀ n, n = 2 → zoneOf c size a n = .availIdx from this 2 rfl
  intro n hn
  simp only [zoneOf]
  rw [if_neg (by omega), if_neg (by omega), if_pos (by omega), if_pos (by omega), if_pos (by omega)]

/-! Buffers and slots. -/

theorem overlaps_eq_false {a n b m : Nat} : overlaps a n b m = false ↔ m = 0 ∨ b + m ≤ a ∨ a + n ≤ b := by
  simp only [overlaps, Bool.and_eq_false_iff, decide_eq_false_iff_not]
  omega

theorem State.meetsBuffer_eq_false {s : State} {r : RingId} {a n : Nat} :
    s.meetsBuffer r a n = false ↔ s.clearOfBuffers r a n := by
  simp only [State.meetsBuffer, State.clearOfBuffers, List.any_eq_false, Bool.and_eq_true, decide_eq_true_eq, not_and,
    State.inBuffer, Bool.not_eq_true, overlaps_eq_false]
  refine forall_congr' fun d => forall_congr' fun _ => forall_congr' fun _ => ?_
  constructor <;> rintro (h | h | h) <;> simp [h]

theorem half_add_succ (p : Half) (i : Nat) : p + BitVec.ofNat 16 (i + 1) = p + 1 + BitVec.ofNat 16 i := by
  rw [Nat.add_comm, BitVec.ofNat_add, ← BitVec.add_assoc]
  rfl

theorem slotsFrom_mem {size : Nat} {p : Half} {k j : Nat} :
    j ∈ slotsFrom size p k ↔ ∃ i, i < k ∧ slotOf size (p + BitVec.ofNat 16 i) = j := by
  induction k generalizing p with
  | zero => simp [slotsFrom]
  | succ k ih =>
    rw [slotsFrom, List.mem_cons, ih]
    constructor
    · rintro (rfl | ⟨i, hi, rfl⟩)
      · exact ⟨0, by omega, by simp⟩
      · exact ⟨i + 1, by omega, by rw [half_add_succ]⟩
    · rintro ⟨i, hi, rfl⟩
      cases i with
      | zero => exact .inl (by simp)
      | succ i =>
        exact .inr ⟨i, by omega, by rw [half_add_succ]⟩

theorem PeerRing.lend_mem {p : PeerRing} {ds : List Nat} {d : Nat} : d ∈ (p.lend ds).lent ↔ d ∈ p.lent ∨ d ∈ ds := by
  unfold PeerRing.lend
  simp only
  generalize p.lent = l
  induction ds generalizing l with
  | nil => simp
  | cons x xs ih =>
    rw [List.foldl_cons, ih, heldInsert_mem, List.mem_cons]
    tauto

/-- Slots repeat every `N` positions, also across the 16-bit wrap, because `N` divides 65536 (R408). -/
theorem slotOf_add_mod {c : Config} (h : c.valid = true) (p : Half) (i : Nat) :
    slotOf c.n (p + BitVec.ofNat 16 (i % c.n)) = slotOf c.n (p + BitVec.ofNat 16 i) := by
  have hd : c.n ∣ 2 ^ 16 := Nat.pow_dvd_pow 2 (by
    simp only [Config.valid, Bool.and_eq_true, decide_eq_true_eq] at h
    omega)
  simp only [slotOf, BitVec.toNat_add, BitVec.toNat_ofNat, Nat.add_mod_mod]
  rw [Nat.mod_mod_of_dvd _ hd, Nat.mod_mod_of_dvd _ hd, Nat.add_mod, Nat.mod_mod, ← Nat.add_mod]

/-- The slots a write of `avail.idx` offers (R231), for every position it passes. -/
theorem State.newSlots_mem {s : State} {r : RingId} {v : Half} {j : Nat} (h : s.cfg.valid = true) :
    j ∈ s.newSlots r v ↔ ∃ i, i < (v - s.availIdx r).toNat
      ∧ slotOf s.cfg.n (s.availIdx r + BitVec.ofNat 16 i) = j := by
  have hn : 0 < s.cfg.n := Nat.two_pow_pos _
  refine slotsFrom_mem.trans ⟨?_, ?_⟩
  · rintro ⟨i, hi, he⟩
    exact ⟨i, lt_of_lt_of_le hi (Nat.min_le_left _ _), he⟩
  · rintro ⟨i, hi, rfl⟩
    exact ⟨i % s.cfg.n, lt_min (lt_of_le_of_lt (Nat.mod_le _ _) hi) (Nat.mod_lt _ hn), slotOf_add_mod h _ i⟩

theorem State.offerKept_iff {s : State} {r : RingId} {v : Half} (h : s.cfg.valid = true) :
    s.offerKept r v = true ↔ ∀ i, i < (v - s.availIdx r).toNat →
      s.entryReady r (slotOf s.cfg.n (s.availIdx r + BitVec.ofNat 16 i)) = true := by
  unfold State.offerKept
  rw [List.all_eq_true]
  constructor
  · exact fun hall i hi => hall _ ((State.newSlots_mem h).mpr ⟨i, hi, rfl⟩)
  · intro hall j hj
    obtain ⟨i, hi, rfl⟩ := (State.newSlots_mem h).mp hj
    exact hall i hi

/-! When the peer's access is refused, when its write is performed, and when it is no move. -/

theorem State.mixedAccess_eq_false {s : State} {r : RingId} {a n : Nat} :
    s.mixedAccess r a n = false ↔ ((s.ring r).inited = true → zoneOf (s.ring r) s.cfg.n a n ≠ .mixed) := by
  cases hi : (s.ring r).inited <;> simp [State.mixedAccess, hi]

/-- On a ring pair in use, a write that the peer may make is one that its zone lets, clear of the buffers that are not
the peer's. -/
theorem State.peerMayWrite_iff {s : State} {r : RingId} {a n : Nat} {v : Word} :
    s.peerMayWrite r a n v = true ↔ ((s.ring r).inited = true →
      s.zoneWritable r v (zoneOf (s.ring r) s.cfg.n a n) = true ∧ s.clearOfBuffers r a n) := by
  rw [← State.meetsBuffer_eq_false]
  cases hi : (s.ring r).inited <;> simp [State.peerMayWrite, hi]

theorem State.peerMayWrite_unclaimed {s : State} {r : RingId} {a n : Nat} {v : Word} (h : s.unclaimed r a n) :
    s.peerMayWrite r a n v = true :=
  State.peerMayWrite_iff.mpr fun hi => by
    rw [zoneOf_outside (h hi).1]
    exact ⟨rfl, (h hi).2⟩

theorem State.mixedAccess_unclaimed {s : State} {r : RingId} {a n : Nat} (h : s.unclaimed r a n) :
    s.mixedAccess r a n = false :=
  State.mixedAccess_eq_false.mpr fun hi => by
    rw [zoneOf_outside (h hi).1]
    decide

/-- R223: an aligned, backed access that overlaps a field at another width or offset is refused. -/
theorem peerAccess_mixed {s : State} {r : RingId} {a : Nat} {w : Width} (hal : a % w.bytes = 0)
    (hb : s.admits a w.bytes = true) (hm : s.mixedAccess r a w.bytes = true) :
    peerAccess a w s = .error (.refuse .mixedWidth) := by
  have h : (s.mixedAccess .rx a w.bytes || s.mixedAccess .tx a w.bytes) = true := by cases r <;> simp [hm]
  simp only [peerAccess, outsideAccess, hal, hb, h, ne_eq, not_true_eq_false, if_false, if_true]

/-- Everything a peer write of an aligned, backed access of a field, or of none, does: it is performed (R225), or it is
no move (R721). -/
theorem movePeerWrite_eq {s : State} {a : Nat} {w : Width} {v : Word} (hal : a % w.bytes = 0)
    (hb : s.admits a w.bytes = true) (hm : ∀ r, s.mixedAccess r a w.bytes = false) :
    movePeerWrite a w v s
      = .ok (if s.peerMayWrite .rx a w.bytes v && s.peerMayWrite .tx a w.bytes v then s.afterPeerWrite a w v else s) := by
  simp only [movePeerWrite, peerAccess, outsideAccess, hal, hb, hm, ne_eq, not_true_eq_false, if_false, if_true,
    Bool.or_self, Bool.false_eq_true]
  split_ifs <;> rfl

/-- A peer write that does not stop was an access of a field, or of none, that both ring pairs let; or it was no move. -/
theorem movePeerWrite_inv {s t : State} {a : Nat} {w : Width} {v : Word} (h : movePeerWrite a w v s = .ok t) :
    (∀ r, s.mixedAccess r a w.bytes = false)
      ∧ ((∀ r, s.peerMayWrite r a w.bytes v = true) ∧ t = s.afterPeerWrite a w v ∨ t = s) := by
  unfold movePeerWrite at h
  split at h
  · cases h
  · next hp =>
    obtain ⟨-, hx, hy⟩ := peerAccess_ok hp
    refine ⟨fun r => by cases r <;> assumption, ?_⟩
    split_ifs at h with hw <;> cases h
    · rw [Bool.and_eq_true] at hw
      exact .inl ⟨fun r => by cases r; exacts [hw.1, hw.2], rfl⟩
    · exact .inr rfl

/-- What a performed peer write leaves but for the peer's ghost state (R225). -/
theorem State.wrote_afterPeerWrite (s : State) (rest : List Input) (a : Nat) (w : Width) (v : Word) :
    s.wrote (State.afterPeerWrite { s with env := rest } a w v) a w v rest := rfl

/-- A write that offers nothing lends nothing. -/
theorem State.afterPeerWrite_peer {s : State} {r : RingId} {a : Nat} {w : Width} {v : Word} :
    (s.afterPeerWrite a w v).peer r
      = (s.peer r).lend ((s.slotsOffered r a w.bytes (v.setWidth 16)).map (s.entryNow r)) := by
  cases r <;> rfl

theorem PeerRing.lend_nil (p : PeerRing) : p.lend [] = p := rfl

theorem State.slotsOffered_unclaimed {s : State} {r : RingId} {a n : Nat} {v : Half} (h : s.unclaimed r a n) :
    s.slotsOffered r a n v = [] := by
  unfold State.slotsOffered
  by_cases hi : (s.ring r).inited = true
  · rw [zoneOf_outside (h hi).1]; simp
  · simp [hi]

/-! RING_INIT and the peer (R820, R833). -/

/-- RING_INIT leaves what the peer has read of the used ring alone. -/
theorem State.peerAfterInit_peer (s : State) (r : RingId) :
    ((s.peerAfterInit r).peer r).usedRead = (s.peer r).usedRead
      ∧ ((s.peerAfterInit r).peer r).usedSeen = (s.peer r).usedSeen
      ∧ ((s.peerAfterInit r).peer r).entryId = (s.peer r).entryId
      ∧ ((s.peerAfterInit r).peer r).entryLen = (s.peer r).entryLen := by
  cases r <;> exact ⟨rfl, rfl, rfl, rfl⟩

theorem State.peerAfterInit_other (s : State) (r : RingId) :
    (s.peerAfterInit r).peer (otherRing r) = s.peer (otherRing r) := by
  cases r <;> rfl

/-! The step of a peer's move. -/

theorem step_move {s : State} {m : Move} {rest : List Input} (hv : s.cfg.valid = true) (he : s.env = .act m :: rest)
    (hm : m.command s.cfg = none) : step s = moveOutcome m { s with env := rest } := by
  unfold step stepWith
  rw [if_pos hv, he]
  simp only [hm]

/-- A step that answers a next state was one of a machine with a legal configuration (R9). -/
theorem step_valid {s t : State} (h : step s = .next t) : s.cfg.valid = true := by
  by_contra hv
  unfold step stepWith at h
  rw [if_neg hv] at h
  cases h

/-! What the peer may do does not depend on the schedule. -/

theorem State.peerMayWrite_env (s : State) (rest : List Input) (r : RingId) (a n : Nat) (v : Word) :
    ({ s with env := rest } : State).peerMayWrite r a n v = s.peerMayWrite r a n v := by
  cases r <;> rfl

theorem State.mixedAccess_env (s : State) (rest : List Input) (r : RingId) (a n : Nat) :
    ({ s with env := rest } : State).mixedAccess r a n = s.mixedAccess r a n := by
  cases r <;> rfl

/-- Everything a step does whose schedule begins with an aligned, backed peer write of a field, or of none. -/
theorem step_peerWrite {s : State} {a : Nat} {w : Width} {v : Word} {rest : List Input} (hv : s.cfg.valid = true)
    (he : s.env = .act (.peerWrite a w v) :: rest) (hal : a % w.bytes = 0) (hb : s.admits a w.bytes = true)
    (hm : ∀ r, s.mixedAccess r a w.bytes = false) :
    step s = .next (if s.peerMayWrite .rx a w.bytes v && s.peerMayWrite .tx a w.bytes v then
      State.afterPeerWrite { s with env := rest } a w v else { s with env := rest }) := by
  rw [step_move hv he rfl]
  have h := movePeerWrite_eq (s := { s with env := rest }) (v := v) hal hb
    (fun r => (s.mixedAccess_env rest r a _).trans (hm r))
  simp only [moveOutcome, Move.apply, h, State.peerMayWrite_env]

/-- A step that performs a peer write, or passes over one that is no move. -/
theorem step_peerWrite_inv {s t : State} {a : Nat} {w : Width} {v : Word} {rest : List Input}
    (he : s.env = .act (.peerWrite a w v) :: rest) (h : step s = .next t) :
    (∀ r, s.mixedAccess r a w.bytes = false)
      ∧ ((∀ r, s.peerMayWrite r a w.bytes v = true) ∧ t = State.afterPeerWrite { s with env := rest } a w v
        ∨ t = { s with env := rest }) := by
  rw [step_move (step_valid h) he rfl] at h
  unfold moveOutcome at h
  split at h
  · next hm =>
    cases h
    have hi := movePeerWrite_inv hm
    simp only [State.mixedAccess_env, State.peerMayWrite_env] at hi
    exact hi
  · next hm => exact absurd (Move.apply_halt hm).1 (by simp)
  · cases h
  · cases h

/-- Everything a step does whose schedule begins with a reclaim (R236). -/
theorem step_peerReclaim {s : State} {r : RingId} {rest : List Input} (hv : s.cfg.valid = true)
    (he : s.env = .act (.peerReclaim r) :: rest) :
    step s = .next (match s.reclaimable r with
      | none => { s with env := rest }
      | some d => State.setPeer { s with env := rest } r ((s.peer r).reclaim d)) := by
  rw [step_move hv he rfl]
  have hq : ({ s with env := rest } : State).reclaimable r = s.reclaimable r := by cases r <;> rfl
  have hp : ({ s with env := rest } : State).peer r = s.peer r := by cases r <;> rfl
  simp only [moveOutcome, Move.apply, movePeerReclaim, hq, hp]
  cases s.reclaimable r <;> rfl

end Sys2Proof.Machine
end

