-- ==== Sys2Proof/Laws/PerInstr.lean ====
section
/-! SUPPORT. What holds of the word of every command, one lemma per constructor: its opcode is a row of the table of
spec/30_encoding.md R322, and its reserved bits are 0 (R320). -/

namespace Sys2Proof.Laws.Reserved

/-- The word of `i` names a row of R322 and leaves `RSV` 0. -/
def Statement (i : Instr) : Prop :=
  opField (encode i) ∈ opcodeTable.map (·.op) ∧ (encode i).extractLsb' 10 6 = 0

theorem of_row {op : Byte} {r : BitVec 1} {k : Bool} {idx : Nat} (h : op ∈ opcodeTable.map (·.op)) :
    opField (commandWord op r k idx) ∈ opcodeTable.map (·.op) ∧ (commandWord op r k idx).extractLsb' 10 6 = 0 :=
  ⟨by rw [opField_commandWord]; exact h, rsvField_commandWord op r k idx⟩

theorem ringInit (r : RingId) : Statement (.ringInit r) := of_row (by decide)

theorem ringTryTake (r : RingId) : Statement (.ringTryTake r) := of_row (by decide)

theorem ringHasIncoming (r : RingId) : Statement (.ringHasIncoming r) := of_row (by decide)

theorem ringPublish (r : RingId) (kick : Bool) (idx : Nat) : Statement (.ringPublish r kick idx) := of_row (by decide)

theorem chCreate : Statement .chCreate := of_row (by decide)

theorem chSend (idx : Nat) : Statement (.chSend idx) := of_row (by decide)

theorem poll : Statement .poll := of_row (by decide)

end Sys2Proof.Laws.Reserved
end

