-- ==== Sys2Proof/Laws/Transport.lean ====
section
/-! SUPPORT. What TRANSMIT (spec/41_channel_mux.md R530), the name read (R511), RECEIVE (R540) and DISPATCH (R541) do
when the schedule leaves the block alone and the platform backs their accesses: one equation each, which later proofs
rewrite with instead of unfolding the pseudocode. -/

namespace Sys2Proof.Machine

/-! Accepting a command. -/

theorem issue_accepting {w : Word} {body : Prog Unit} {s : State} (h : s.accepting = true) :
    issue w body s = body.outcome (s.accept w) := by
  unfold issue
  rw [if_pos h]

theorem State.ready_accepting {s : State} (h : s.ready = true) : s.accepting = true := by
  simp only [State.ready, Bool.and_eq_true] at h
  exact h.1

theorem State.ready_quiet {s : State} (h : s.ready = true) : s.quiet = true := by
  simp only [State.ready, Bool.and_eq_true] at h
  exact h.2

theorem State.ready_idle {s : State} (h : s.ready = true) : s.seq = .idle := by
  have := State.ready_accepting h
  simp only [State.accepting, Bool.and_eq_true, decide_eq_true_eq] at this
  exact this.1

theorem State.accept_quiet {s : State} (w : Word) (h : s.quiet = true) : (s.accept w).quiet = true := h

theorem requireInit_on {r : RingId} {s : State} (h : (s.ring r).inited = true) : requireInit r s = .ok ((), s) := by
  unfold requireInit
  rw [Prog.bind_ok (getRing_apply r s), if_pos h]
  rfl

theorem requireInit_off {r : RingId} {s : State} (hq : s.quiet = true) (h : (s.ring r).inited = false) :
    requireInit r s = .error (.halt (s.complete 0 .notInit)) := by
  unfold requireInit
  rw [Prog.bind_ok (getRing_apply r s), if_neg (by simp [h]), failWith_quiet _ hq]

/-- A TAKE that finds an entry in range, its accesses backed (R406). -/
theorem take_some {s : State} {r : RingId} (h : s.quiet = true) (hb : s.takeBacked r)
    (hne : s.availIdx r ≠ (s.ring r).lastAvail) (hlt : s.nextEntry r < s.cfg.n) :
    take r s = .ok (some (s.nextEntry r), s.afterTake r) := by
  rw [take_quiet h, if_neg (by simp [hb.1]), if_neg hne, if_neg (by simp [hb.2]), if_neg (by omega)]

/-- A TAKE that finds the ring empty (R406). -/
theorem take_none {s : State} {r : RingId} (h : s.quiet = true) (hb : s.admits (s.ring r).availIdxAddr 2 = true)
    (he : s.availIdx r = (s.ring r).lastAvail) : take r s = .ok (none, s.afterHead r) := by
  rw [take_quiet h, if_neg (by simp [hb]), if_pos he]

/-! TRANSMIT. -/

theorem packet_eq (src dst : Word) (bytes : List Byte) :
    packetHeader src dst bytes.length ++ bytes = packet src dst bytes := rfl

theorem packetHeader_length (src dst : Word) (n : Nat) : (packetHeader src dst n).length = 16 := rfl

theorem byteWrites_append (a : Nat) (bs cs : List Byte) :
    byteWrites a (bs ++ cs) = byteWrites a bs ++ byteWrites (a + bs.length) cs := by
  induction bs generalizing a with
  | nil => rfl
  | cons b bs ih =>
    simp only [List.cons_append, byteWrites, ih, List.length_cons]
    rw [show a + 1 + bs.length = a + (bs.length + 1) by omega]

@[simp] theorem State.afterByteWrites_env (s : State) (a : Nat) (bs : List Byte) :
    (s.afterByteWrites a bs).env = s.env := rfl

@[simp] theorem State.afterByteWrites_cfg (s : State) (a : Nat) (bs : List Byte) :
    (s.afterByteWrites a bs).cfg = s.cfg := rfl

/-- The state after a FILL of descriptor `d` (R530): two reads and the packet's bytes. -/
def State.afterFill (s : State) (src dst : Word) (d : Nat) : State :=
  { s with
    mem := s.mem.writeBytes (s.mem.readLE (s.tx.descEntryAddr d) 4) (packet src dst s.stage)
    history := s.history
      ++ [.rd .block (s.tx.descEntryAddr d) 4 (s.mem.readLE (s.tx.descEntryAddr d) 4),
          .rd .block (s.tx.descEntryAddr d + 8) 4 (s.mem.readLE (s.tx.descEntryAddr d + 8) 4)]
      ++ byteWrites (s.mem.readLE (s.tx.descEntryAddr d) 4) (packet src dst s.stage) }

theorem packet_length (src dst : Word) (bytes : List Byte) : (packet src dst bytes).length = 16 + bytes.length := by
  rw [← packet_eq, List.length_append, packetHeader_length]

theorem State.backs_congr {s t : State} (h : t.cfg = s.cfg) {a n : Nat} (hb : s.backs a n) : t.backs a n :=
  fun k hk => by rw [State.admits_congr h]; exact hb k hk

theorem State.backs_split {s : State} {a n m : Nat} (hb : s.backs a (n + m)) : s.backs a n ∧ s.backs (a + n) m :=
  ⟨fun k hk => hb k (by omega), fun k hk => by rw [Nat.add_assoc]; exact hb (n + k) (by omega)⟩

theorem fillBuffer_backed {s : State} {job : TxJob} {d : Nat} (h : s.quiet = true)
    (h1 : s.admits (s.tx.descEntryAddr d) 4 = true) (h2 : s.admits (s.tx.descEntryAddr d + 8) 4 = true)
    (hcap : 16 + s.stage.length ≤ s.mem.readLE (s.tx.descEntryAddr d + 8) 4)
    (hb : s.backs (s.mem.readLE (s.tx.descEntryAddr d) 4) (16 + s.stage.length)) :
    fillBuffer job d s = .ok ((), s.afterFill job.src job.dst d) := by
  obtain ⟨hb1, hb2⟩ := State.backs_split hb
  have r1 : memRead ((s.ring .tx).descEntryAddr d) .b4 s = .ok (s.mem.readLE (s.tx.descEntryAddr d) 4,
    s.loadBy .block (s.tx.descEntryAddr d) .b4) := memRead_backed (w := .b4) h h1
  generalize hs1 : s.loadBy .block (s.tx.descEntryAddr d) .b4 = s1 at r1
  have q1 : s1.quiet = true := by subst hs1; exact h
  have r2 : memRead ((s.ring .tx).descEntryAddr d + 8) .b4 s1 = .ok (s.mem.readLE (s.tx.descEntryAddr d + 8) 4,
      s1.loadBy .block (s.tx.descEntryAddr d + 8) .b4) := by
    rw [memRead_backed q1]
    · subst hs1; rfl
    · subst hs1; exact h2
  generalize hs2 : s1.loadBy .block (s.tx.descEntryAddr d + 8) .b4 = s2 at r2
  have e2 : s2.cfg = s.cfg ∧ s2.stage = s.stage := by subst hs2 hs1; exact ⟨rfl, rfl⟩
  have q2 : s2.quiet = true := by subst hs2; exact q1
  generalize s.mem.readLE (s.tx.descEntryAddr d + 8) 4 = cap at *
  generalize hba : s.mem.readLE (s.tx.descEntryAddr d) 4 = ba at *
  have w1 := writeBytes_backed (s := s2) (a := ba) (bs := packetHeader job.src job.dst s2.stage.length) q2
    (by rw [packetHeader_length]; exact State.backs_congr e2.1 hb1)
  generalize hs3 : s2.afterByteWrites ba (packetHeader job.src job.dst s2.stage.length) = s3 at w1
  have q3 : s3.quiet = true ∧ s3.cfg = s.cfg := by
    subst hs3
    exact ⟨(State.quiet_congr (State.afterByteWrites_env s2 _ _)).trans q2,
      (State.afterByteWrites_cfg s2 _ _).trans e2.1⟩
  have w2 := writeBytes_backed (s := s3) (a := ba + hdrSize) (bs := s2.stage) q3.1
    (fun k hk => by
      rw [e2.2] at hk
      have hk' : s.admits (ba + 16 + k) 1 = true := hb2 k hk
      rw [State.admits_congr q3.2]
      simpa only [hdrSize] using hk')
  unfold fillBuffer
  rw [Prog.bind_ok (getRing_apply .tx s), Prog.bind_ok r1, Prog.bind_ok r2, Prog.bind_ok (getStage_apply _),
    if_neg (by rw [e2.2]; simp only [hdrSize]; omega), Prog.bind_ok w1, w2]
  subst hs3 hs2 hs1
  refine congrArg (fun v => Except.ok ((), v)) ?_
  apply State.eq_of_fields <;>
  simp [State.afterByteWrites, State.afterFill, State.loadBy, ← packet_eq, Memory.writeBytes_append,
    byteWrites_append, packetHeader_length, Width.bytes, hdrSize, hba]

/-- The state after the PUBLISH of a TRANSMIT and the end of its command (R530, R106). -/
theorem publishPacket_backed {s : State} {job : TxJob} {d : Nat} (h : s.quiet = true) (hb : s.publishBacked .tx)
    (hd : d < 2 ^ 32) (hl : 16 + s.stage.length < 2 ^ 32) :
    publishPacket job d s =
      .ok ((), (s.afterPublish .tx d (16 + s.stage.length) true).complete job.result .ok) := by
  have hp := publish_backed (len := 16 + s.stage.length) (kick := true) h hb hd hl
  unfold publishPacket
  rw [Prog.bind_ok (getStage_apply s)]
  refine (Prog.bind_ok hp).trans (finish_quiet _ ?_)
  rw [State.quiet_congr (s := s)]
  · exact h
  · rfl

/-- TRANSMIT with a buffer that fits, from any state it can be entered in (R530). -/
theorem transmit_backed {s : State} {job : TxJob} (h : s.quiet = true) (hl : s.stage.length ≤ 496)
    (hf : s.txFits s.stage.length) (hb : s.txBacked s.stage.length) :
    transmit job s = .ok ((), s.afterTransmit job.src job.dst s.stage job.result) := by
  obtain ⟨hne, hlt, hcap⟩ := hf
  obtain ⟨⟨htake, hd1, hd2⟩, hbuf, hpub⟩ := hb
  have hd : s.nextEntry .tx < 2 ^ 32 := lt_of_lt_of_le (Memory.readLE_lt s.mem _ 2) (by norm_num)
  have t1 : take .tx (s.setPhase (.waitBuf job)) =
      .ok (some (s.nextEntry .tx), (s.setPhase (.waitBuf job)).afterTake .tx) :=
    take_some (s := s.setPhase (.waitBuf job)) (r := .tx) h htake hne hlt
  generalize hs1 : ((s.setPhase (.waitBuf job)).afterTake .tx).setPhase (.fill job) = s1
  have e1 : s1.env = s.env ∧ s1.cfg = s.cfg ∧ s1.stage = s.stage ∧ s1.mem = s.mem
      ∧ s1.tx = { s.tx with lastAvail := s.tx.lastAvail + 1, held := heldInsert (s.nextEntry .tx) s.tx.held } := by
    subst hs1; exact ⟨rfl, rfl, rfl, rfl, rfl⟩
  obtain ⟨e1e, e1c, e1s, e1m, e1t⟩ := e1
  have q1 : s1.quiet = true := (State.quiet_congr e1e).trans h
  have f1 : fillBuffer job (s.nextEntry .tx) s1 = .ok ((), s1.afterFill job.src job.dst (s.nextEntry .tx)) := by
    refine fillBuffer_backed q1 ?_ ?_ ?_ ?_
    · rw [State.admits_congr e1c, e1t]; exact hd1
    · rw [State.admits_congr e1c, e1t]; exact hd2
    · rw [e1s, e1m, e1t]; exact hcap
    · rw [e1s, e1m, e1t]; exact State.backs_congr e1c hbuf
  generalize hs2 : (s1.afterFill job.src job.dst (s.nextEntry .tx)).setPhase (.pub job) = s2
  have e2 : s2.env = s1.env ∧ s2.cfg = s1.cfg ∧ s2.stage = s1.stage ∧ s2.tx = s1.tx := by
    subst hs2; exact ⟨rfl, rfl, rfl, rfl⟩
  obtain ⟨e2e, e2c, e2s, e2t⟩ := e2
  have q2 : s2.quiet = true := (State.quiet_congr e2e).trans q1
  have p2 : publishPacket job (s.nextEntry .tx) s2 =
      .ok ((), (s2.afterPublish .tx (s.nextEntry .tx) (16 + s2.stage.length) true).complete job.result .ok) := by
    refine publishPacket_backed q2 ?_ hd ?_
    · obtain ⟨b1, b2, b3⟩ := hpub
      refine ⟨?_, ?_, ?_⟩ <;>
      simp only [State.ring, State.admits_congr e2c, State.admits_congr e1c, e2t, e2c, e1c, e1t]
      · exact b1
      · exact b2
      · exact b3
    · rw [e2s, e1s]; omega
  unfold transmit
  rw [Prog.bind_ok (enterPhase_apply _ s), Prog.bind_ok t1]
  simp only []
  rw [Prog.bind_ok (enterPhase_apply _ _), hs1, Prog.bind_ok f1, Prog.bind_ok (enterPhase_apply _ _), hs2, p2]
  have hc : (heldInsert (s.nextEntry .tx) s.tx.held).contains (s.nextEntry .tx) = true := by
    simp [heldInsert_mem]
  have e2s' : s2.stage = s.stage := e2s.trans e1s
  have e2t' := e2t.trans e1t
  have e2c' := e2c.trans e1c
  have e2m : s2.mem = s.mem.writeBytes s.txBufAddr (packet job.src job.dst s.stage) := by
    have : s2.mem = s1.mem.writeBytes (s1.mem.readLE (s1.tx.descEntryAddr (s.nextEntry .tx)) 4)
        (packet job.src job.dst s1.stage) := by rw [← hs2]; simp only [State.afterFill, State.setPhase_mem]
    rw [this, e1m, e1t, e1s]
    simp only [State.txBufAddr, RingCtx.descEntryAddr]
  have e1h : s1.history = s.history ++ s.takeEvents .tx := by rw [← hs1]; rfl
  have e2h : s2.history = s.history ++ s.takeEvents .tx ++ s.txDescEvents
      ++ byteWrites s.txBufAddr (packet job.src job.dst s.stage) := by
    have : s2.history = s1.history
        ++ [.rd .block (s1.tx.descEntryAddr (s.nextEntry .tx)) 4
              (s1.mem.readLE (s1.tx.descEntryAddr (s.nextEntry .tx)) 4),
            .rd .block (s1.tx.descEntryAddr (s.nextEntry .tx) + 8) 4
              (s1.mem.readLE (s1.tx.descEntryAddr (s.nextEntry .tx) + 8) 4)]
        ++ byteWrites (s1.mem.readLE (s1.tx.descEntryAddr (s.nextEntry .tx)) 4)
          (packet job.src job.dst s1.stage) := by
      rw [← hs2]; simp only [State.afterFill, State.setPhase_history]
    rw [this, e1h, e1m, e1t, e1s]
    simp only [State.txBufAddr, State.txBufLen, State.txDescEvents, RingCtx.descEntryAddr]
  have e2v : s2.verdicts = s.takeVerdicts .tx (s.nextEntry .tx) := by
    rw [← hs2, ← hs1]; rfl
  have e2r : s2.arg0 = s.arg0 ∧ s2.arg1 = s.arg1 ∧ s2.status = s.status ∧ s2.rx = s.rx ∧ s2.txKickCnt = s.txKickCnt
      ∧ s2.rxKickCnt = s.rxKickCnt ∧ s2.dropCnt = s.dropCnt ∧ s2.slots = s.slots ∧ s2.nextAddr = s.nextAddr
      ∧ s2.peerRx = s.peerRx ∧ s2.peerTx = s.peerTx ∧ s2.reads = s.reads ∧ s2.peerWrote = s.peerWrote := by
    rw [← hs2, ← hs1]; exact ⟨rfl, rfl, rfl, rfl, rfl, rfl, rfl, rfl, rfl, rfl, rfl, rfl, rfl⟩
  clear hs2 f1 p2 t1
  obtain ⟨r1, r2, r3, r4, r5, r6, r7, r8, r9, r10, r11, r12, r13⟩ := e2r
  refine congrArg (fun v => Except.ok ((), v)) ?_
  apply State.eq_of_fields <;>
  simp only [State.afterPublish, State.complete, State.setRing, State.ring, State.afterTransmit, hc, e2s', e2t', e2c',
    e2m, e2h, e2v, e2e, e1e, r1, r2, r3, r4, r5, r6, r7, r8, r9, r10, r11, r12, r13, Bool.not_true, Bool.or_false,
    publishMem, publishEvents, RingCtx.nextUsedAddr, RingCtx.usedEntryAddr, RingCtx.usedIdxAddr]

/-- TRANSMIT with no buffer offered holds (R530). -/
theorem transmit_holds {s : State} {job : TxJob} {cmd : Latched} {p : Phase} (h : s.quiet = true)
    (hs : s.seq = .run cmd p) (hb : s.admits s.tx.availIdxAddr 2 = true) (he : s.availIdx .tx = s.tx.lastAvail) :
    transmit job s = .error (.halt (s.afterHold cmd job)) := by
  have t1 : take .tx (s.setPhase (.waitBuf job)) = .ok (none, (s.setPhase (.waitBuf job)).afterHead .tx) :=
    take_none (s := s.setPhase (.waitBuf job)) (r := .tx) h hb he
  unfold transmit
  rw [Prog.bind_ok (enterPhase_apply _ s), Prog.bind_ok t1]
  simp only [hold_apply]
  refine congrArg (fun v => Except.error (Stop.halt v)) ?_
  apply State.eq_of_fields <;>
  simp [State.afterHold, State.afterHead, hs, Seq.withPhase, State.headVerdicts, State.headEvent, State.availIdx, State.ring]

/-! The name of a CH_CREATE. -/

theorem nameAt_length_le (m : Memory) (a n : Nat) : (nameAt m a n).length ≤ n := by
  induction n generalizing a with
  | zero => simp [nameAt]
  | succ n ih =>
    simp only [nameAt]
    split
    · simp
    · simp [ih]

theorem readName_backed {s : State} {a n : Nat} (h : s.quiet = true)
    (hb : s.backs a (nameBytesRead s.mem a n).length) :
    readName a n s = .ok (nameAt s.mem a n, s.afterByteReads a (nameBytesRead s.mem a n)) := by
  induction n generalizing s a with
  | zero => simp [readName, nameAt, nameBytesRead, State.afterByteReads, byteReads]
  | succ n ih =>
    have hq : (s.loadBy .block a .b1).quiet = true := h
    have h0 : s.admits a Width.b1.bytes = true := hb 0 (by simp only [nameBytesRead]; split <;> simp)
    simp only [readName]
    rw [Prog.bind_ok (memRead_backed h h0)]
    by_cases hz : s.mem.read a = 0
    · have hz' : s.mem.readLE a Width.b1.bytes = 0 := by simp [Width.bytes, Memory.readLE_one, hz]
      rw [if_pos hz', Prog.pure_apply]
      simp [nameAt, nameBytesRead, hz, State.afterByteReads, byteReads, State.loadBy, State.emit, Width.bytes,
        Memory.readLE_one]
    · have hz' : ¬ s.mem.readLE a Width.b1.bytes = 0 := by
        simp only [Width.bytes, Memory.readLE_one]
        intro hc
        exact hz (BitVec.eq_of_toNat_eq (by simpa using hc))
      have hrest : (s.loadBy .block a .b1).backs (a + 1) (nameBytesRead s.mem (a + 1) n).length := by
        intro k hk
        have := hb (k + 1) (by simp only [nameBytesRead, if_neg hz, List.length_cons]; omega)
        rw [show a + 1 + k = a + (k + 1) by omega]
        exact this
      have hz0 : ¬ s.mem.read a = 0#8 := hz
      rw [if_neg hz', Prog.bind_ok (ih hq hrest), Prog.pure_apply]
      simp [nameAt, nameBytesRead, hz0, State.afterByteReads, byteReads, State.loadBy, State.emit, Width.bytes,
        Memory.readLE_one]

/-! The inbound side. -/

theorem Memory.readBytes_drop_take (m : Memory) (a size off n : Nat) (h : off + n ≤ size) :
    ((m.readBytes a size).drop off).take n = m.readBytes (a + off) n := by
  induction off generalizing a size with
  | zero =>
    induction n generalizing a size with
    | zero => simp [Memory.readBytes]
    | succ n ih =>
      obtain ⟨size, rfl⟩ : ∃ k, size = k + 1 := ⟨size - 1, by omega⟩
      have := ih (a + 1) size (by omega)
      simp only [List.drop_zero, Nat.add_zero] at this ⊢
      simp [Memory.readBytes, this]
  | succ off ih =>
    obtain ⟨size, rfl⟩ : ∃ k, size = k + 1 := ⟨size - 1, by omega⟩
    simp only [Memory.readBytes, List.drop_succ_cons]
    rw [ih (a + 1) size (by omega)]
    congr 1
    omega

theorem headerField_readBytes (m : Memory) (a off n : Nat) (h : off + n ≤ hdrSize) :
    headerField (m.readBytes a hdrSize) off n = m.readLE (a + off) n := by
  unfold headerField Memory.readLE
  rw [Memory.readBytes_drop_take _ _ _ _ _ h]

@[simp] theorem State.afterByteReads_env (s : State) (a : Nat) (bs : List Byte) :
    (s.afterByteReads a bs).env = s.env := rfl

@[simp] theorem State.afterByteReads_cfg (s : State) (a : Nat) (bs : List Byte) :
    (s.afterByteReads a bs).cfg = s.cfg := rfl

@[simp] theorem State.afterByteReads_mem (s : State) (a : Nat) (bs : List Byte) :
    (s.afterByteReads a bs).mem = s.mem := rfl

@[simp] theorem State.afterByteReads_slots (s : State) (a : Nat) (bs : List Byte) :
    (s.afterByteReads a bs).slots = s.slots := rfl

theorem dropPacket_quiet {s : State} (h : s.quiet = true) :
    dropPacket s = .ok ((), { s with dropCnt := s.dropCnt + 1 }) := act_quiet h

theorem findChannel_some {s : State} {dst : Word} {i : Nat} {slot : Slot} (h : s.channelFor dst i slot) :
    findChannel dst s.slots = some i := by
  obtain ⟨hi, hne, hd, hlow⟩ := h
  unfold findChannel
  rw [List.findIdx?_eq_some_iff_getElem]
  obtain ⟨hlt, he⟩ := List.getElem?_eq_some_iff.mp hi
  refine ⟨hlt, by simp [he, hne, hd], fun j hj => ?_⟩
  have := hlow j hj _ (List.getElem?_eq_getElem (by omega))
  simp only [Bool.and_eq_true, decide_eq_true_eq]
  tauto

theorem findChannel_none {s : State} {dst : Word} (h : s.noChannelFor dst) : findChannel dst s.slots = none := by
  unfold findChannel
  rw [List.findIdx?_eq_none_iff]
  intro slot hs
  have := h slot hs
  simp only [Bool.and_eq_false_iff, decide_eq_false_iff_not]
  tauto

/-- The state after the delivery of R541 to slot `i`, its payload bytes read. -/
def State.afterDeliver (s : State) (i : Nat) (slot : Slot) (src dst : Word) (pa : Nat) (payload : List Byte) :
    State :=
  { s with
    slots := s.slots.set i { slot with state := .up, remote := src }
    history := s.history ++ byteReads pa payload ++ [.deliver i src dst payload] }

theorem dispatch_delivers {s : State} {src dst : Word} {pa plen i : Nat} {slot : Slot} (h : s.quiet = true)
    (hb : s.backs pa plen) (hc : s.channelFor dst i slot) :
    dispatch src dst pa plen s = .ok ((), s.afterDeliver i slot src dst pa (s.mem.readBytes pa plen)) := by
  unfold dispatch
  rw [Prog.bind_ok (getSlots_apply s), findChannel_some hc]
  simp only []
  rw [Prog.bind_ok (readBytes_backed h hb), act_quiet ((State.quiet_congr (State.afterByteReads_env _ _ _)).trans h)]
  simp [deliver, hc.1, State.afterDeliver, State.afterByteReads, State.emit, State.setSlot]

theorem dispatch_drops {s : State} {src dst : Word} {pa plen : Nat} (h : s.quiet = true)
    (hc : s.noChannelFor dst) : dispatch src dst pa plen s = .ok ((), { s with dropCnt := s.dropCnt + 1 }) := by
  unfold dispatch
  rw [Prog.bind_ok (getSlots_apply s), findChannel_none hc]
  exact dropPacket_quiet h

/-- RECEIVE's checks on a buffer shorter than a header (R540). -/
theorem inspectPacket_short {s : State} {ba dl : Nat} (h : s.quiet = true) (hd : dl < 16) :
    inspectPacket ba dl s = .ok ((), { s with dropCnt := s.dropCnt + 1 }) := by
  unfold inspectPacket
  rw [if_pos (by simpa [hdrSize] using hd), dropPacket_quiet h]

/-- RECEIVE's checks on a packet that is too long, or for no channel (R540, R541). -/
theorem inspectPacket_drops {s : State} {ba dl : Nat} (h : s.quiet = true) (hd : 16 ≤ dl) (hb : s.backs ba 16)
    (hx : 496 < s.mem.readLE (ba + 12) 2 ∨ dl < 16 + s.mem.readLE (ba + 12) 2
      ∨ s.noChannelFor (BitVec.ofNat 32 (s.mem.readLE (ba + 4) 4))) :
    inspectPacket ba dl s = .ok ((), { s with
      dropCnt := s.dropCnt + 1, history := s.history ++ byteReads ba (s.mem.readBytes ba 16) }) := by
  have hr := readBytes_backed (a := ba) (n := hdrSize) h hb
  have hq : (s.afterByteReads ba (s.mem.readBytes ba hdrSize)).quiet = true :=
    (State.quiet_congr (State.afterByteReads_env _ _ _)).trans h
  unfold inspectPacket
  rw [if_neg (by simp only [hdrSize]; omega), Prog.bind_ok hr]
  simp only [headerField_readBytes s.mem ba 12 2 (by simp [hdrSize]), headerField_readBytes s.mem ba 0 4 (by simp [hdrSize]),
    headerField_readBytes s.mem ba 4 4 (by simp [hdrSize])]
  split
  · rw [dropPacket_quiet hq]; rfl
  · next hn =>
    have hc : s.noChannelFor (BitVec.ofNat 32 (s.mem.readLE (ba + 4) 4)) := by
      simp only [hdrSize, maxPayload] at hn
      rcases hx with hx | hx | hx
      · omega
      · omega
      · exact hx
    rw [dispatch_drops hq hc]; rfl

/-- RECEIVE's checks on a packet for a channel (R540, R541). -/
theorem inspectPacket_delivers {s : State} {ba dl i : Nat} {slot : Slot} (h : s.quiet = true) (hd : 16 ≤ dl)
    (hb : s.backs ba dl) (h1 : s.mem.readLE (ba + 12) 2 ≤ 496) (h2 : 16 + s.mem.readLE (ba + 12) 2 ≤ dl)
    (hc : s.channelFor (BitVec.ofNat 32 (s.mem.readLE (ba + 4) 4)) i slot) :
    inspectPacket ba dl s = .ok ((), { s with
      slots := s.slots.set i { slot with state := .up, remote := BitVec.ofNat 32 (s.mem.readLE ba 4) }
      history := s.history ++ byteReads ba (s.mem.readBytes ba 16)
        ++ byteReads (ba + 16) (s.mem.readBytes (ba + 16) (s.mem.readLE (ba + 12) 2))
        ++ [.deliver i (BitVec.ofNat 32 (s.mem.readLE ba 4)) (BitVec.ofNat 32 (s.mem.readLE (ba + 4) 4))
              (s.mem.readBytes (ba + 16) (s.mem.readLE (ba + 12) 2))] }) := by
  have hb16 : s.backs ba hdrSize := fun k hk => hb k (by simp only [hdrSize] at hk; omega)
  have hr := readBytes_backed h hb16
  have hq : (s.afterByteReads ba (s.mem.readBytes ba hdrSize)).quiet = true :=
    (State.quiet_congr (State.afterByteReads_env _ _ _)).trans h
  unfold inspectPacket
  rw [if_neg (by simp only [hdrSize]; omega), Prog.bind_ok hr]
  simp only [headerField_readBytes s.mem ba 12 2 (by simp [hdrSize]), headerField_readBytes s.mem ba 0 4 (by simp [hdrSize]),
    headerField_readBytes s.mem ba 4 4 (by simp [hdrSize])]
  rw [if_neg (by simp only [hdrSize, maxPayload]; omega)]
  refine (dispatch_delivers hq (i := i) (slot := slot) ?_ hc).trans ?_
  · intro k hk
    rw [State.admits_congr (State.afterByteReads_cfg _ _ _)]
    have := hb (16 + k) (by omega)
    rw [show ba + hdrSize + k = ba + (16 + k) by simp only [hdrSize]; omega]
    exact this
  · simp [State.afterDeliver, State.afterByteReads, hdrSize]

/-- The state after the two reads of descriptor `d` in RECEIVE (R540). -/
def State.afterRxDesc (s : State) (d : Nat) : State :=
  { s with history := s.history
      ++ [.rd .block (s.rx.descEntryAddr d) 4 (s.rxBufAddr d), .rd .block (s.rx.descEntryAddr d + 8) 4 (s.rxBufLen d)] }

/-- RECEIVE(d) (R540): whatever its checks did, the descriptor is published back. -/
theorem receive_backed {s t : State} {d : Nat} (h : s.quiet = true) (hd : d < 2 ^ 32)
    (h1 : s.admits (s.rx.descEntryAddr d) 4 = true) (h2 : s.admits (s.rx.descEntryAddr d + 8) 4 = true)
    (hi : inspectPacket (s.rxBufAddr d) (s.rxBufLen d) (s.afterRxDesc d) = .ok ((), t))
    (he : t.env = s.env) (hc : t.cfg = s.cfg) (hp : t.publishBacked .rx) :
    receive d s = .ok ((), t.afterPublish .rx d (s.rxBufLen d) s.cfg.rxReturnKick) := by
  have r1 : memRead ((s.ring .rx).descEntryAddr d) .b4 s = .ok (s.rxBufAddr d,
    s.loadBy .block (s.rx.descEntryAddr d) .b4) := memRead_backed (w := .b4) h h1
  have r2 : memRead ((s.ring .rx).descEntryAddr d + 8) .b4 (s.loadBy .block (s.rx.descEntryAddr d) .b4)
      = .ok (s.rxBufLen d, s.afterRxDesc d) := by
    rw [memRead_backed (s := s.loadBy .block (s.rx.descEntryAddr d) .b4) (a := (s.ring .rx).descEntryAddr d + 8)
      (w := .b4) h h2]
    simp [State.loadBy, State.emit, State.afterRxDesc, State.rxBufLen, State.rxBufAddr, Width.bytes, State.ring]
  have hl : s.rxBufLen d < 2 ^ 32 := lt_of_lt_of_le (Memory.readLE_lt s.mem _ 4) (by norm_num)
  unfold receive
  rw [Prog.bind_ok (getRing_apply .rx s), Prog.bind_ok r1, Prog.bind_ok r2, Prog.bind_ok hi,
    Prog.bind_ok (getCfg_apply t), publish_backed ((State.quiet_congr he).trans h) hp hd hl, hc]

end Sys2Proof.Machine
end

