-- ==== Sys2Proof/Laws/Whole.lean ====
section
/-! SUPPORT. What a step of the machine can do, said once: `Whole.step` carries a property over every step, under every
schedule, from the elementary state changes of the block and of the other agents, and `Commands.exec_of_ne_poll` over
every command but POLL. Whole-machine statements follow by the small goals that are the fields of `Commands` and
`Whole`. What a property needs to know of the ring pair a command works on is its parameter `On`: `Inited`, or nothing
(`fun _ _ => True`). -/

namespace Sys2Proof.Machine

/-! Facts about the block that only a few of its own steps change. -/

/-- Two states agree on the configuration, the sequencer, the channel table, the stage, and which ring pairs are
initialised. -/
structure State.SameCore (s t : State) : Prop where
  cfg : t.cfg = s.cfg
  seq : t.seq = s.seq
  slots : t.slots = s.slots
  stage : t.stage = s.stage
  inited : ∀ r, (t.ring r).inited = (s.ring r).inited

theorem State.SameBlock.core {s t : State} (h : s.SameBlock t) : s.SameCore t where
  cfg := h.cfg
  seq := h.seq
  slots := h.slots
  stage := h.stage
  inited r := by cases r <;> simp [State.ring, h.rx, h.tx]

/-- A property that depends on those parts only. -/
def CoreFact (P : State → Prop) : Prop := ∀ s t, State.SameCore s t → P s → P t

theorem CoreFact.and {P Q : State → Prop} (hP : CoreFact P) (hQ : CoreFact Q) : CoreFact fun s => P s ∧ Q s :=
  fun s t h hs => ⟨hP s t h hs.1, hQ s t h hs.2⟩

/-- A command is running. -/
def Running (s : State) : Prop := ∃ cmd phase, s.seq = .run cmd phase

theorem running_core : CoreFact Running := fun s t h hs => by
  obtain ⟨c, p, hs⟩ := hs
  exact ⟨c, p, h.seq.trans hs⟩

/-- Ring pair `r` is initialised. -/
def Inited (r : RingId) (s : State) : Prop := (s.ring r).inited = true

theorem inited_core (r : RingId) : CoreFact (Inited r) := fun s t h hs => by
  unfold Inited at *
  rw [h.inited r]
  exact hs

/-- What carries a property over a command other than POLL: `I` is what holds while a command runs, `H` what holds
where it ends. -/
structure Commands (On : RingId → State → Prop) (H I : State → Prop) : Prop where
  /-- `On` holds of an initialised ring pair, and depends on what is initialised only. -/
  onCongr : ∀ r (s t : State), (∀ q, (t.ring q).inited = (s.ring q).inited) → On r s → On r t
  onInited : ∀ r s, Inited r s → On r s
  /-- The other agents, while a command runs. -/
  calm : Calm H I
  /-- Accesses and events of the block. -/
  load : ∀ s a w, I s → I (s.loadBy .block a w)
  store : ∀ s a w v, I s → s.admits a w.bytes = true → I (s.storeBy .block a w v)
  emit : ∀ s e, I s → I (s.emit e)
  /-- Ghost verdicts. -/
  peerOverrun : ∀ s b, I s → I (s.notePeerOverrun b)
  doubleOffer : ∀ s r d, I s → On r s → d < s.cfg.n → I (ghostTake r d s)
  publishNotHeld : ∀ s b, I s → I (s.notePublishNotHeld b)
  /-- Ring contexts. -/
  lastAvail : ∀ s r, I s → On r s → I (advanceLastAvail r s)
  release : ∀ s r d, I s → On r s → I (ghostRelease r d s)
  usedHead : ∀ s r, I s → On r s → I (advanceUsedHead r s)
  init : ∀ s r base, I s → base.toNat % 16 = 0 → base.toNat + layoutLen s.cfg.n base.toNat ≤ addrSpace →
    I (initRing r base s)
  /-- The sequencer within a command. -/
  phase : ∀ s p, I s → Running s → (∀ job, p = .waitBuf job → On .tx s) → (p = .drain → On .rx s) →
    I (s.setPhase p)
  /-- Channels and the stage. -/
  announce : ∀ s i nm, I s → firstUnused s.slots = some i → nm.length = nameLen → I (announceSlot i nm s)
  stage : ∀ s bs, I s → bs.length ≤ maxPayload → I (setStage bs s)
  trunc : ∀ s, I s → I (setTrunc s)
  dropped : ∀ s, I s → I { s with dropCnt := s.dropCnt + 1 }
  deliver : ∀ s i src dst payload slot, I s → s.slots[i]? = some slot → slot.state ≠ .unused →
    slot.localAddr = dst → I (deliver i src dst payload s)
  /-- The ends of a command. -/
  fault : ∀ s c, I s → Running s → c ≠ .none → H (s.takeFault c)
  complete : ∀ s v e, I s → H (s.complete v e)
  holdTx : ∀ s cmd job, I s → s.seq = .run cmd (.waitBuf job) → H s
  holdRx : ∀ s cmd, I s → s.seq = .run cmd .drain → H s
  /-- A `CMD` write. -/
  accept : ∀ s w, H s → s.accepting = true → I (s.accept w)
  overrun : ∀ s, H s → H s.dropCommand

/-- What carries a property over every step of the machine. -/
structure Whole (On : RingId → State → Prop) (H I : State → Prop) : Prop extends Commands On H I where
  /-- The two SWAPs. -/
  swapTx : ∀ s, I s → I { s with txKickCnt := 0 }
  swapRx : ∀ s, I s → I { s with rxKickCnt := 0 }
  /-- Between commands. -/
  resume : ∀ s, H s → s.status.faulted = false → Running s → I s
  resumeTx : ∀ s cmd job, H s → s.seq = .run cmd (.waitBuf job) → On .tx s
  resumeRx : ∀ s cmd, H s → s.seq = .run cmd .drain → On .rx s
  mark : ∀ s e rest, H s → s.env = e :: rest → (e = .block ∨ e = .settle) → H { s with env := rest }
  command : ∀ s rest m w, H s → s.env = .act m :: rest → m.command s.cfg = some w → H { s with env := rest }
  move : ∀ s rest m t, H s → s.env = .act m :: rest → m.apply { s with env := rest } = .ok t → H t
  reset : ∀ s rest, H s → s.env = .act .reset :: rest → H (State.blockReset { s with env := rest })

namespace Commands

variable {On : RingId → State → Prop} {H I P : State → Prop}

theorem onCore (hw : Commands On H I) (r : RingId) : CoreFact (On r) := fun s t h hs => hw.onCongr r s t h.inited hs

theorem calm_and (hw : Commands On H I) (hP : CoreFact P) : Calm H fun s => I s ∧ P s where
  mark s rest he hs := ⟨hw.calm.mark s rest he hs.1, hP s _ ⟨rfl, rfl, rfl, rfl, fun r => by cases r <;> rfl⟩ hs.2⟩
  move s rest m t he hs ha :=
    ⟨hw.calm.move s rest m t he hs.1 ha, by
      have h1 : P { s with env := rest } := hP s _ ⟨rfl, rfl, rfl, rfl, fun r => by cases r <;> rfl⟩ hs.2
      exact hP _ _ (Move.apply_sameBlock ha).core h1⟩
  reset s rest he hs := hw.calm.reset s rest he hs.1

theorem memRead (hw : Commands On H I) (hP : CoreFact P) (hr : ∀ s, P s → Running s) (a : Nat) (w : Width) :
    Prog.Triple H (fun s => I s ∧ P s) (memRead a w) fun _ s => I s ∧ P s :=
  memRead_triple (hw.calm_and hP) (fun s hs => hw.fault s _ hs.1 (hr s hs.2) (by decide)) fun s hs _ =>
    ⟨hw.load s a w hs.1, hP s _ ⟨rfl, rfl, rfl, rfl, fun r => by cases r <;> rfl⟩ hs.2⟩

theorem memWrite (hw : Commands On H I) (hP : CoreFact P) (hr : ∀ s, P s → Running s) (a v : Nat) (w : Width) :
    Prog.Triple H (fun s => I s ∧ P s) (memWrite a w v) fun _ s => I s ∧ P s :=
  memWrite_triple (hw.calm_and hP) (fun s hs => hw.fault s _ hs.1 (hr s hs.2) (by decide)) fun s hs hb =>
    ⟨hw.store s a w v hs.1 hb, hP s _ ⟨rfl, rfl, rfl, rfl, fun r => by cases r <;> rfl⟩ hs.2⟩

theorem readBytes (hw : Commands On H I) (hP : CoreFact P) (hr : ∀ s, P s → Running s) (a n : Nat) :
    Prog.Triple H (fun s => I s ∧ P s) (readBytes a n) fun bs s => (I s ∧ P s) ∧ bs.length = n := by
  induction n generalizing a with
  | zero => exact Prog.Triple.pure fun s hs => ⟨hs, rfl⟩
  | succ n ih =>
    refine Prog.Triple.bind (hw.memRead hP hr a .b1) fun b => ?_
    refine Prog.Triple.bind (ih (a + 1)) fun bs => ?_
    exact Prog.Triple.pure fun s hs => ⟨hs.1, by simp [hs.2]⟩

theorem writeBytes (hw : Commands On H I) (hP : CoreFact P) (hr : ∀ s, P s → Running s) (a : Nat) (bs : List Byte) :
    Prog.Triple H (fun s => I s ∧ P s) (writeBytes a bs) fun _ s => I s ∧ P s := by
  induction bs generalizing a with
  | nil => exact Prog.Triple.pure fun s hs => hs
  | cons b bs ih =>
    refine Prog.Triple.bind (hw.memWrite hP hr a b.toNat .b1) fun _ => ?_
    exact ih (a + 1)

theorem readName (hw : Commands On H I) (hP : CoreFact P) (hr : ∀ s, P s → Running s) (a n : Nat) :
    Prog.Triple H (fun s => I s ∧ P s) (readName a n) fun bs s => (I s ∧ P s) ∧ bs.length ≤ n := by
  induction n generalizing a with
  | zero => exact Prog.Triple.pure fun s hs => ⟨hs, by simp⟩
  | succ n ih =>
    refine Prog.Triple.bind (hw.memRead hP hr a .b1) fun b => ?_
    refine Prog.Triple.ite (fun _ => Prog.Triple.pure fun s hs => ⟨hs, by simp⟩) fun _ => ?_
    refine Prog.Triple.bind (ih (a + 1)) fun bs => ?_
    exact Prog.Triple.pure fun s hs => ⟨hs.1, by simp; omega⟩

theorem emitEvent (hw : Commands On H I) (hP : CoreFact P) (e : Event) :
    Prog.Triple H (fun s => I s ∧ P s) (emitEvent e) fun _ s => I s ∧ P s :=
  act_triple (hw.calm_and hP) fun s hs =>
    ⟨hw.emit s e hs.1, hP s _ ⟨rfl, rfl, rfl, rfl, fun r => by cases r <;> rfl⟩ hs.2⟩

theorem finish (hw : Commands On H I) (hP : CoreFact P) (v : Word) :
    Prog.Triple H (fun s => I s ∧ P s) (finish v) fun _ => H :=
  act_triple (hw.calm_and hP) fun s hs => hw.complete s v .ok hs.1

theorem failWith {α : Type} {Q : α → State → Prop} (hw : Commands On H I) (hP : CoreFact P) (c : ErrCode) :
    Prog.Triple H (fun s => I s ∧ P s) (failWith c) Q :=
  failWith_triple (hw.calm_and hP) fun s hs => hw.complete s 0 c hs.1

theorem raiseFault {α : Type} {Q : α → State → Prop} (hw : Commands On H I) (hP : CoreFact P) (hr : ∀ s, P s → Running s)
    {c : FaultCode} (hc : c ≠ .none) : Prog.Triple H (fun s => I s ∧ P s) (raiseFault c) Q :=
  raiseFault_triple (hw.calm_and hP) fun s hs => hw.fault s c hs.1 (hr s hs.2) hc

theorem requireInit (hw : Commands On H I) (hP : CoreFact P) (r : RingId) :
    Prog.Triple H (fun s => I s ∧ P s) (requireInit r) fun _ s => I s ∧ P s ∧ On r s := by
  intro s hs
  unfold Machine.requireInit
  rw [Prog.bind_ok (getRing_apply r s)]
  by_cases hi : (s.ring r).inited = true
  · rw [if_pos hi]; exact ⟨hs.1, hs.2, hw.onInited r s hi⟩
  · rw [if_neg hi]; exact hw.failWith hP .notInit s hs

theorem availHead (hw : Commands On H I) (hP : CoreFact P) (hr : ∀ s, P s → Running s) (r : RingId) :
    Prog.Triple H (fun s => I s ∧ P s) (availHead r) fun _ s => I s ∧ P s := by
  intro s hs
  unfold Machine.availHead
  rw [Prog.bind_ok (getRing_apply r s)]
  refine Prog.Triple.bind (hw.memRead hP hr _ _) (fun v => ?_) s hs
  refine Prog.Triple.bind (Q := fun _ s => I s ∧ P s) ?_ fun _ => Prog.Triple.pure fun s hs => hs
  exact fun s hs =>
    ⟨hw.peerOverrun s _ hs.1, hP s _ ⟨rfl, rfl, rfl, rfl, fun r => by cases r <;> rfl⟩ hs.2⟩

theorem sameCore_advanceLastAvail (s : State) (r : RingId) : s.SameCore (advanceLastAvail r s) :=
  ⟨by simp, by simp, by simp, by simp, fun q => by cases r <;> cases q <;> rfl⟩

theorem sameCore_advanceUsedHead (s : State) (r : RingId) : s.SameCore (advanceUsedHead r s) :=
  ⟨by simp, by simp, by simp, by simp, fun q => by cases r <;> cases q <;> rfl⟩

theorem sameCore_ghostTake (s : State) (r : RingId) (d : Nat) : s.SameCore (ghostTake r d s) :=
  ⟨by simp, by simp, by simp, by simp, fun q => by cases r <;> cases q <;> rfl⟩

theorem sameCore_ghostRelease (s : State) (r : RingId) (d : Nat) : s.SameCore (ghostRelease r d s) :=
  ⟨by simp, by simp, by simp, by simp, fun q => by cases r <;> cases q <;> rfl⟩

theorem take (hw : Commands On H I) (hP : CoreFact P) (hr : ∀ s, P s → Running s) (r : RingId)
    (hi : ∀ s, P s → On r s) :
    Prog.Triple H (fun s => I s ∧ P s) (take r) fun _ s => I s ∧ P s := by
  unfold Machine.take
  refine Prog.Triple.bind (hw.availHead hP hr r) fun a => ?_
  intro s hs
  rw [Prog.bind_ok (getRing_apply r s)]
  by_cases ha : a = (s.ring r).lastAvail
  · rw [if_pos ha]; exact hs
  · rw [if_neg ha, Prog.bind_ok (getCfg_apply s)]
    have hP' : CoreFact fun t => P t ∧ t.cfg = s.cfg := hP.and fun t u h ht => h.cfg.trans ht
    refine Prog.Triple.bind (hw.memRead hP' (fun t ht => hr t ht.1) _ _) (fun d => ?_) s ⟨hs.1, hs.2, rfl⟩
    refine Prog.Triple.ite (fun _ => hw.raiseFault hP' (fun t ht => hr t ht.1) (by decide)) fun hd => ?_
    refine Prog.Triple.bind (Q := fun _ t => I t ∧ P t) ?_ fun _ => ?_
    · intro t ht
      exact ⟨hw.doubleOffer t r d ht.1 (hi t ht.2.1) (by rw [ht.2.2]; omega),
        hP t _ (sameCore_ghostTake t r d) ht.2.1⟩
    · refine Prog.Triple.bind (Q := fun _ t => I t ∧ P t) ?_ fun _ => Prog.Triple.pure fun s hs => hs
      exact act_triple (hw.calm_and hP) fun t ht =>
        ⟨hw.lastAvail t r ht.1 (hi t ht.2), hP t _ (sameCore_advanceLastAvail t r) ht.2⟩

theorem publish (hw : Commands On H I) (hP : CoreFact P) (hr : ∀ s, P s → Running s) (r : RingId)
    (hi : ∀ s, P s → On r s) (d len : Nat) (kick : Bool) :
    Prog.Triple H (fun s => I s ∧ P s) (publish r d len kick) fun _ s => I s ∧ P s := by
  unfold Machine.publish
  refine Prog.Triple.bind (Q := fun _ t => I t ∧ P t) ?_ fun _ => ?_
  · exact fun s hs =>
      ⟨hw.publishNotHeld s _ hs.1, hP s _ ⟨rfl, rfl, rfl, rfl, fun r => by cases r <;> rfl⟩ hs.2⟩
  intro s hs
  rw [Prog.bind_ok (getRing_apply r s), Prog.bind_ok (getCfg_apply s)]
  refine Prog.Triple.bind (hw.memWrite hP hr _ _ _) (fun _ => ?_) s hs
  refine Prog.Triple.bind (hw.memWrite hP hr _ _ _) fun _ => ?_
  refine Prog.Triple.bind (hw.emitEvent hP .barrier) fun _ => ?_
  refine Prog.Triple.bind (hw.memWrite hP hr _ _ _) fun _ => ?_
  refine Prog.Triple.bind (Q := fun _ t => I t ∧ P t) ?_ fun _ => ?_
  · exact fun t ht => ⟨hw.release t r d ht.1 (hi t ht.2), hP t _ (sameCore_ghostRelease t r d) ht.2⟩
  refine Prog.Triple.bind (Q := fun _ t => I t ∧ P t) ?_ fun _ => ?_
  · exact act_triple (hw.calm_and hP) fun t ht =>
      ⟨hw.usedHead t r ht.1 (hi t ht.2), hP t _ (sameCore_advanceUsedHead t r) ht.2⟩
  refine Prog.Triple.bind (hw.emitEvent hP .barrier) fun _ => ?_
  refine Prog.Triple.bind (hw.emitEvent hP _) fun _ => ?_
  refine Prog.Triple.ite (fun _ => hw.emitEvent hP _) fun _ => Prog.Triple.pure fun s hs => hs

/-- A running command with ring pair `r` initialised. -/
abbrev RunningOn (On : RingId → State → Prop) (r : RingId) (s : State) : Prop := Running s ∧ On r s

theorem runningOn_core (hw : Commands On H I) (r : RingId) : CoreFact (RunningOn On r) := running_core.and (hw.onCore r)

theorem runningOn_congr (hw : Commands On H I) {r : RingId} {s t : State} (h : RunningOn On r s)
    (hs : t.seq = s.seq) (hx : t.rx = s.rx) (ht : t.tx = s.tx) : RunningOn On r t := by
  obtain ⟨⟨c, p, hc⟩, ho⟩ := h
  exact ⟨⟨c, p, hs.trans hc⟩, hw.onCongr r s t (fun q => by cases q <;> simp [State.ring, hx, ht]) ho⟩

theorem enterPhase (hw : Commands On H I) (r : RingId) (p : Phase) (htx : ∀ job, p = .waitBuf job → r = .tx)
    (hrx : p = .drain → r = .rx) :
    Prog.Triple H (fun s => I s ∧ RunningOn On r s) (enterPhase p)
      fun _ s => I s ∧ RunningOn On r s ∧ ∃ cmd, s.seq = .run cmd p := by
  intro s hs
  obtain ⟨hI, ⟨c, q, hq⟩, hi⟩ := hs
  have h1 : (s.setPhase p).seq = .run c p := by simp [hq, Seq.withPhase]
  refine ⟨hw.phase s p hI ⟨c, q, hq⟩ (fun job hj => ?_) (fun hd => ?_), ⟨⟨c, p, h1⟩, ?_⟩, c, h1⟩
  · rw [htx job hj] at hi; exact hi
  · rw [hrx hd] at hi; exact hi
  · exact hw.onCongr r s _ (fun q => by simp) hi

theorem fillBuffer (hw : Commands On H I) (job : TxJob) (d : Nat) :
    Prog.Triple H (fun s => I s ∧ RunningOn On .tx s) (fillBuffer job d) fun _ s => I s ∧ RunningOn On .tx s := by
  have hP := hw.runningOn_core .tx
  have hr : ∀ s, RunningOn On .tx s → Running s := fun s hs => hs.1
  intro s hs
  unfold Machine.fillBuffer
  rw [Prog.bind_ok (getRing_apply .tx s)]
  refine Prog.Triple.bind (hw.memRead hP hr _ _) (fun baddr => ?_) s hs
  refine Prog.Triple.bind (hw.memRead hP hr _ _) fun cap => ?_
  intro s hs
  rw [Prog.bind_ok (getStage_apply s)]
  refine Prog.Triple.ite (fun _ => hw.raiseFault hP hr (by decide)) (fun _ => ?_) s hs
  refine Prog.Triple.bind (hw.writeBytes hP hr _ _) fun _ => hw.writeBytes hP hr _ _

theorem publishPacket (hw : Commands On H I) (job : TxJob) (d : Nat) :
    Prog.Triple H (fun s => I s ∧ RunningOn On .tx s) (publishPacket job d) fun _ => H := by
  intro s hs
  unfold Machine.publishPacket
  rw [Prog.bind_ok (getStage_apply s)]
  refine Prog.Triple.bind (hw.publish (hw.runningOn_core .tx) (fun s hs => hs.1) .tx (fun s hs => hs.2) _ _ _)
    (fun _ => ?_) s hs
  exact hw.finish (hw.runningOn_core .tx) _

theorem transmit (hw : Commands On H I) (job : TxJob) :
    Prog.Triple H (fun s => I s ∧ RunningOn On .tx s) (transmit job) fun _ => H := by
  unfold Machine.transmit
  refine Prog.Triple.bind (hw.enterPhase .tx _ (fun _ _ => rfl) (fun h => by cases h)) fun _ => ?_
  have hP : CoreFact fun s => RunningOn On .tx s ∧ ∃ cmd, s.seq = .run cmd (.waitBuf job) :=
    (hw.runningOn_core .tx).and fun s t h ⟨c, hs⟩ => ⟨c, h.seq.trans hs⟩
  refine Prog.Triple.bind (hw.take hP (fun s hs => hs.1.1) .tx fun s hs => hs.1.2) fun o => ?_
  cases o with
  | none => exact fun s ⟨hI, _, cmd, hs⟩ => hw.holdTx s cmd job hI hs
  | some d =>
    refine Prog.Triple.bind (Q := fun _ s => I s ∧ RunningOn On .tx s) ?_ fun _ => ?_
    · exact ((hw.enterPhase .tx (.fill job) (fun _ h => by cases h) (fun h => by cases h)).weaken
        (fun s hs => ⟨hs.1, hs.2.1⟩) fun _ s hs => ⟨hs.1, hs.2.1⟩)
    refine Prog.Triple.bind (hw.fillBuffer job d) fun _ => ?_
    refine Prog.Triple.bind (Q := fun _ s => I s ∧ RunningOn On .tx s) ?_ fun _ => hw.publishPacket job d
    exact ((hw.enterPhase .tx (.pub job) (fun _ h => by cases h) (fun h => by cases h)).weaken
      (fun s hs => hs) fun _ s hs => ⟨hs.1, hs.2.1⟩)

theorem createChannel (hw : Commands On H I) (i : Nat) :
    Prog.Triple H (fun s => I s ∧ RunningOn On .tx s ∧ firstUnused s.slots = some i) (createChannel i) fun _ => H := by
  have hP : CoreFact fun s => RunningOn On .tx s ∧ firstUnused s.slots = some i :=
    (hw.runningOn_core .tx).and fun s t h hs => by rw [h.slots]; exact hs
  intro s hs
  unfold Machine.createChannel
  rw [Prog.bind_ok (operand0_apply s)]
  refine Prog.Triple.bind (hw.readName hP (fun s hs => hs.1.1) _ _) (fun bs => ?_) s hs
  intro s hs
  have hlen : (padName bs).length = nameLen := by
    have := hs.2
    simp [padName]
    omega
  refine Prog.Triple.bind (Q := fun _ => fun s => I s ∧ RunningOn On .tx s ∧ firstUnused s.slots = some i)
    (fun s hs => hs) (fun addr => ?_) s hs.1
  intro s hs
  rw [Prog.bind_ok (getCfg_apply s)]
  refine Prog.Triple.bind (P := fun s => I s ∧ RunningOn On .tx s ∧ firstUnused s.slots = some i)
    (Q := fun _ s => I s ∧ RunningOn On .tx s) ?_ (fun _ => ?_) s hs
  · exact act_triple (hw.calm_and hP) fun t ht =>
      ⟨hw.announce t i _ ht.1 ht.2.2 hlen, hw.runningOn_congr ht.2.1 rfl rfl rfl⟩
  refine Prog.Triple.bind (Q := fun _ s => I s ∧ RunningOn On .tx s) ?_ fun _ => hw.transmit _
  refine act_triple (hw.calm_and (hw.runningOn_core .tx)) fun t ht => ⟨hw.stage t _ ht.1 ?_, hw.runningOn_congr ht.2 rfl rfl rfl⟩
  simp [announcement, hlen, nameLen, maxPayload]

theorem sendOn (hw : Commands On H I) (slot : Slot) :
    Prog.Triple H (fun s => I s ∧ Running s) (sendOn slot) fun _ => H := by
  have hP := hw.runningOn_core .tx
  unfold Machine.sendOn
  refine Prog.Triple.bind (hw.requireInit running_core .tx) fun _ => ?_
  intro s hs
  rw [Prog.bind_ok (operand0_apply s), Prog.bind_ok (operand1_apply s)]
  refine Prog.Triple.bind (P := fun s => I s ∧ RunningOn On .tx s) (Q := fun _ s => I s ∧ RunningOn On .tx s) ?_
    (fun _ => ?_) s hs
  · unfold markTrunc
    refine Prog.Triple.ite (fun _ => ?_) fun _ => Prog.Triple.pure fun s hs => hs
    exact act_triple (hw.calm_and hP) fun t ht => ⟨hw.trunc t ht.1, hw.runningOn_congr ht.2 rfl rfl rfl⟩
  refine Prog.Triple.bind (hw.readBytes hP (fun s hs => hs.1) _ _) fun bs => ?_
  intro s hs
  refine Prog.Triple.bind (P := fun s => I s ∧ RunningOn On .tx s) (Q := fun _ s => I s ∧ RunningOn On .tx s) ?_
    (fun _ => hw.transmit _) s hs.1
  refine act_triple (hw.calm_and hP) fun t ht => ⟨hw.stage t _ ht.1 ?_, hw.runningOn_congr ht.2 rfl rfl rfl⟩
  rw [hs.2]
  exact Nat.min_le_right _ _

/-- A drain under way. -/
abbrev Draining (On : RingId → State → Prop) (s : State) : Prop := RunningOn On .rx s ∧ ∃ cmd, s.seq = .run cmd .drain

theorem draining_congr (hw : Commands On H I) {s t : State} (h : Draining On s)
    (hs : t.seq = s.seq) (hx : t.rx = s.rx) (ht : t.tx = s.tx) : Draining On t :=
  ⟨hw.runningOn_congr h.1 hs hx ht, h.2.imp fun _ hc => hs.trans hc⟩

theorem draining_core (hw : Commands On H I) : CoreFact (Draining On) :=
  (hw.runningOn_core .rx).and fun _ _ h ⟨c, hs⟩ => ⟨c, h.seq.trans hs⟩

theorem dispatch (hw : Commands On H I) (src dst : Word) (pa plen : Nat) :
    Prog.Triple H (fun s => I s ∧ Draining On s) (dispatch src dst pa plen) fun _ s => I s ∧ Draining On s := by
  have hP := hw.draining_core
  intro s hs
  unfold Machine.dispatch
  rw [Prog.bind_ok (getSlots_apply s)]
  cases hf : findChannel dst s.slots with
  | none => exact act_triple (hw.calm_and hP) (fun t ht => ⟨hw.dropped t ht.1, hw.draining_congr ht.2 rfl rfl rfl⟩) s hs
  | some i =>
    have hP' : CoreFact fun t => Draining On t ∧ findChannel dst t.slots = some i :=
      hP.and fun t u h ht => by rw [h.slots]; exact ht
    refine Prog.Triple.bind (hw.readBytes hP' (fun s hs => hs.1.1.1) _ _) (fun payload => ?_) s ⟨hs.1, hs.2, hf⟩
    refine Prog.Triple.weaken (Q := fun _ s => I s ∧ Draining On s)
      (act_triple (hw.calm_and hP') fun t ht => ?_) (fun t ht => ht.1) fun _ t ht => ht
    obtain ⟨hI, hrun, hfind⟩ := ht
    obtain ⟨slot, hslot, hstate, hdst⟩ : ∃ slot, t.slots[i]? = some slot ∧ slot.state ≠ .unused
        ∧ slot.localAddr = dst := by
      unfold findChannel at hfind
      rw [List.findIdx?_eq_some_iff_getElem] at hfind
      obtain ⟨hi, hp, _⟩ := hfind
      simp only [Bool.and_eq_true, decide_eq_true_eq] at hp
      exact ⟨t.slots[i], List.getElem?_eq_getElem hi, hp.1, hp.2⟩
    refine ⟨hw.deliver t i src dst payload slot hI hslot hstate hdst, ?_⟩
    refine hw.draining_congr hrun ?_ ?_ ?_ <;> unfold Machine.deliver <;> rw [hslot] <;> rfl

theorem dropPacket (hw : Commands On H I) :
    Prog.Triple H (fun s => I s ∧ Draining On s) dropPacket fun _ s => I s ∧ Draining On s :=
  act_triple (hw.calm_and hw.draining_core) fun t ht => ⟨hw.dropped t ht.1, hw.draining_congr ht.2 rfl rfl rfl⟩

theorem inspectPacket (hw : Commands On H I) (ba dl : Nat) :
    Prog.Triple H (fun s => I s ∧ Draining On s) (inspectPacket ba dl) fun _ s => I s ∧ Draining On s := by
  unfold Machine.inspectPacket
  refine Prog.Triple.ite (fun _ => hw.dropPacket) fun _ => ?_
  refine Prog.Triple.bind (hw.readBytes hw.draining_core (fun s hs => hs.1.1) _ _) fun hdr => ?_
  refine Prog.Triple.weaken (P := fun s => I s ∧ Draining On s) (Q := fun _ s => I s ∧ Draining On s) ?_
    (fun s hs => hs.1) fun _ s hs => hs
  exact Prog.Triple.ite (fun _ => hw.dropPacket) fun _ => hw.dispatch _ _ _ _

theorem receive (hw : Commands On H I) (d : Nat) :
    Prog.Triple H (fun s => I s ∧ Draining On s) (receive d) fun _ s => I s ∧ Draining On s := by
  have hP := hw.draining_core
  have hr : ∀ s, Draining On s → Running s := fun s hs => hs.1.1
  intro s hs
  unfold Machine.receive
  rw [Prog.bind_ok (getRing_apply .rx s)]
  refine Prog.Triple.bind (hw.memRead hP hr _ _) (fun ba => ?_) s hs
  refine Prog.Triple.bind (hw.memRead hP hr _ _) fun dl => ?_
  refine Prog.Triple.bind (hw.inspectPacket _ _) fun _ => ?_
  intro s hs
  rw [Prog.bind_ok (getCfg_apply s)]
  exact hw.publish hP hr .rx (fun s hs => hs.1.2) _ _ _ s hs

theorem drain (hw : Commands On H I) (k : Nat) :
    Prog.Triple H (fun s => I s ∧ Draining On s) (drain k) fun _ s => I s ∧ Draining On s := by
  induction k with
  | zero => exact fun s ⟨hI, _, cmd, hs⟩ => hw.holdRx s cmd hI hs
  | succ k ih =>
    unfold Machine.drain
    refine Prog.Triple.bind (hw.take hw.draining_core (fun s hs => hs.1.1) .rx fun s hs => hs.1.2) fun o => ?_
    cases o with
    | none => exact Prog.Triple.pure fun s hs => hs
    | some d => exact Prog.Triple.bind (hw.receive d) fun _ => ih

theorem drainAndFinish (hw : Commands On H I) :
    Prog.Triple H (fun s => I s ∧ RunningOn On .rx s) drainAndFinish fun _ => H := by
  unfold Machine.drainAndFinish
  refine Prog.Triple.bind (hw.enterPhase .rx .drain (fun _ h => by cases h) (fun _ => rfl)) fun _ => ?_
  exact Prog.Triple.bind (hw.drain _) fun _ => hw.finish hw.draining_core _

/-! The commands. -/

theorem ringInitBody (hw : Commands On H I) (r : RingId) :
    Prog.Triple H (fun s => I s ∧ Running s) (ringInitBody r) fun _ => H := by
  intro s hs
  unfold Machine.ringInitBody
  rw [Prog.bind_ok (operand0_apply s), Prog.bind_ok (getCfg_apply s)]
  have hP : CoreFact fun t => Running t ∧ t.cfg = s.cfg := running_core.and fun t u h ht => h.cfg.trans ht
  refine Prog.Triple.ite (P := fun t => I t ∧ Running t ∧ t.cfg = s.cfg) (fun _ => hw.failWith hP _)
    (fun hal => ?_) s ⟨hs.1, hs.2, rfl⟩
  refine Prog.Triple.ite (fun _ => hw.failWith hP _) (fun hrange => ?_)
  refine Prog.Triple.bind (Q := fun _ t => I t ∧ Running t) ?_ fun _ => hw.finish running_core _
  refine act_triple (hw.calm_and hP) fun t ht => ⟨hw.init t r _ ht.1 (by omega) ?_, ?_⟩
  · rw [ht.2.2]; omega
  · obtain ⟨c, p, hc⟩ := ht.2.1
    exact ⟨c, p, by rw [← hc]; cases r <;> rfl⟩

theorem ringTryTakeBody (hw : Commands On H I) (r : RingId) :
    Prog.Triple H (fun s => I s ∧ Running s) (ringTryTakeBody r) fun _ => H := by
  unfold Machine.ringTryTakeBody
  refine Prog.Triple.bind (hw.requireInit running_core r) fun _ => ?_
  refine Prog.Triple.bind (hw.take (hw.runningOn_core r) (fun s hs => hs.1) r fun s hs => hs.2) fun o => ?_
  exact hw.finish (hw.runningOn_core r) _

theorem ringHasIncomingBody (hw : Commands On H I) (r : RingId) :
    Prog.Triple H (fun s => I s ∧ Running s) (ringHasIncomingBody r) fun _ => H := by
  unfold Machine.ringHasIncomingBody
  refine Prog.Triple.bind (hw.requireInit running_core r) fun _ => ?_
  refine Prog.Triple.bind (hw.availHead (hw.runningOn_core r) (fun s hs => hs.1) r) fun a => ?_
  intro s hs
  rw [Prog.bind_ok (getRing_apply r s)]
  exact hw.finish (hw.runningOn_core r) _ s hs

theorem ringPublishBody (hw : Commands On H I) (r : RingId) (kick : Bool) (idx : Nat) :
    Prog.Triple H (fun s => I s ∧ Running s) (ringPublishBody r kick idx) fun _ => H := by
  unfold Machine.ringPublishBody
  refine Prog.Triple.bind (hw.requireInit running_core r) fun _ => ?_
  intro s hs
  rw [Prog.bind_ok (getCfg_apply s)]
  refine Prog.Triple.ite (fun _ => hw.failWith (hw.runningOn_core r) _) (fun _ => ?_) s hs
  intro s hs
  rw [Prog.bind_ok (operand0_apply s)]
  refine Prog.Triple.bind (hw.publish (hw.runningOn_core r) (fun s hs => hs.1) r (fun s hs => hs.2) _ _ _)
    (fun _ => ?_) s hs
  exact hw.finish (hw.runningOn_core r) _

theorem chCreateBody (hw : Commands On H I) :
    Prog.Triple H (fun s => I s ∧ Running s) chCreateBody fun _ => H := by
  unfold Machine.chCreateBody
  refine Prog.Triple.bind (hw.requireInit running_core .tx) fun _ => ?_
  intro s hs
  rw [Prog.bind_ok (getSlots_apply s)]
  cases hf : firstUnused s.slots with
  | none => exact hw.failWith (hw.runningOn_core .tx) _ s hs
  | some i => exact hw.createChannel i s ⟨hs.1, hs.2, hf⟩

theorem chSendBody (hw : Commands On H I) (idx : Nat) :
    Prog.Triple H (fun s => I s ∧ Running s) (chSendBody idx) fun _ => H := by
  intro s hs
  unfold Machine.chSendBody
  rw [Prog.bind_ok (getCfg_apply s), Prog.bind_ok (getSlots_apply s)]
  cases sendingSlot s.cfg s.slots idx with
  | none => exact hw.finish running_core _ s hs
  | some slot => exact hw.sendOn slot s hs

/-- A `CMD` write, accepted or dropped (R105). -/
theorem issue (hw : Commands On H I) {w : Word} {body : Prog Unit}
    (hb : Prog.Triple H (fun s => I s ∧ Running s) body fun _ => H) {s t : State} (hs : H s)
    (h : issue w body s = .next t) : H t := by
  unfold Machine.issue at h
  by_cases ha : s.accepting = true
  · rw [if_pos ha] at h
    exact hb.outcome ⟨hw.accept s w hs ha, _, _, rfl⟩ h
  · rw [if_neg ha] at h
    cases h
    exact hw.overrun s hs

/-- A property with the fields of `Commands` is kept by every command but POLL. -/
theorem exec_of_ne_poll (hw : Commands On H I) {i : Instr} {s t : State} (hi : i ≠ .poll) (hs : H s)
    (h : exec i s = .next t) : H t := by
  cases i with
  | ringInit r => exact hw.issue (hw.ringInitBody r) hs h
  | ringTryTake r => exact hw.issue (hw.ringTryTakeBody r) hs h
  | ringHasIncoming r => exact hw.issue (hw.ringHasIncomingBody r) hs h
  | ringPublish r k i => exact hw.issue (hw.ringPublishBody r k i) hs h
  | chCreate => exact hw.issue hw.chCreateBody hs h
  | chSend i => exact hw.issue (hw.chSendBody i) hs h
  | poll => exact absurd rfl hi

end Commands

namespace Whole

variable {On : RingId → State → Prop} {H I P : State → Prop}

open Commands

theorem pollBody (hw : Whole On H I) : Prog.Triple H (fun s => I s ∧ Running s) pollBody fun _ => H := by
  have hP := hw.runningOn_core .rx
  unfold Machine.pollBody
  refine Prog.Triple.bind (hw.requireInit running_core .rx) fun _ => ?_
  refine Prog.Triple.bind (Q := fun _ s => I s ∧ RunningOn On .rx s) ?_ fun tx => ?_
  · exact Prog.Triple.bind (yield_triple (hw.calm_and hP)) fun _ => fun s hs => ⟨hw.swapTx s hs.1, hw.runningOn_congr hs.2 rfl rfl rfl⟩
  refine Prog.Triple.bind (Q := fun _ s => I s ∧ RunningOn On .rx s) ?_ fun rx => ?_
  · exact Prog.Triple.bind (yield_triple (hw.calm_and hP)) fun _ => fun s hs => ⟨hw.swapRx s hs.1, hw.runningOn_congr hs.2 rfl rfl rfl⟩
  refine Prog.Triple.bind (Q := fun _ s => I s ∧ RunningOn On .rx s) ?_ fun _ => ?_
  · unfold maintainCache
    exact Prog.Triple.ite (fun _ => hw.emitEvent hP _) fun _ => Prog.Triple.pure fun s hs => hs
  exact Prog.Triple.ite (fun _ => hw.drainAndFinish) fun _ => hw.finish hP _

theorem exec (hw : Whole On H I) {i : Instr} {s t : State} (hs : H s) (h : exec i s = .next t) : H t := by
  by_cases hi : i = .poll
  · subst hi; exact hw.toCommands.issue hw.pollBody hs h
  · exact hw.toCommands.exec_of_ne_poll hi hs h

theorem rejectWord (hw : Whole On H I) {w : Word} {e : DecodeError} {s t : State} (hs : H s)
    (h : rejectWord w e s = .next t) : H t :=
  hw.issue (hw.failWith running_core _) hs h

theorem blockMove (hw : Whole On H I) {s t : State} (hs : H s) (h : blockMove s = .next t) : H t := by
  unfold Machine.blockMove at h
  cases hr : s.resumption with
  | none => rw [hr] at h; cases h; exact hs
  | some p =>
    rw [hr] at h
    unfold State.resumption at hr
    split at hr
    · cases hr
    · next hf =>
      have hf' : s.status.faulted = false := by simpa using hf
      split at hr
      · next cmd job hq =>
        split at hr
        · cases hr
          have hrun : Running s := ⟨_, _, hq⟩
          exact (hw.transmit job).outcome ⟨hw.resume s hs hf' hrun, hrun, hw.resumeTx s cmd job hs hq⟩ h
        · cases hr
      · next cmd hq =>
        cases hr
        have hrun : Running s := ⟨_, _, hq⟩
        exact hw.drainAndFinish.outcome ⟨hw.resume s hs hf' hrun, hrun, hw.resumeRx s cmd hs hq⟩ h
      · cases hr
      · cases hr

/-- A property with the fields of `Whole` is kept by every step of the machine. -/
theorem step (hw : Whole On H I) {s t : State} (hs : H s) (h : step s = .next t) : H t := by
  unfold Machine.step stepWith at h
  split at h
  swap
  · cases h
  split at h
  · exact hw.blockMove hs h
  · next rest he => exact hw.blockMove (hw.mark s _ rest hs he (.inl rfl)) h
  · next rest he =>
    split at h
    · exact hw.blockMove hs h
    · cases h; exact hw.mark s _ rest hs he (.inr rfl)
  · next m rest he =>
    split at h
    · next w hw' =>
      have hs' := hw.command s rest m w hs he hw'
      unfold issueWord at h
      split at h
      · exact hw.exec hs' h
      · exact hw.rejectWord hs' h
    · unfold moveOutcome at h
      split at h
      · next t' ha => cases h; exact hw.move s rest m _ hs he ha
      · next t' ha =>
        cases h
        obtain ⟨rfl, rfl⟩ := Move.apply_halt ha
        exact hw.reset s rest hs he
      · cases h
      · cases h

end Whole

end Sys2Proof.Machine
end

