-- ==== Sys2Proof/Tests/Slice0.lean ====
section
/-! SUPPORT. The model's own tests. Expected values are those of spec/95_test_vectors.md (V1 to V72, P1 to P3), in its
common configuration; `witness_` theorems show, for each statement with hypotheses, states and operands that meet
them. -/

namespace Sys2Proof.Tests

set_option Elab.async false

open Sys2Proof.Machine

/-! ## Well-formedness -/

theorem test_wf_publish_index : (Instr.ringPublish .rx false 0x10000).wf = false
    ∧ (Instr.ringPublish .rx false 0xFFFF).wf = true := by decide

theorem test_wf_send_slot : (Instr.chSend 0x10000).wf = false ∧ (Instr.chSend 0xFFFF).wf = true := by decide

theorem test_config_valid : Config.default.valid = true := by decide

theorem test_config_ring_size : { Config.default with log2N := 16 }.valid = false
    ∧ { Config.default with log2N := 15 }.valid = true := by decide

theorem test_config_channels : { Config.default with maxChannels := 0 }.valid = false
    ∧ { Config.default with maxChannels := 17 }.valid = false
    ∧ { Config.default with maxChannels := 16 }.valid = true := by decide

theorem test_config_addresses_fit : { Config.default with localAddrBase := 0xFFFFFFF9, addrAny := 0 }.valid = false
    ∧ { Config.default with localAddrBase := 0xFFFFFFF8, addrAny := 0 }.valid = true := by decide

theorem test_config_ns_addr : { Config.default with nsAddr := 1024 }.valid = false
    ∧ { Config.default with nsAddr := 1032 }.valid = true := by decide

theorem test_config_addr_any : { Config.default with addrAny := 1031 }.valid = false
    ∧ { Config.default with addrAny := 1023 }.valid = true := by decide

/-! ## Decoding: words of R351 bit by bit, and V1 to V8 -/

theorem test_decode_ring_family : decode 0x00000001 = .ok (.ringInit .rx) ∧ decode 0x00000101 = .ok (.ringInit .tx)
    ∧ decode 0x00000002 = .ok (.ringTryTake .rx) ∧ decode 0x00000103 = .ok (.ringHasIncoming .tx)
    ∧ decode 0x00020204 = .ok (.ringPublish .rx true 2) ∧ decode 0xFFFF0104 = .ok (.ringPublish .tx false 0xFFFF) := by
  decide

theorem test_decode_channel_family : decode 0x00000010 = .ok .chCreate ∧ decode 0x00000011 = .ok (.chSend 0)
    ∧ decode 0xFFFF0011 = .ok (.chSend 0xFFFF) := by decide

theorem test_decode_poll : decode 0x00000020 = .ok .poll := by decide

theorem test_decode_illegal : decode 0x00000005 = .error .illegalOp ∧ decode 0x00000000 = .error .illegalOp := by
  decide

theorem test_decode_reserved : decode 0x00000402 = .error .reserved ∧ decode 0x00000201 = .error .reserved
    ∧ decode 0x00010010 = .error .reserved ∧ decode 0x00000111 = .error .reserved := by decide

theorem test_decode_table_word : decodeTableWord 32 0x00020204 = some (.ringPublish .rx true 2)
    ∧ decodeTableWord 32 0x00000005 = none := by decide

/-! ## The common configuration of spec/95 and small states in it -/

/-- N = 4; shared memory is backed from 0x2000_0000 up to 0x3000_0000. -/
def cfg : Config :=
  { Config.default with
    log2N := 2
    memAdmit := [⟨0x20000000, 0x2FFFFFFF, 1⟩, ⟨0x20000000, 0x2FFFFFFE, 2⟩, ⟨0x20000000, 0x2FFFFFFC, 4⟩] }

/-- Memory from (address, width, value). -/
def store : List (Nat × Nat × Nat) → Memory
  | [] => []
  | (a, n, v) :: rest => (store rest).writeLE a n v

/-- The RX ring pair at 0x2000_0000 (V14). -/
def rxRing (lastAvail usedHead : Half) (held : List Nat) : RingCtx :=
  ⟨true, 0x20000000, 0x20000040, 0x20001000, 0x1024, lastAvail, usedHead, held⟩

/-- The TX ring pair at 0x2000_2000 (section 2.5). -/
def txRing (lastAvail usedHead : Half) (held : List Nat) : RingCtx :=
  ⟨true, 0x20002000, 0x20002040, 0x20003000, 0x1024, lastAvail, usedHead, held⟩

/-- After reset. -/
def fresh : State := .resetWith cfg

/-- The RX ring pair in use, with this memory. -/
def onRx (lastAvail usedHead : Half) (held : List Nat) (m : List (Nat × Nat × Nat)) : State :=
  { fresh with rx := rxRing lastAvail usedHead held, mem := store m }

/-- Slot 0 Announced, as P2 leaves it after CH_CREATE. -/
def announced0 : Slot := ⟨.announced, 0x400, 0xFFFFFFFF, [0x63, 0x66, 0x67] ++ List.replicate 29 0⟩

/-- Both ring pairs in use, slot 0 Announced, one TX buffer {0x2100_0200, `cap`} offered as descriptor 0, one packet
(0x406, `dst`, 4) "ping" offered on RX in a buffer of `len` bytes, "abc" at 0x2200_0000, `ARG0` there, one RX kick. -/
def busyLine (cap len dst : Nat) : State :=
  { fresh with
    rx := rxRing 0 0 []
    tx := txRing 0 0 []
    slots := [announced0] ++ List.replicate 7 .free
    nextAddr := 0x401
    arg0 := 0x22000000
    arg1 := 3
    rxKickCnt := 1
    mem := store
      [ (0x20000042, 2, 1), (0x20000044, 2, 0), (0x20000000, 4, 0x23000000), (0x20000008, 4, len),
        (0x23000000, 4, 0x406), (0x23000004, 4, dst), (0x2300000C, 2, 4), (0x23000010, 4, 0x676E6970),
        (0x20002042, 2, 1), (0x20002044, 2, 0), (0x20002000, 4, 0x21000200), (0x20002008, 4, cap),
        (0x22000000, 3, 0x636261) ] }

/-- The standard case: a 512-byte TX buffer and a packet for slot 0. -/
def line : State := busyLine 512 20 0x400

/-- The same with both avail rings empty. -/
def idleLine : State := { line with mem := [] }

/-- The outcome is a next state with this property. -/
def nextIs (o : Host.Outcome State Fault Refusal) (p : State → Bool) : Bool :=
  match o with
  | .next t => p t
  | .fault _ => false
  | .refused _ => false

theorem exists_next {o : Host.Outcome State Fault Refusal} {p : State → Bool} (h : nextIs o p = true) :
    ∃ t, o = .next t := by
  cases o with
  | next t => exact ⟨t, rfl⟩
  | fault f => cases h
  | refused r => cases h

theorem exists_nextIs {o : Host.Outcome State Fault Refusal} {p : State → Bool} (h : nextIs o p = true) :
    ∃ t, o = .next t ∧ p t = true := by
  cases o with
  | next t => exact ⟨t, rfl, h⟩
  | fault f => cases h
  | refused r => cases h

/-- The outcome is this refusal. -/
def refusedAs (o : Host.Outcome State Fault Refusal) (why : Refusal) : Bool :=
  match o with
  | .next _ => false
  | .fault _ => false
  | .refused r => decide (r = why)

/-! ## One step of each command -/

/-- V14. -/
theorem test_ring_init_layout : nextIs (exec (.ringInit .rx) { fresh with arg0 := 0x20000000 }) (fun t =>
    t.rx = rxRing 0 0 [] && decide (t.statusWord = 0)) = true := by decide +kernel

/-- V18. -/
theorem test_ring_init_misaligned : nextIs (exec (.ringInit .rx) { fresh with arg0 := 0x20000008 }) (fun t =>
    t.rx = .off && decide (t.statusWord = 0x500)) = true := by decide +kernel

/-- V22: the take at the wrap of the index. -/
theorem test_try_take_wraps :
    nextIs (exec (.ringTryTake .rx) (onRx 0xFFFF 0 [] [(0x2000004A, 2, 1)])) (fun t =>
      t.result = 0x00010001 && t.rx.lastAvail = 0 && t.rx.held = [1]) = true := by decide +kernel

/-- V26: the index out of range. -/
theorem test_try_take_faults :
    nextIs (exec (.ringTryTake .rx) (onRx 0 0 [] [(0x20000042, 2, 1), (0x20000044, 2, 4)])) (fun t =>
      t.statusWord = 0x80010000 && t.rx.lastAvail = 0) = true := by decide +kernel

/-- V25: a lead of 5 in a ring of 4. -/
theorem test_has_incoming_overrun :
    nextIs (exec (.ringHasIncoming .rx) (onRx 0xFFFE 0 [] [(0x20000042, 2, 3)])) (fun t =>
      t.result = 1 && t.verdicts.peerOverrun) = true := by decide +kernel

/-- V11. -/
theorem test_has_incoming_not_init : nextIs (exec (.ringHasIncoming .tx) fresh) (fun t =>
    t.statusWord = 0x300 && t.history = []) = true := by decide +kernel

/-- V30. -/
theorem test_publish_events :
    nextIs (exec (.ringPublish .rx true 2) { onRx 0 0 [2] [] with arg0 := 64 }) (fun t =>
      t.history = [.wr .block 0x20001004 4 2, .wr .block 0x20001008 4 64, .barrier, .wr .block 0x20001002 2 1,
        .barrier, .flush 0x20000000 0x1024, .kickOut] && t.rx.usedHead = 1 && t.rx.held = []
        && !t.verdicts.publishNotHeld) = true := by decide +kernel

/-- V31: the wrap of the used index, no kick. -/
theorem test_publish_wraps :
    nextIs (exec (.ringPublish .rx false 3) (onRx 0 0xFFFF [3] [])) (fun t =>
      t.rx.usedHead = 0 && t.mem.readLE 0x2000101C 4 = 3 && t.mem.readLE 0x20001002 2 = 0
        && !t.history.contains .kickOut) = true := by decide +kernel

/-- V35: the announcement packet of P2 (its slot 0). -/
theorem test_ch_create_announces :
    nextIs (exec .chCreate { line with
        slots := List.replicate 8 .free, nextAddr := 0x400
        mem := (line.mem.writeLE 0x22000000 4 0x00676663) }) (fun t =>
      t.result = 0 && t.slots[0]? = some announced0 && t.nextAddr = 0x401
        && t.mem.readBytes 0x21000200 20 = [0, 4, 0, 0, 0x35, 0, 0, 0, 0, 0, 0, 0, 0x28, 0, 0, 0, 0x63, 0x66, 0x67, 0]
        && t.mem.readBytes 0x21000230 8 = [0, 4, 0, 0, 0, 0, 0, 0]
        && t.mem.readLE 0x20003008 4 = 56) = true := by decide +kernel

/-- V40: no TX buffer. -/
theorem test_ch_create_holds : nextIs (exec .chCreate idleLine) (fun t =>
    t.statusWord = 1 && t.regValue 0x110 = 1 && t.nextAddr = 0x402) = true := by decide +kernel

/-- V44: the packet of a send on an Announced channel. -/
theorem test_ch_send_packet : nextIs (exec (.chSend 0) line) (fun t =>
    t.mem.readBytes 0x21000200 19
        = [0, 4, 0, 0, 0xFF, 0xFF, 0xFF, 0xFF, 0, 0, 0, 0, 3, 0, 0, 0, 0x61, 0x62, 0x63]
      && t.mem.readLE 0x20003008 4 = 19 && t.statusWord = 0) = true := by decide +kernel

/-- V46: a buffer one byte too small. -/
theorem test_ch_send_small_buffer : nextIs (exec (.chSend 0) (busyLine 18 20 0x400)) (fun t =>
    t.statusWord = 0x80020000 && t.tx.lastAvail = 1 && decide (t.mem = (busyLine 18 20 0x400).mem)) = true := by
  decide +kernel

/-- V50: a delivery. -/
theorem test_poll_delivers : nextIs (exec .poll line) (fun t =>
    t.history.contains (.deliver 0 0x406 0x400 [0x70, 0x69, 0x6E, 0x67]) && t.regValue 0x100 = 2
      && t.regValue 0x108 = 0x406 && t.mem.readLE 0x20001008 4 = 20 && t.dropCnt = 0 && t.result = 1
      && t.rxKickCnt = 0) = true := by decide +kernel

/-- V55: no channel with that address. -/
theorem test_poll_drops : nextIs (exec .poll (busyLine 512 20 0x7D0)) (fun t =>
    t.dropCnt = 1 && t.mem.readLE 0x20001008 4 = 20 && t.rx.usedHead = 1 && t.slots[0]? = some announced0) = true := by
  decide +kernel

/-! ## The machine around the commands -/

/-- V70: a write to a faulted block. -/
theorem test_faulted_write_dropped :
    nextIs (step { fresh with
        status := ⟨false, false, .ok, .availIndexRange, true⟩, seq := .run ⟨0x20, 0, 0⟩ .drain
        env := [.act (.regWrite 0 4 0x20)] }) (fun t => t.statusWord = 0x80010004) = true := by decide +kernel

/-- The common configuration's `PARAMS`. -/
theorem test_params : fresh.regValue 0x014 = 0x00000802 := by decide +kernel

/-- R600: a pulse between two steps of a running command is counted; V64: one at the SWAP survives it. -/
theorem test_pulse_during_poll :
    nextIs (exec .poll { onRx 0 0 [] [] with rxKickCnt := 1, env := [.block, .block, .act .pulseRx] }) (fun t =>
      t.rxKickCnt = 1 && t.result = 1) = true := by decide +kernel

/-- A held send goes on when the peer raises `avail.idx` (R530), all in the schedule of one run. -/
theorem test_hold_lifts :
    nextIs (step { idleLine with
        seq := .run ⟨0x11, 0, 0⟩ (.waitBuf ⟨0x400, 0xFFFFFFFF, 0⟩)
        mem := line.mem }) (fun t => t.statusWord = 0 && t.tx.usedHead = 1) = true := by decide +kernel

/-- R231: no move raises `avail.idx` past an entry that the peer has not written. -/
theorem test_stale_offer_is_no_move :
    nextIs (step { line with env := [.act (.peerWrite 0x20000042 .b2 2)] }) (fun t =>
      decide (t = { line with env := [] })) = true := by decide +kernel

/-- After RING_INIT of RX with the last step of P1's offer scheduled: desc[2] and desc[0] and the two entries written, no
packet. -/
def p1Offer : State :=
  { onRx 0 0 [] [(0x20000020, 4, 0x21000000), (0x20000028, 4, 64), (0x20000000, 4, 0x21000100), (0x20000008, 4, 64),
      (0x20000044, 2, 2)] with
    peerWrote := [0x20000000, 0x20000001, 0x20000002, 0x20000003, 0x20000008, 0x20000009, 0x2000000A, 0x2000000B,
      0x20000020, 0x20000021, 0x20000022, 0x20000023, 0x20000028, 0x20000029, 0x2000002A, 0x2000002B, 0x20000044,
      0x20000045, 0x20000046, 0x20000047]
    env := [.act (.peerWrite 0x20000042 .b2 2)] }

/-- P1. -/
theorem test_offer_of_p1 :
    nextIs (step p1Offer) (fun t => t.mem.readLE 0x20000042 2 = 2 && t.peerRx.lent = [0, 2]
      && !t.peerWrote.contains 0x20000046) = true := by decide +kernel

/-- V25, R234: an offer of more than N entries at once is a move, and a verdict follows. -/
theorem test_offer_beyond_ring :
    nextIs (step { p1Offer with
        peerWrote := p1Offer.peerWrote ++ [0x20000048, 0x20000049, 0x2000004A, 0x2000004B]
        env := [.act (.peerWrite 0x20000042 .b2 5)] }) (fun t => t.mem.readLE 0x20000042 2 = 5) = true := by
  decide +kernel

/-- R231 with R820 (P1, P2): the offer before RING_INIT, whose RING_INIT makes it the block's. -/
theorem test_offer_at_init :
    nextIs (exec (.ringInit .rx) { line with rx := .off, arg0 := 0x20000000 }) (fun t => t.peerRx.lent = [0]) = true := by
  decide +kernel

/-- R236: the read of `used.idx` that a reclaim rests on. -/
theorem test_peer_reads_used_idx :
    nextIs (step { onRx 0 1 [] [(0x20001002, 2, 1)] with
        peerRx := { PeerRing.start with usedBase := some 0x20001000 }
        env := [.act (.peerRead 0x20001002 .b2)] }) (fun t =>
      t.peerRx.usedSeen = some 1 && decide (t.reclaimable .rx = none)) = true := by decide +kernel

/-- R236: the reclaim, after a reset of the block. -/
theorem test_reclaim :
    nextIs (step { fresh with
        peerRx := { PeerRing.start with usedSeen := some 1, entryId := some 0, entryLen := true, lent := [0, 2] }
        env := [.act (.peerReclaim .rx)] }) (fun t =>
      decide (t.peerRx = { PeerRing.start with usedRead := 1, usedSeen := some 1, lent := [2] })) = true := by
  decide +kernel

/-! ## Witnesses: states and operands that meet the hypotheses of the statements, clause by clause -/

/-- The common configuration with a narrower `MEM_ADMIT`. -/
def cfgWith (spans : List Span) : Config := { cfg with memAdmit := spans }

/-- The schedule begins with a `CMD` write of `w`. -/
def submit (w : Word) (s : State) : State := { s with env := [.act (.regWrite 0 4 w)] }

/-- The schedule begins with the move `m`. -/
def moves (m : Move) (s : State) : State := { s with env := [.act m] }

theorem backs_of {s : State} {a n : Nat} (h : (List.range n).all (fun k => s.admits (a + k) 1) = true) :
    s.backs a n := by
  intro k hk
  exact List.all_eq_true.mp h k (List.mem_range.mpr hk)

theorem lowestUnused_of {s : State} {i : Nat} {slot : Slot} (h : s.slots[i]? = some slot) (hu : slot.state = .unused)
    (hj : (s.slots.take i).all (fun x => decide (x.state ≠ .unused)) = true) : s.lowestUnused i := by
  refine ⟨⟨slot, h, hu⟩, fun j hji other ho => ?_⟩
  have hm : other ∈ s.slots.take i := List.mem_of_getElem? (i := j) (by rw [List.getElem?_take_of_lt hji]; exact ho)
  simpa using List.all_eq_true.mp hj other hm

theorem channelFor_zero {s : State} {dst : Word} {slot : Slot} (h : s.slots[0]? = some slot)
    (hu : slot.state ≠ .unused) (ha : slot.localAddr = dst) : s.channelFor dst 0 slot :=
  ⟨h, hu, ha, fun j hj => absurd hj (Nat.not_lt_zero j)⟩

theorem noChannelFor_of {s : State} {dst : Word}
    (h : s.slots.all (fun x => decide (x.state = .unused) || decide (x.localAddr ≠ dst)) = true) :
    s.noChannelFor dst := by
  intro slot hs
  simpa using List.all_eq_true.mp h slot hs

theorem witness_DecodeUndoesEncode : (Instr.ringPublish .tx true 0xFFFF).wf = true ∧ (Instr.chSend 0).wf = true
    ∧ (Instr.ringInit .tx).wf = true ∧ Instr.poll.wf = true := by decide

theorem witness_EncodeUndoesDecode : decode 0xFFFF0304 = .ok (.ringPublish .tx true 0xFFFF)
    ∧ decode 0xFFFF0011 = .ok (.chSend 0xFFFF) := by decide

theorem witness_StepRunsDecodedCommand : ∃ (s : State) (w : Word) (i : Instr), s.cfg.valid = true ∧ decode w = .ok i
    ∧ s.env = [.act (.regWrite s.cfg.blkBase 4 w)] :=
  ⟨submit 0x20 line, 0x20, .poll, by decide +kernel⟩

theorem witness_UndecodableWordEndsInError :
    (∃ (s : State) (w : Word), s.cfg.valid = true ∧ s.env = [.act (.regWrite s.cfg.blkBase 4 w)]
      ∧ ({ s with env := [] } : State).ready = true ∧ w.toNat % 256 ∉ commandRows.map (·.1))
    ∧ ∃ (s : State) (w : Word), s.cfg.valid = true ∧ s.env = [.act (.regWrite s.cfg.blkBase 4 w)]
      ∧ ({ s with env := [] } : State).ready = true ∧ (0x02, 0xFFFFFEFF, 0x00000002) ∈ commandRows
      ∧ w.toNat % 256 = 0x02 ∧ w &&& 0xFFFFFEFF ≠ 0x00000002 :=
  ⟨⟨submit 5 fresh, 5, by decide +kernel⟩, ⟨submit 0x402 fresh, 0x402, by decide +kernel⟩⟩

/-- A block frozen by a fault, and one that holds. -/
def frozen : State :=
  { line with seq := .run ⟨0x20, 0, 0⟩ .drain, status := ⟨false, false, .ok, .availIndexRange, true⟩ }

def holding : State := { idleLine with seq := .run ⟨0x11, 0, 0⟩ (.waitBuf ⟨0x400, 0xFFFFFFFF, 0⟩) }

theorem witness_BusyOrFaultedWriteIsDropped :
    (∃ s : State, s.cfg.valid = true ∧ s.env = [.act (.regWrite s.cfg.blkBase 4 0x20)] ∧ s.status.faulted = true)
    ∧ ∃ s : State, s.cfg.valid = true ∧ s.env = [.act (.regWrite s.cfg.blkBase 4 5)] ∧ s.seq ≠ .idle :=
  ⟨⟨submit 0x20 frozen, by decide +kernel⟩, ⟨submit 5 holding, by decide +kernel⟩⟩

theorem witness_BadConfigurationRefused :
    ¬({ Config.default with log2N := 16 } : Config).log2N ≤ 15
    ∧ (let s := State.resetWith { Config.default with log2N := 15, maxChannels := 16, nsAddr := 1040, addrAny := 1023 }
      (s.cfg.log2N ≤ 15 ∧ 1 ≤ s.cfg.maxChannels ∧ s.cfg.maxChannels ≤ 16
        ∧ s.cfg.localAddrBase.toNat + s.cfg.maxChannels - 1 ≤ 0xFFFFFFFF
        ∧ (s.cfg.nsAddr.toNat < s.cfg.localAddrBase.toNat
            ∨ s.cfg.localAddrBase.toNat + s.cfg.maxChannels ≤ s.cfg.nsAddr.toNat)
        ∧ (s.cfg.addrAny.toNat < s.cfg.localAddrBase.toNat
            ∨ s.cfg.localAddrBase.toNat + s.cfg.maxChannels ≤ s.cfg.addrAny.toNat))
      ∧ s.env = [] ∧ s.seq = .idle) := by decide

theorem witness_ResetMoveResetsBlock : (moves .reset frozen).cfg.valid = true
    ∧ (moves .reset frozen).env = [.act .reset] := by decide +kernel

theorem witness_ResetValues : (moves .reset line).cfg.valid = true ∧ (moves .reset line).env = [.act .reset] := by
  decide +kernel

/-- Before the first access; before a retry; before the last step of a RING_TRY_TAKE; after none and after
7 steps of a RING_PUBLISH. -/
theorem witness_ResetAbandonsRunningCommand :
    ((moves .reset line).env = [.act .reset] ∧ (moves .reset line).accepting = true)
    ∧ (∃ s : State, s.cfg.valid = true ∧ s.resumption.isSome = true ∧ s.env = [.block, .act .reset])
    ∧ (∃ s t : State, s.env = List.replicate 3 .block ++ [.act .reset] ∧ exec (.ringTryTake .rx) s = .next t ∧ t.env = [])
    ∧ ∀ k, k = 0 ∨ k = 7 → ∃ s : State, (Instr.ringPublish .rx true 3).wf = true
        ∧ s.env = List.replicate k .block ++ [.act .reset] ∧ k < 8 ∧ s.accepting = true ∧ (s.ring .rx).inited = true
        ∧ 3 < s.cfg.n ∧ s.publishBacked .rx :=
  ⟨by decide +kernel, ⟨{ holding with mem := line.mem, env := [.block, .act .reset] }, by decide +kernel⟩,
    have ⟨t, h, he⟩ := exists_nextIs (p := fun t => decide (t.env = [] ∧ t.arg0 = 0)) (by decide +kernel :
      nextIs (exec (.ringTryTake .rx) { line with env := List.replicate 3 .block ++ [.act .reset] }) _ = true)
    ⟨_, t, rfl, h, (of_decide_eq_true he).1⟩,
    fun k hk => ⟨{ line with env := List.replicate k .block ++ [.act .reset] }, by
      rcases hk with rfl | rfl <;> (unfold State.publishBacked; decide +kernel)⟩⟩

/-- The three branches, the last two at the highest base that fits and the next one. -/
theorem witness_RingInitSetsUpRing :
    (∃ s : State, s.ready = true ∧ s.arg0.toNat % 16 ≠ 0)
    ∧ (∃ s : State, s.ready = true ∧ s.arg0.toNat % 16 = 0
        ∧ 2 ^ 32 < s.arg0.toNat + regionLenFor s.cfg.n s.arg0.toNat ∧ s.arg0 = 0xFFFFEFC0)
    ∧ ∃ s : State, s.ready = true ∧ s.arg0.toNat % 16 = 0
        ∧ s.arg0.toNat + regionLenFor s.cfg.n s.arg0.toNat ≤ 2 ^ 32 ∧ s.arg0 = 0xFFFFEFB0 :=
  ⟨⟨{ fresh with arg0 := 8 }, by decide⟩, ⟨{ fresh with arg0 := 0xFFFFEFC0 }, by decide⟩,
    ⟨{ fresh with arg0 := 0xFFFFEFB0 }, by decide⟩⟩

/-- Not initialised; a bus error at `avail.idx`; the empty ring; a bus error at the entry; an index out of range (4);
a take (3). -/
theorem witness_RingTryTakeOutcome :
    (fresh.ready = true ∧ (fresh.ring .rx).inited = false)
    ∧ (∃ s : State, s.ready = true ∧ (s.ring .rx).inited = true ∧ s.admits (s.ring .rx).availIdxAddr 2 = false)
    ∧ (∃ s : State, s.ready = true ∧ (s.ring .rx).inited = true ∧ s.admits (s.ring .rx).availIdxAddr 2 = true
        ∧ s.availIdx .rx = (s.ring .rx).lastAvail)
    ∧ (∃ s : State, s.ready = true ∧ (s.ring .rx).inited = true ∧ s.admits (s.ring .rx).availIdxAddr 2 = true
        ∧ s.availIdx .rx ≠ (s.ring .rx).lastAvail ∧ s.admits (s.nextEntryAddr .rx) 2 = false)
    ∧ (∃ s : State, s.ready = true ∧ (s.ring .rx).inited = true ∧ s.availIdx .rx ≠ (s.ring .rx).lastAvail
        ∧ s.admits (s.ring .rx).availIdxAddr 2 = true ∧ s.admits (s.nextEntryAddr .rx) 2 = true
        ∧ s.nextEntry .rx = s.cfg.n)
    ∧ ∃ s : State, s.ready = true ∧ (s.ring .rx).inited = true ∧ s.availIdx .rx ≠ (s.ring .rx).lastAvail
        ∧ s.admits (s.ring .rx).availIdxAddr 2 = true ∧ s.admits (s.nextEntryAddr .rx) 2 = true
        ∧ s.nextEntry .rx + 1 = s.cfg.n :=
  ⟨by decide, ⟨{ onRx 0 0 [] [] with cfg := cfgWith [] }, by decide +kernel⟩, ⟨onRx 0 0 [] [], by decide +kernel⟩,
    ⟨{ onRx 0 0 [] [(0x20000042, 2, 1)] with cfg := cfgWith [⟨0x20000000, 0x20000042, 2⟩] }, by decide +kernel⟩,
    ⟨onRx 0 0 [] [(0x20000042, 2, 1), (0x20000044, 2, 4)], by decide +kernel⟩,
    ⟨onRx 0 0 [] [(0x20000042, 2, 1), (0x20000044, 2, 3)], by decide +kernel⟩⟩

/-- Not initialised, a bus error, an answer 0, an answer 1. -/
theorem witness_RingHasIncomingAnswers :
    (fresh.ready = true ∧ (fresh.ring .tx).inited = false)
    ∧ (∃ s : State, s.ready = true ∧ (s.ring .rx).inited = true ∧ s.admits (s.ring .rx).availIdxAddr 2 = false)
    ∧ (∃ s : State, s.ready = true ∧ (s.ring .rx).inited = true ∧ s.admits (s.ring .rx).availIdxAddr 2 = true
        ∧ s.availIdx .rx = (s.ring .rx).lastAvail)
    ∧ ∃ s : State, s.ready = true ∧ (s.ring .rx).inited = true ∧ s.admits (s.ring .rx).availIdxAddr 2 = true
        ∧ s.availIdx .rx ≠ (s.ring .rx).lastAvail :=
  ⟨by decide, ⟨{ onRx 0 0 [] [] with cfg := cfgWith [] }, by decide +kernel⟩, ⟨onRx 0 0 [] [], by decide +kernel⟩,
    ⟨onRx 0xFFFE 0 [] [(0x20000042, 2, 3)], by decide +kernel⟩⟩

/-- Not initialised; the index N; a bus error at each of the three writes; the publish of index N - 1. -/
theorem witness_RingPublishWritesUsedEntry :
    (fresh.ready = true ∧ (Instr.ringPublish .rx true 0).wf = true ∧ (fresh.ring .rx).inited = false)
    ∧ (∃ s : State, s.ready = true ∧ (Instr.ringPublish .rx true 4).wf = true ∧ (s.ring .rx).inited = true
        ∧ s.cfg.n ≤ 4)
    ∧ (∃ s : State, s.ready = true ∧ (s.ring .rx).inited = true ∧ s.admits ((s.ring .rx).nextUsedAddr s.cfg.n) 4 = false)
    ∧ (∃ s : State, s.ready = true ∧ (s.ring .rx).inited = true ∧ s.admits ((s.ring .rx).nextUsedAddr s.cfg.n) 4 = true
        ∧ s.admits ((s.ring .rx).nextUsedAddr s.cfg.n + 4) 4 = false)
    ∧ (∃ s : State, s.ready = true ∧ (s.ring .rx).inited = true ∧ s.admits ((s.ring .rx).nextUsedAddr s.cfg.n) 4 = true
        ∧ s.admits ((s.ring .rx).nextUsedAddr s.cfg.n + 4) 4 = true ∧ s.admits (s.ring .rx).usedIdxAddr 2 = false)
    ∧ ∃ s : State, s.ready = true ∧ (Instr.ringPublish .rx true 3).wf = true ∧ (s.ring .rx).inited = true
        ∧ 3 < s.cfg.n ∧ s.admits ((s.ring .rx).nextUsedAddr s.cfg.n) 4 = true
        ∧ s.admits ((s.ring .rx).nextUsedAddr s.cfg.n + 4) 4 = true ∧ s.admits (s.ring .rx).usedIdxAddr 2 = true :=
  ⟨by decide, ⟨onRx 0 0 [] [], by decide +kernel⟩, ⟨{ onRx 0 0 [] [] with cfg := cfgWith [] }, by decide +kernel⟩,
    ⟨{ onRx 0 0 [] [] with cfg := cfgWith [⟨0, 0x20001004, 4⟩] }, by decide +kernel⟩,
    ⟨{ onRx 0 0 [] [] with cfg := cfgWith [⟨0, 0x20001008, 4⟩] }, by decide +kernel⟩,
    ⟨onRx 0 0xFFFF [3] [], by decide +kernel⟩⟩

theorem witness_RingPublishFrame : ∃ s : State, (Instr.ringPublish .rx true 3).wf = true ∧ s.ready = true
    ∧ (s.ring .rx).inited = true ∧ 3 < s.cfg.n ∧ s.publishBacked .rx ∧ s.mem.wf = true :=
  ⟨onRx 0 0xFFFF [3] [(0x20000042, 2, 1)], by unfold State.publishBacked; decide +kernel⟩

theorem witness_NotInitialisedCommandsFail :
    (fresh.ready = true ∧ (fresh.ring .rx).inited = false ∧ fresh.tx.inited = false ∧ fresh.rx.inited = false)
    ∧ ∃ s : State, s.ready = true ∧ s.tx.inited = false ∧ s.sendsOn 0 announced0 :=
  ⟨by decide, { fresh with slots := [announced0] ++ List.replicate 7 .free }, by unfold State.sendsOn; decide⟩

/-- A RING_INIT, and a CH_SEND whose two operands are both overwritten. -/
theorem witness_OperandsAreLatched :
    (∃ s : State, s.env = [.act (.regWrite (s.cfg.blkBase + 4) 4 7), .act (.regWrite (s.cfg.blkBase + 8) 4 9)]
      ∧ ({ s with env := [] } : State).ready = true ∧ s.arg0 = 0x20000000)
    ∧ ∃ s : State, s.env = [.act (.regWrite (s.cfg.blkBase + 4) 4 7), .act (.regWrite (s.cfg.blkBase + 8) 4 9), .settle]
      ∧ ({ s with env := [.settle] } : State).ready = true ∧ s.arg0 ≠ 7 ∧ s.arg1 = 3 :=
  ⟨⟨{ fresh with arg0 := 0x20000000, env := [.act (.regWrite 4 4 7), .act (.regWrite 8 4 9)] }, by decide⟩,
    ⟨{ line with env := [.act (.regWrite 4 4 7), .act (.regWrite 8 4 9), .settle] }, by decide⟩⟩

theorem witness_IndexWrapKeepsSlots : ({ Config.default with log2N := 15 } : Config).log2N ≤ 15
    ∧ slotOf ({ Config.default with log2N := 15 } : Config).n 0xFFFF = 0x7FFF := by decide

/-- The line with no channel yet, as CH_CREATE finds it. -/
def newLine : State := { line with slots := List.replicate 8 .free, nextAddr := 0x400 }

theorem witness_ChCreateAnnounces : newLine.ready = true ∧ newLine.tx.inited = true ∧ newLine.lowestUnused 0
    ∧ newLine.backs newLine.arg0.toNat (nameBytesRead newLine.mem newLine.arg0.toNat 32).length
    ∧ newLine.txFits 40 ∧ newLine.txBacked 40 :=
  ⟨by decide, by decide, lowestUnused_of (slot := .free) (by decide) (by decide) (by decide),
    backs_of (by decide +kernel), by unfold State.txFits; decide +kernel,
    ⟨by unfold State.txDescBacked State.takeBacked; decide +kernel, backs_of (by decide +kernel),
      by unfold State.publishBacked; decide +kernel⟩⟩

/-- Slot 1 is the lowest Unused one here. -/
theorem witness_ChCreateHoldsWithoutBuffer : idleLine.ready = true ∧ idleLine.tx.inited = true
    ∧ idleLine.lowestUnused 1
    ∧ idleLine.backs idleLine.arg0.toNat (nameBytesRead idleLine.mem idleLine.arg0.toNat 32).length
    ∧ idleLine.admits idleLine.tx.availIdxAddr 2 = true ∧ idleLine.availIdx .tx = idleLine.tx.lastAvail :=
  ⟨by decide, by decide, lowestUnused_of (slot := .free) (by decide) (by decide) (by decide),
    backs_of (by decide +kernel), by decide, by decide⟩

theorem witness_ChCreateNeedsFreeSlot : ∃ s : State, s.ready = true ∧ s.tx.inited = true
    ∧ ∀ slot, slot ∈ s.slots → slot.state ≠ .unused :=
  ⟨{ line with slots := List.replicate 8 announced0 }, by decide, by decide, by decide⟩

/-- The name's second byte is not backed. -/
theorem witness_ChCreateNameFaultAllocatesNothing : ∃ s : State, s.ready = true ∧ s.tx.inited = true
    ∧ s.lowestUnused 0 ∧ 1 < (nameBytesRead s.mem s.arg0.toNat 32).length ∧ s.backs s.arg0.toNat 1
    ∧ s.admits (s.arg0.toNat + 1) 1 = false :=
  ⟨{ newLine with cfg := cfgWith [⟨0, 0x22000000, 1⟩] }, by decide, by decide,
    lowestUnused_of (slot := .free) (by decide) (by decide) (by decide), by decide +kernel,
    backs_of (by decide +kernel), by decide +kernel⟩

theorem witness_ChSendSendsPayload : line.ready = true ∧ line.tx.inited = true ∧ line.sendsOn 0 announced0
    ∧ line.backs line.arg0.toNat (min line.arg1.toNat 496) ∧ line.txFits (min line.arg1.toNat 496)
    ∧ line.txBacked (min line.arg1.toNat 496) :=
  ⟨by decide, by decide, by unfold State.sendsOn; decide, backs_of (by decide +kernel),
    by unfold State.txFits; decide +kernel,
    ⟨by unfold State.txDescBacked State.takeBacked; decide +kernel, backs_of (by decide +kernel),
      by unfold State.publishBacked; decide +kernel⟩⟩

/-- 497 bytes are asked for: the packet of 496 fills a buffer of 512 exactly. -/
theorem witness_ChSendSendsPayload_truncated : ∃ s : State, s.arg1 = 497 ∧ s.ready = true ∧ s.tx.inited = true
    ∧ s.sendsOn 0 announced0 ∧ s.backs s.arg0.toNat (min s.arg1.toNat 496) ∧ s.txFits (min s.arg1.toNat 496)
    ∧ s.txBacked (min s.arg1.toNat 496) :=
  ⟨{ line with arg1 := 497 }, rfl, by decide, by decide, by unfold State.sendsOn; decide, backs_of (by decide +kernel),
    by unfold State.txFits; decide +kernel,
    ⟨by unfold State.txDescBacked State.takeBacked; decide +kernel, backs_of (by decide +kernel),
      by unfold State.publishBacked; decide +kernel⟩⟩

theorem witness_ChSendHoldsWithoutBuffer : idleLine.ready = true ∧ idleLine.tx.inited = true
    ∧ idleLine.sendsOn 0 announced0 ∧ idleLine.backs idleLine.arg0.toNat (min idleLine.arg1.toNat 496)
    ∧ idleLine.admits idleLine.tx.availIdxAddr 2 = true ∧ idleLine.availIdx .tx = idleLine.tx.lastAvail :=
  ⟨by decide, by decide, by unfold State.sendsOn; decide, backs_of (by decide +kernel), by decide, by decide⟩

/-- An Unused slot, and a slot beyond the table. -/
theorem witness_ChSendOnInactiveChannelDoesNothing : line.ready = true ∧ (¬∃ slot, line.sendsOn 7 slot)
    ∧ ¬∃ slot, line.sendsOn 8 slot := by
  refine ⟨by decide, ?_, ?_⟩
  · rintro ⟨slot, -, h, hu⟩
    have h7 : line.slots[7]? = some .free := by decide
    rw [h7] at h
    cases h
    exact hu rfl
  · rintro ⟨slot, h, -⟩
    exact absurd h (by decide)

/-- A buffer one byte too small: for a CH_SEND, for a CH_CREATE, and for a held send. -/
theorem witness_SmallTxBufferFaults :
    (∀ cap, cap = 18 ∨ cap = 55 → (busyLine cap 20 0x400).tx.inited = true ∧ (busyLine cap 20 0x400).txDescBacked
      ∧ (busyLine cap 20 0x400).availIdx .tx ≠ (busyLine cap 20 0x400).tx.lastAvail
      ∧ (busyLine cap 20 0x400).nextEntry .tx < cfg.n ∧ (busyLine cap 20 0x400).txBufLen = cap)
    ∧ ((busyLine 18 20 0x400).ready = true ∧ (busyLine 18 20 0x400).sendsOn 0 announced0
      ∧ (busyLine 18 20 0x400).backs 0x22000000 3 ∧ (busyLine 18 20 0x400).txBufLen < 16 + min 3 496)
    ∧ (∃ s : State, s = { busyLine 55 20 0x400 with slots := List.replicate 8 .free } ∧ s.ready = true
      ∧ s.lowestUnused 0 ∧ s.backs s.arg0.toNat (nameBytesRead s.mem s.arg0.toNat 32).length ∧ s.txBufLen < 56)
    ∧ ∃ (s : State) (cmd : Latched) (job : TxJob), s.tx = (busyLine 18 20 0x400).tx ∧ s.mem = (busyLine 18 20 0x400).mem
      ∧ s.cfg.valid = true ∧ s.quiet = true ∧ s.status.faulted = false ∧ s.seq = .run cmd (.waitBuf job)
      ∧ s.txBufLen + 1 = 16 + s.stage.length := by
  refine ⟨?_, ⟨by decide, by unfold State.sendsOn; decide, backs_of (by decide +kernel), by decide +kernel⟩,
    ⟨_, rfl, by decide, lowestUnused_of (slot := .free) (by decide) (by decide) (by decide),
      backs_of (by decide +kernel), by decide +kernel⟩,
    { busyLine 18 20 0x400 with seq := .run ⟨0x11, 0, 0⟩ (.waitBuf ⟨0x400, 0xFFFFFFFF, 0⟩), stage := [1, 2, 3] },
    ⟨0x11, 0, 0⟩, ⟨0x400, 0xFFFFFFFF, 0⟩, by decide +kernel⟩
  rintro cap (rfl | rfl) <;> (unfold State.txDescBacked State.takeBacked; decide +kernel)

/-- The held send with a buffer offered. -/
def lifted : State := { holding with mem := line.mem, stage := [1, 2, 3] }

theorem witness_HeldSendGoesOn : ∃ cmd job, lifted.cfg.valid = true ∧ lifted.quiet = true
    ∧ lifted.status.faulted = false ∧ lifted.seq = .run cmd (.waitBuf job) ∧ lifted.stage.length ≤ 496
    ∧ lifted.txFits lifted.stage.length ∧ lifted.txBacked lifted.stage.length :=
  ⟨⟨0x11, 0, 0⟩, ⟨0x400, 0xFFFFFFFF, 0⟩, by decide, by decide, by decide, by decide, by decide,
    by unfold State.txFits; decide +kernel,
    ⟨by unfold State.txDescBacked State.takeBacked; decide +kernel, backs_of (by decide +kernel),
      by unfold State.publishBacked; decide +kernel⟩⟩

theorem witness_HoldHasNoStep : ∃ cmd job, holding.cfg.valid = true ∧ holding.seq = .run cmd (.waitBuf job)
    ∧ holding.availIdx .tx = holding.tx.lastAvail ∧ holding.env = []
    ∧ ({ holding with env := [.block] } : State).env = [.block] :=
  ⟨⟨0x11, 0, 0⟩, ⟨0x400, 0xFFFFFFFF, 0⟩, by decide⟩

theorem witness_PollWithoutPackets :
    (∃ s : State, s.ready = true ∧ s.rx.inited = true ∧ s.rxKickCnt = 0 ∧ s.txKickCnt = 0)
    ∧ (∃ s : State, s.ready = true ∧ s.rx.inited = true ∧ s.rxKickCnt = 0 ∧ s.txKickCnt ≠ 0)
    ∧ ∃ s : State, s.ready = true ∧ s.rx.inited = true ∧ s.rxKickCnt ≠ 0 ∧ s.admits s.rx.availIdxAddr 2 = true
        ∧ s.availIdx .rx = s.rx.lastAvail :=
  ⟨⟨onRx 0 0 [] [], by decide +kernel⟩, ⟨{ onRx 0 0 [] [] with txKickCnt := 1 }, by decide +kernel⟩,
    ⟨{ onRx 0 0 [] [] with rxKickCnt := 1 }, by decide +kernel⟩⟩

theorem line_onePacket (len dst : Nat) (h : len = 20 ∨ len = 15) (hd : dst = 0x400 ∨ dst = 0x7D0) :
    (busyLine 512 len dst).onePacket := by
  rcases h with rfl | rfl <;> rcases hd with rfl | rfl <;>
    exact ⟨by decide +kernel, by decide +kernel, by unfold State.takeBacked; decide +kernel,
      by unfold State.publishBacked; decide +kernel, by decide +kernel, by decide +kernel,
      backs_of (by decide +kernel)⟩

theorem witness_PollDeliversPacket : line.ready = true ∧ line.rx.inited = true ∧ line.rxKickCnt ≠ 0 ∧ line.onePacket
    ∧ line.rx.laidOut line.cfg.n ∧ line.mem.wf = true ∧ line.rxFits (line.nextEntry .rx)
    ∧ line.channelFor (line.rxDst (line.nextEntry .rx)) 0 announced0 :=
  ⟨by decide, by decide, by decide, line_onePacket 20 0x400 (.inl rfl) (.inl rfl), by unfold RingCtx.laidOut; decide,
    by decide +kernel, by unfold State.rxFits; decide +kernel,
    channelFor_zero (by decide) (by decide) (by decide +kernel)⟩

/-- A buffer of 15 bytes; a packet for no channel; a packet of more than 496 bytes. -/
theorem witness_PollDropsPacket :
    (∃ s : State, s.ready = true ∧ s.rx.inited = true ∧ s.rxKickCnt ≠ 0 ∧ s.onePacket ∧ s.rx.laidOut s.cfg.n
      ∧ s.mem.wf = true ∧ s.rxBufLen (s.nextEntry .rx) = 15)
    ∧ (∃ s : State, s.ready = true ∧ s.rx.inited = true ∧ s.rxKickCnt ≠ 0 ∧ s.onePacket ∧ s.rx.laidOut s.cfg.n
      ∧ s.mem.wf = true ∧ 16 ≤ s.rxBufLen (s.nextEntry .rx) ∧ s.noChannelFor (s.rxDst (s.nextEntry .rx)))
    ∧ ∃ s : State, s.ready = true ∧ s.rx.inited = true ∧ s.rxKickCnt ≠ 0 ∧ s.onePacket ∧ s.rx.laidOut s.cfg.n
      ∧ s.mem.wf = true ∧ 16 ≤ s.rxBufLen (s.nextEntry .rx) ∧ ¬s.rxFits (s.nextEntry .rx) := by
  refine ⟨⟨busyLine 512 15 0x400, by decide, by decide, by decide, line_onePacket 15 0x400 (.inr rfl) (.inl rfl),
      by unfold RingCtx.laidOut; decide, by decide +kernel, by decide +kernel⟩,
    ⟨busyLine 512 20 0x7D0, by decide, by decide, by decide, line_onePacket 20 0x7D0 (.inl rfl) (.inr rfl),
      by unfold RingCtx.laidOut; decide, by decide +kernel, by decide +kernel, noChannelFor_of (by decide +kernel)⟩,
    ⟨{ line with mem := line.mem.writeLE 0x2300000C 2 497 }, by decide, by decide, by decide,
      ⟨by decide +kernel, by decide +kernel, by unfold State.takeBacked; decide +kernel,
        by unfold State.publishBacked; decide +kernel, by decide +kernel, by decide +kernel,
        backs_of (by decide +kernel)⟩,
      by unfold RingCtx.laidOut; decide, by decide +kernel, by decide +kernel,
      by unfold State.rxFits; decide +kernel⟩⟩

theorem backsAll_default {s : State} (h : s.cfg.memAdmit = Config.default.memAdmit) : s.backsAll := by
  intro a w hw
  cases w <;> simp [State.admits, Config.memAdmits, h, Config.default, addrSpace, Width.bytes] at hw ⊢ <;> omega

/-- The packet of `line`, all of memory backed; the last byte of the avail ring and the first of the used ring are outside
what the drain writes. -/
theorem witness_PollDrainsRing : ∃ s : State, s.ready = true ∧ s.cfg.valid = true ∧ s.rx.inited = true
    ∧ s.rxKickCnt ≠ 0 ∧ s.rx.laidOut s.cfg.n ∧ s.mem.wf = true ∧ s.backsAll
    ∧ (∀ j, j < s.cfg.n → s.mem.readLE (s.rx.availEntryAddr j) 2 < s.cfg.n)
    ∧ (∀ d, d < s.cfg.n → s.rxBufAddr d + s.rxBufLen d ≤ 2 ^ 32) ∧ s.availIdx .rx ≠ s.rx.lastAvail
    ∧ outsideUsed s.rx s.cfg.n 0x2000004D ∧ outsideUsed s.rx s.cfg.n 0x20001000 :=
  ⟨{ line with cfg := cfgWith Config.default.memAdmit }, by decide, by decide, by decide, by decide,
    by unfold RingCtx.laidOut; decide, by decide +kernel, backsAll_default rfl, by decide +kernel, by decide +kernel,
    by decide +kernel, by unfold outsideUsed; decide +kernel, by unfold outsideUsed; decide +kernel⟩

/-- The hypotheses of the three clauses are those of ChSendSendsPayload, ChCreateAnnounces and PollDeliversPacket; here
are their next states and an address that each clause speaks of. -/
theorem witness_TransportFrame :
    (∃ t, exec (.chSend 0) line = .next t) ∧ (∃ t, exec .chCreate newLine = .next t) ∧ (∃ t, exec .poll line = .next t)
    ∧ line.mem.wf = true ∧ newLine.mem.wf = true
    ∧ (0x21000213 < line.txBufAddr ∨ line.txBufAddr + 16 + min line.arg1.toNat 496 ≤ 0x21000213)
    ∧ outsidePublish line.tx line.cfg.n 0x21000213
    ∧ (0x21000238 < newLine.txBufAddr ∨ newLine.txBufAddr + 56 ≤ 0x21000238)
    ∧ outsidePublish newLine.tx newLine.cfg.n 0x21000238 ∧ outsidePublish line.rx line.cfg.n 0x2000100C :=
  ⟨exists_next (p := fun _ => true) (by decide +kernel), exists_next (p := fun _ => true) (by decide +kernel),
    exists_next (p := fun _ => true) (by decide +kernel), by decide +kernel, by decide +kernel, by decide +kernel,
    by unfold outsidePublish; decide +kernel, by decide +kernel, by unfold outsidePublish; decide +kernel,
    by unfold outsidePublish; decide +kernel⟩

theorem witness_PulseCounted : (moves .pulseTx line).cfg.valid = true ∧ (moves .pulseTx line).env = [.act .pulseTx]
    ∧ (moves .pulseRx frozen).cfg.valid = true ∧ (moves .pulseRx frozen).env = [.act .pulseRx] := by decide +kernel

/-- Both lines pulse while RING_TRY_TAKE runs; a POLL that is dropped; a POLL with pulses before and after its two
SWAPs. -/
theorem witness_NoPulseIsLost :
    (∃ s : State, hasReset s.env = false ∧ s.kicksToCome = (1, 2) ∧ ∃ t, exec (.ringTryTake .rx) s = .next t)
    ∧ (∃ s : State, hasReset s.env = false ∧ s.accepting = false ∧ ∃ t, exec .poll s = .next t)
    ∧ ∃ s : State, hasReset s.env = false ∧ s.accepting = true ∧ s.rx.inited = true ∧ txPulses (afterMark s.env) = 2
        ∧ rxPulses (afterMark (afterMark s.env)) = 1 ∧ ∃ t, exec .poll s = .next t :=
  ⟨⟨{ line with env := [.act .pulseTx, .block, .act .pulseRx] }, by decide, by decide,
      exists_next (p := fun t => decide (t.txKickCnt = 1)) (by decide +kernel)⟩,
    ⟨frozen, by decide, by decide, exists_next (p := fun _ => true) (by decide +kernel)⟩,
    ⟨{ line with env := [.act .pulseTx, .act .pulseRx, .block, .act .pulseTx, .act .pulseRx, .block, .act .pulseTx,
        .act .pulseRx] }, by decide, by decide, by decide, by decide, by decide,
      exists_next (p := fun t => decide (t.txKickCnt = 2 ∧ t.rxKickCnt = 1)) (by decide +kernel)⟩⟩

theorem witness_RegisterReadReturnsValue : (moves (.regRead 0x3FC 4) frozen).cfg.valid = true
    ∧ 0x3FC % 4 = 0 ∧ 0x3FC < 1024
    ∧ (moves (.regRead 0x3FC 4) frozen).env = [.act (.regRead ((moves (.regRead 0x3FC 4) frozen).cfg.blkBase + 0x3FC) 4)]
    := by decide +kernel

/-- Another width; above the window; misaligned; below a window that does not begin at 0. -/
theorem witness_OddRegisterAccessRefused :
    (line.cfg.valid = true ∧ ((2 : Nat) ≠ 4))
    ∧ (line.cfg.blkBase + 1024 ≤ 1024 ∧ (moves (.regRead 1024 4) line).env = [.act (.regRead 1024 4)])
    ∧ ((6 - line.cfg.blkBase) % 4 ≠ 0 ∧ (moves (.regWrite 6 4 1) line).env = [.act (.regWrite 6 4 1)])
    ∧ (let c := { cfg with blkBase := 0x40000000 }; c.valid = true ∧ 0x3FFFFFFC < c.blkBase) := by decide +kernel

/-- `ARG0`, `ARG1`, and a register that is read only. -/
theorem witness_RegisterWrites : ∀ off, off ∈ [4, 8, 12] →
    let s := moves (.regWrite off 4 7) line
    s.cfg.valid = true ∧ off % 4 = 0 ∧ off < 1024 ∧ s.env = [.act (.regWrite (s.cfg.blkBase + off) 4 7)] ∧ off ≠ 0 := by
  decide +kernel

theorem witness_ParamsWordFields : fresh.cfg.valid = true := by decide

/-- A slot in use, and the first offset of a slot the table of 8 does not have. -/
theorem witness_ContextRegisters : line.slots[0]? = some announced0 ∧ announced0.name.length = 32
    ∧ line.slots[8]? = none ∧ line.regValue 0x180 = 0 ∧ line.regValue 0x200 = 0x00676663 := by decide +kernel

/-- No ring pair in use; both in use, at the byte after the RX region and beside a buffer that is not the peer's. -/
theorem witness_PeerWriteHappens : ∀ (s : State) (a : Nat), (s = fresh ∧ a = 0x20000042)
      ∨ (s = line ∧ (a = 0x20001024 ∨ a = 0x23000014)) →
    (moves (.peerWrite a .b2 1) s).cfg.valid = true ∧ (moves (.peerWrite a .b2 1) s).env = [.act (.peerWrite a .b2 1)]
    ∧ a % Width.b2.bytes = 0 ∧ s.admits a Width.b2.bytes = true ∧ s.unclaimed .rx a Width.b2.bytes
    ∧ s.unclaimed .tx a Width.b2.bytes := by
  rintro s a (⟨rfl, rfl⟩ | ⟨rfl, rfl | rfl⟩) <;>
    (unfold State.unclaimed State.clearOfBuffers RingCtx.outsideRegion; decide +kernel)

/-- `line` with the peer's offer of RX descriptor 1 at its third step, and its used entry of descriptor 0 read. -/
def offering : State :=
  { line with
    mem := line.mem.writeLE 0x20000046 2 1
    peerRx := { PeerRing.start with usedSeen := some 1, entryId := some 0, entryLen := true, lent := [0] }
    peerWrote := [0x20000010, 0x20000011, 0x20000012, 0x20000013, 0x20000018, 0x20000019, 0x2000001A, 0x2000001B,
      0x20000046, 0x20000047] }

/-- The access is backed and clear of every buffer, and the TX ring pair does not claim it. -/
theorem offering_free (a n : Nat) (h : (a = 0x20000038 ∧ n = 4) ∨ (a = 0x2000004A ∧ n = 2) ∨ (a = 0x20000042 ∧ n = 2)) :
    offering.admits a n = true ∧ offering.clearOfBuffers .rx a n ∧ offering.unclaimed .tx a n := by
  rcases h with ⟨rfl, rfl⟩ | ⟨rfl, rfl⟩ | ⟨rfl, rfl⟩ <;>
    (unfold State.unclaimed State.clearOfBuffers RingCtx.outsideRegion; decide +kernel)

/-- The last descriptor's `len`, the last avail entry, an offer that is ready and one that is not; a reclaim, and one with
nothing read. -/
theorem witness_PeerOffersAndReclaims :
    (offering.cfg.valid = true ∧ (offering.ring .rx).inited = true ∧ (offering.ring .rx).laidOut offering.cfg.n)
    ∧ (3 < offering.cfg.n ∧ 3 ∉ offering.notPeers .rx ∧ (offering.ring .rx).descEntryAddr 3 + 8 = 0x20000038)
    ∧ (3 ∉ offering.offeredSlots .rx ∧ (offering.ring .rx).availEntryAddr 3 = 0x2000004A)
    ∧ ((offering.peer .rx).restarting = false ∧ (offering.ring .rx).availIdxAddr = 0x20000042
      ∧ ((2 : Half) - offering.availIdx .rx).toNat = 1
      ∧ offering.entryReady .rx (slotOf offering.cfg.n (offering.availIdx .rx + 0)) = true)
    ∧ (((3 : Half) - offering.availIdx .rx).toNat = 2
      ∧ offering.entryReady .rx (slotOf offering.cfg.n (offering.availIdx .rx + 1)) = false)
    ∧ ((offering.peer .rx).usedSeen = some 1 ∧ (1 : Half) ≠ (offering.peer .rx).usedRead
      ∧ (offering.peer .rx).entryId = some 0 ∧ (offering.peer .rx).entryLen = true)
    ∧ (line.peer .rx).usedSeen = none := by
  unfold RingCtx.laidOut
  decide +kernel

/-- The first byte of the used ring, and the last; `used.idx`. -/
theorem witness_PeerCannotWriteUsedRing :
    (line.ring .rx).inited = true ∧ (line.ring .rx).laidOut line.cfg.n
    ∧ (moves (.peerWrite 0x20001000 .b1 1) line).env = [.act (.peerWrite 0x20001000 .b1 1)]
    ∧ 0x20001000 < (line.ring .rx).usedAddr.toNat + 4 + 8 * line.cfg.n
    ∧ (line.ring .rx).usedAddr.toNat < 0x20001000 + Width.b1.bytes
    ∧ 0x20001023 < (line.ring .rx).usedAddr.toNat + 4 + 8 * line.cfg.n
    ∧ (line.ring .rx).usedAddr.toNat < 0x20001023 + Width.b1.bytes
    ∧ (line.cfg.valid = true ∧ (line.ring .rx).usedIdxAddr = 0x20001002 ∧ line.admits 0x20001002 2 = true
      ∧ line.unclaimed (otherRing .rx) 0x20001002 2
      ∧ ∃ t, step (moves (.peerWrite 0x20001002 .b2 1) line) = .next t) := by
  unfold RingCtx.laidOut State.unclaimed State.clearOfBuffers RingCtx.outsideRegion
  exact ⟨by decide, by decide, by decide, by decide, by decide, by decide, by decide, by decide, by decide, by decide,
    by decide +kernel, exists_next (p := fun _ => true) (by decide +kernel)⟩

/-- The last byte of the avail ring and the first of the used ring. -/
theorem witness_PeerByteAccessToRingRefused :
    line.cfg.valid = true ∧ (line.ring .rx).inited = true ∧ (line.ring .rx).laidOut line.cfg.n
    ∧ line.admits 0x2000004D 1 = true ∧ line.admits 0x20001000 1 = true
    ∧ ((line.ring .rx).descAddr.toNat ≤ 0x2000004D ∧ 0x2000004D < (line.ring .rx).availAddr.toNat + 6 + 2 * line.cfg.n)
    ∧ ((line.ring .rx).usedAddr.toNat ≤ 0x20001000
      ∧ 0x20001000 < (line.ring .rx).usedAddr.toNat + 4 + 8 * line.cfg.n)
    ∧ (moves (.peerRead 0x20001000 .b1) line).env = [.act (.peerRead 0x20001000 .b1)]
    ∧ (moves (.peerWrite 0x2000004D .b1 1) line).env = [.act (.peerWrite 0x2000004D .b1 1)] := by
  unfold RingCtx.laidOut
  decide +kernel

/-- Descriptor 0 is held, or offered, or returned and not reclaimed; the peer writes elsewhere. -/
theorem witness_PeerLeavesHeldBuffersAlone :
    let held := { line with rx := rxRing 1 0 [0] }
    let returned := { line with rx := rxRing 1 1 [], peerRx := { PeerRing.start with lent := [0] } }
    (∀ s, s = line ∨ s = held ∨ s = returned → ∃ w : State, w = moves (.peerWrite 0x24000000 .b4 1) s
      ∧ w.env = [.act (.peerWrite 0x24000000 .b4 1)] ∧ (∃ t, step w = .next t) ∧ (w.ring .rx).inited = true
      ∧ w.mem.wf = true ∧ (w.ring .rx).laidOut w.cfg.n ∧ 0 < w.cfg.n
      ∧ w.mem.readLE ((w.ring .rx).descEntryAddr 0) 4 ≤ 0x23000000
      ∧ 0x23000000 < w.mem.readLE ((w.ring .rx).descEntryAddr 0) 4 + w.mem.readLE ((w.ring .rx).descEntryAddr 0 + 8) 4)
    ∧ 0 ∈ (line.offeredSlots .rx).map (line.entryNow .rx) ∧ 0 ∈ (held.ring .rx).held ∧ 0 ∈ (returned.peer .rx).lent
    ∧ 0 ∈ line.offeredSlots .rx := by
  refine ⟨?_, by decide +kernel⟩
  rintro s (rfl | rfl | rfl) <;>
    exact ⟨_, rfl, rfl, exists_next (p := fun _ => true) (by decide +kernel), by unfold RingCtx.laidOut; decide +kernel⟩

/-- Each of the four moves. -/
theorem witness_PeerCannotTouchBlock :
    (∃ t, step (moves (.peerWrite 0x24000000 .b4 1) line) = .next t)
    ∧ (∃ t, step (moves (.peerRead 0x20001002 .b2) line) = .next t)
    ∧ (∃ t, step (moves (.peerReclaim .rx) offering) = .next t)
    ∧ ∃ t, step (moves (.peerRestart .tx) line) = .next t :=
  ⟨exists_next (p := fun _ => true) (by decide +kernel), exists_next (p := fun _ => true) (by decide +kernel),
    exists_next (p := fun _ => true) (by decide +kernel), exists_next (p := fun _ => true) (by decide +kernel)⟩

/-- The reset state, for the invariants; the steps of `line` and `newLine`, for the states they hold in. -/
theorem witness_ResetStateMeetsInvariants : Config.default.valid = true ∧ cfg.valid = true := by decide

theorem line_channelTable : line.channelTable := by
  refine ⟨by decide, 1, by decide, by decide, fun i slot h => ?_⟩
  have hi : i < 8 := (List.getElem?_eq_some_iff.mp h).1
  have hall : ∀ i, i < 8 → ∀ x, line.slots[i]? = some x →
      (x.state ≠ .unused ↔ i < 1) ∧ (i < 1 → x.localAddr = line.cfg.localAddrBase + BitVec.ofNat 32 i)
        ∧ (x.state = .announced → x.remote = line.cfg.addrAny) := by
    intro i hi x hx
    interval_cases i <;> (cases hx; decide)
  exact hall i hi slot h

theorem witness_ChannelTableKept : cfg.valid = true ∧ (submit 0x20 line).channelTable
    ∧ (∃ t, step (submit 0x20 line) = .next t)
    ∧ (let s : State := { line with slots := [announced0, { announced0 with localAddr := 0x401 }] }
      ∃ a b : Slot, s.slots[0]? = some a ∧ s.slots[1]? = some b ∧ a.state ≠ .unused ∧ b.state ≠ .unused
        ∧ a.localAddr ≠ b.localAddr) :=
  ⟨by decide, line_channelTable, exists_next (p := fun _ => true) (by decide +kernel),
    announced0, { announced0 with localAddr := 0x401 }, by decide⟩

theorem witness_RingLayoutKept : ∃ s : State, s.ringsLaidOut ∧ s.phaseOk ∧ s.rx.inited = true ∧ ∃ t, step s = .next t :=
  ⟨submit 0x20 line, by unfold State.ringsLaidOut RingCtx.laidOut; decide, ⟨fun _ _ h => (by cases h), fun _ h => (by cases h)⟩,
    by decide, exists_next (p := fun _ => true) (by decide +kernel)⟩

theorem witness_MemoryKept : ∃ s : State, s.memoryOk ∧ ∃ t, step s = .next t ∧ t.mem ≠ s.mem := by
  refine ⟨submit 0x11 line, by unfold State.memoryOk; decide +kernel, ?_⟩
  have h : nextIs (step (submit 0x11 line)) (fun t => decide (t.mem ≠ (submit 0x11 line).mem)) = true := by
    decide +kernel
  revert h
  cases step (submit 0x11 line) with
  | next t => exact fun h => ⟨t, rfl, by simpa [nextIs] using h⟩
  | fault f => exact fun h => by cases h
  | refused r => exact fun h => by cases h

theorem witness_SizesKept : (submit 0x11 line).sizesOk ∧ ∃ t, step (submit 0x11 line) = .next t :=
  ⟨by unfold State.sizesOk; decide, exists_next (p := fun _ => true) (by decide +kernel)⟩

/-- Idle, holding, and frozen. -/
theorem witness_SequencerRestsKept :
    (line.sequencerRests ∧ ∃ t, step line = .next t) ∧ (holding.sequencerRests ∧ ∃ t, step holding = .next t)
    ∧ (frozen.sequencerRests ∧ ∃ t, step frozen = .next t) :=
  ⟨⟨⟨fun _ => .inl rfl, by decide, by decide⟩, exists_next (p := fun _ => true) (by decide +kernel)⟩,
    ⟨⟨fun _ => .inr (.inl ⟨_, _, rfl⟩), by decide, by decide⟩, exists_next (p := fun _ => true) (by decide +kernel)⟩,
    ⟨⟨fun h => (by cases h), by decide, by decide⟩, exists_next (p := fun _ => true) (by decide +kernel)⟩⟩

/-- The POLL that takes slot 0 from Announced to Up. -/
theorem witness_ChannelLifecycle : hasReset (submit 0x20 line).env = false ∧ (∃ t, step (submit 0x20 line) = .next t)
    ∧ (submit 0x20 line).slots[0]? = some announced0 ∧ announced0.state ≠ .unused :=
  ⟨by decide, exists_next (p := fun t => t.regValue 0x100 == 2) (by decide +kernel), by decide, by decide⟩

theorem witness_FaultFreezesBlock : (submit 0x20 frozen).status.faulted = true
    ∧ (submit 0x20 frozen).env.head? ≠ some (.act .reset) ∧ ∃ t, step (submit 0x20 frozen) = .next t :=
  ⟨by decide, by decide, exists_next (p := fun _ => true) (by decide +kernel)⟩

theorem witness_ConfigNeverChanges : (∃ t, step (moves .reset frozen) = .next t) ∧ ∃ t, step (submit 0x20 line) = .next t :=
  ⟨exists_next (p := fun _ => true) (by decide +kernel), exists_next (p := fun _ => true) (by decide +kernel)⟩

/-- A take beyond the ring, with one verdict set before. -/
theorem witness_RecordOnlyGrows : ∃ s : State, hasReset s.env = false ∧ s.verdicts.doubleOffer = true
    ∧ ∃ t, step s = .next t :=
  ⟨{ submit 0x02 line with verdicts := ⟨true, true, true⟩ }, by decide, by decide,
    exists_next (p := fun _ => true) (by decide +kernel)⟩

theorem witness_NsAddrPacketsHaveNoChannel : line.cfg.valid = true ∧ line.channelTable := ⟨by decide, line_channelTable⟩

end Sys2Proof.Tests
end

/-! PROOFS. The scope of the model (spec/00_scope.md): which configurations a step accepts (R9). -/

namespace Sys2Proof

theorem Config.inLocalRange_eq_false_iff (c : Config) (a : Word) :
    c.inLocalRange a = false
      ↔ a.toNat < c.localAddrBase.toNat ∨ c.localAddrBase.toNat + c.maxChannels ≤ a.toNat := by
  simp only [Config.inLocalRange, Bool.and_eq_false_iff, decide_eq_false_iff_not, not_le, not_lt]

/-- R9: the check of a configuration as the conjunction of its constraints. -/
theorem Config.valid_iff (c : Config) :
    c.valid = true ↔ c.log2N ≤ 15 ∧ 1 ≤ c.maxChannels ∧ c.maxChannels ≤ 16
      ∧ c.localAddrBase.toNat + c.maxChannels - 1 ≤ 0xFFFFFFFF
      ∧ (c.nsAddr.toNat < c.localAddrBase.toNat ∨ c.localAddrBase.toNat + c.maxChannels ≤ c.nsAddr.toNat)
      ∧ (c.addrAny.toNat < c.localAddrBase.toNat ∨ c.localAddrBase.toNat + c.maxChannels ≤ c.addrAny.toNat) := by
  simp only [Config.valid, Bool.and_eq_true, decide_eq_true_eq, Bool.not_eq_true',
    Config.inLocalRange_eq_false_iff, and_assoc]

end Sys2Proof

namespace Sys2Proof.Machine

theorem step_of_invalid {s : State} (hv : ¬s.cfg.valid = true) : step s = .refused .badConfig :=
  if_neg hv

/-- With an empty schedule a step is the block's own (log 1). -/
theorem step_of_env_nil {s : State} (hv : s.cfg.valid = true) (he : s.env = []) : step s = blockMove s := by
  unfold step stepWith
  rw [if_pos hv, he]

theorem State.resumption_of_idle {s : State} (hi : s.seq = .idle) : s.resumption = none := by
  unfold State.resumption
  rw [hi]
  exact ite_self none

theorem blockMove_of_resumption_none {s : State} (h : s.resumption = none) : blockMove s = .next s := by
  unfold blockMove
  rw [h]

/-- Settles O8: the constraints of R9 are the model's check of a configuration, and a block that is idle has no step
of its own. -/
theorem badConfigurationRefused : Obligations.BadConfigurationRefused := by
  intro s ok
  have hok : s.cfg.valid = true ↔ ok := s.cfg.valid_iff
  constructor
  · intro hbad
    exact step_of_invalid (mt hok.mp hbad)
  · intro hgood he hi
    rw [step_of_env_nil (hok.mpr hgood) he]
    exact blockMove_of_resumption_none (State.resumption_of_idle hi)

end Sys2Proof.Machine

/-! PROOFS. Writes of the register file (spec/30_encoding.md R301, R302) and the dropped `CMD` write
(spec/10_state.md R105). -/

namespace Sys2Proof.Machine

/-- The register at an offset of the window is the one an aligned access of 4 bytes there reaches (R301). -/
theorem windowOffset_blkBase_add (c : Config) {off : Nat} (hlt : off < windowSize) (hal : off % 4 = 0) :
    windowOffset c (c.blkBase + off) 4 = some off := by
  unfold windowOffset
  rw [if_pos ⟨rfl, by omega, by omega, by omega⟩, Nat.add_sub_cancel_left]

/-- A `CMD` write to a busy or faulted block is dropped (R105). -/
theorem issue_of_not_accepting {w : Word} {body : Prog Unit} {s : State} (h : s.accepting = false) :
    issue w body s = .next s.dropCommand :=
  if_neg (by simp [h])

theorem State.not_accepting {s : State} (h : s.status.faulted = true ∨ s.seq ≠ .idle) : s.accepting = false := by
  rcases h with h | h <;> simp [State.accepting, h]

/-- R105: whatever the word, a write that is not accepted is dropped. -/
theorem issueWord_of_not_accepting (w : Word) {s : State} (h : s.accepting = false) :
    issueWord exec w s = .next s.dropCommand := by
  unfold issueWord
  cases decode w with
  | error e => exact issue_of_not_accepting h
  | ok i => cases i <;> exact issue_of_not_accepting h

/-- The step of a scheduled `CMD` write (R302). -/
theorem step_of_cmdWrite {s : State} {w : Word} {rest : List Input} (hv : s.cfg.valid = true)
    (he : s.env = .act (.regWrite s.cfg.blkBase 4 w) :: rest) :
    step s = issueWord exec w { s with env := rest } := by
  have hcmd : (Move.regWrite s.cfg.blkBase 4 w).command s.cfg = some w :=
    if_pos (windowOffset_blkBase_add s.cfg (off := 0) (by decide) rfl)
  unfold step stepWith
  rw [if_pos hv, he]
  simp only [hcmd]

/-- Settles O7: a busy or faulted block does not accept the write, whatever the decoder makes of the word. -/
theorem busyOrFaultedWriteIsDropped : Obligations.BusyOrFaultedWriteIsDropped := by
  intro s w rest hv he hbusy
  have hacc : State.accepting { s with env := rest } = false := State.not_accepting hbusy
  rw [step_of_cmdWrite hv he, issueWord_of_not_accepting w hacc]
  rfl

end Sys2Proof.Machine

/-! PROOFS. The block's state over every step (spec/10_state.md): the channel table and the stage (R130 to R133, R140),
the sequencer and its fault code (R102, R104, R710), and what only grows (R131, R150, R170). Each is `Whole.step` for a
property that most of the elementary changes leave alone. -/

namespace Sys2Proof.Machine

/-! Resets in a schedule. -/

theorem hasReset_tail {e : Input} {rest : List Input} (h : hasReset (e :: rest) = false) : hasReset rest = false := by
  simp only [hasReset, List.any_cons, Bool.or_eq_false_iff] at h
  exact h.2

@[simp] theorem hasReset_reset (rest : List Input) : hasReset (.act .reset :: rest) = true := by
  simp [hasReset]

/-! The channel table and the stage. -/

/-- Two states with the same channels and stage, the second with no more resets scheduled. -/
structure State.SameChannels (s t : State) : Prop where
  cfg : t.cfg = s.cfg
  slots : t.slots = s.slots
  nextAddr : t.nextAddr = s.nextAddr
  stage : t.stage = s.stage
  noReset : hasReset s.env = false → hasReset t.env = false

theorem State.sameChannels_env {s : State} {e : Input} {rest : List Input} (he : s.env = e :: rest) :
    s.SameChannels { s with env := rest } :=
  ⟨rfl, rfl, rfl, rfl, fun h => hasReset_tail (he ▸ h)⟩

theorem Move.apply_sameChannels {m : Move} {s t : State} {rest : List Input} (he : s.env = .act m :: rest)
    (ha : m.apply { s with env := rest } = .ok t) : s.SameChannels t where
  cfg := (Move.apply_sameBlock ha).cfg
  slots := (Move.apply_sameBlock ha).slots
  nextAddr := (Move.apply_sameBlock ha).nextAddr
  stage := (Move.apply_sameBlock ha).stage
  noReset h := by rw [(Move.apply_env ha).1]; exact hasReset_tail (he ▸ h)

/-- A delivery to slot `i` (R541) changes its state and remote address, beside the history. -/
theorem deliver_of_slot {s : State} {i : Nat} {slot : Slot} (h : s.slots[i]? = some slot) (src dst : Word)
    (payload : List Byte) : deliver i src dst payload s
      = (s.setSlot i { slot with state := .up, remote := src }).emit (.deliver i src dst payload) := by
  unfold deliver
  rw [h]

/-- A property of the channels and the stage, and the four changes that reach them: a create (R510), a delivery (R541),
the staging of a payload (R140) and reset (R800). -/
structure ChannelProperty (P : State → Prop) : Prop where
  congr : ∀ {s t}, s.SameChannels t → P s → P t
  announce : ∀ s i nm, P s → firstUnused s.slots = some i → nm.length = nameLen → P (announceSlot i nm s)
  deliver : ∀ s i slot src, P s → s.slots[i]? = some slot → slot.state ≠ .unused →
    P (s.setSlot i { slot with state := .up, remote := src })
  stage : ∀ s bs, P s → bs.length ≤ maxPayload → P (setStage bs s)
  reset : ∀ s rest, P s → s.env = .act .reset :: rest → P (State.blockReset { s with env := rest })

namespace ChannelProperty

variable {P : State → Prop}

theorem calm (hP : ChannelProperty P) : Calm P P where
  mark _ _ he hs := hP.congr (State.sameChannels_env he) hs
  move _ _ _ _ he hs ha := hP.congr (Move.apply_sameChannels he ha) hs
  reset s rest he hs := hP.reset s rest hs he

theorem commands (hP : ChannelProperty P) : Commands (fun _ _ => True) P P := by
  constructor
  case calm => exact hP.calm
  case announce => exact hP.announce
  case stage => exact hP.stage
  case deliver =>
    intro s i src dst payload slot hs hslot hused _
    rw [deliver_of_slot hslot]
    exact hP.congr (by constructor <;> simp) (hP.deliver s i slot src hs hslot hused)
  case onCongr => exact fun _ _ _ _ _ => trivial
  case onInited => exact fun _ _ _ => trivial
  case holdTx => exact fun _ _ _ hs _ => hs
  case holdRx => exact fun _ _ hs _ => hs
  -- Every other change leaves the channels and the stage alone.
  all_goals
    intros
    refine hP.congr ?_ ‹P _›
    constructor <;> simp

/-- Every step keeps such a property. -/
theorem step (hP : ChannelProperty P) {s t : State} (hs : P s) (h : step s = .next t) : P t :=
  Whole.step (On := fun _ _ => True) (I := P)
    { hP.commands with
      swapTx := fun _ hs => hP.congr (by constructor <;> simp) hs
      swapRx := fun _ hs => hP.congr (by constructor <;> simp) hs
      resume := fun _ hs _ _ => hs
      resumeTx := fun _ _ _ _ _ => trivial
      resumeRx := fun _ _ _ _ => trivial
      mark := fun _ _ _ hs he _ => hP.congr (State.sameChannels_env he) hs
      command := fun _ _ _ _ hs he _ => hP.congr (State.sameChannels_env he) hs
      move := fun _ _ _ _ hs he ha => hP.congr (Move.apply_sameChannels he ha) hs
      reset := hP.reset } hs h

end ChannelProperty

/-- The lowest Unused slot (R510): it is Unused, and every slot below it is in use. -/
theorem firstUnused_spec {slots : List Slot} {i : Nat} (h : firstUnused slots = some i) :
    (∃ slot, slots[i]? = some slot ∧ slot.state = .unused)
      ∧ ∀ j slot, j < i → slots[j]? = some slot → slot.state ≠ .unused := by
  unfold firstUnused at h
  rw [List.findIdx?_eq_some_iff_getElem] at h
  obtain ⟨hi, hfree, hbelow⟩ := h
  refine ⟨⟨slots[i], List.getElem?_eq_getElem hi, of_decide_eq_true hfree⟩, fun j slot hj hslot => ?_⟩
  obtain ⟨hlt, rfl⟩ := List.getElem?_eq_some_iff.mp hslot
  exact fun hstate => hbelow j hj (decide_eq_true hstate)

/-! The four invariants of the channel table (R133). -/

theorem State.channelTable_resetWith (c : Config) : (State.resetWith c).channelTable := by
  refine ⟨List.length_replicate, 0, Nat.zero_le _, (BitVec.add_zero _).symm, fun i slot h => ?_⟩
  obtain ⟨_, rfl⟩ : _ ∧ Slot.free = slot := by
    simpa [State.resetWith, List.getElem?_replicate] using h
  simp [Slot.free]

theorem State.channelTable_congr {s t : State} (hcfg : t.cfg = s.cfg) (hslots : t.slots = s.slots)
    (hnext : t.nextAddr = s.nextAddr) (h : s.channelTable) : t.channelTable := by
  unfold State.channelTable at *
  rw [hcfg, hslots, hnext]
  exact h

/-- A create takes the first Unused slot, which is the one after the slots in use (R510). -/
theorem State.channelTable_announceSlot {s : State} {i : Nat} (nm : List Byte) (h : s.channelTable)
    (hi : firstUnused s.slots = some i) : (announceSlot i nm s).channelTable := by
  obtain ⟨hlen, k, hk, hnext, hslots⟩ := h
  obtain ⟨⟨free, hfree, hunused⟩, hbelow⟩ := firstUnused_spec hi
  have hilt : i < s.slots.length := (List.getElem?_eq_some_iff.mp hfree).1
  have hik : i = k := by
    have hge : ¬i < k := fun hlt => (hslots i free hfree).1.mpr hlt hunused
    have hle : ¬k < i := fun hlt => by
      have hget := List.getElem?_eq_getElem (hlt.trans hilt)
      exact absurd ((hslots k _ hget).1.mp (hbelow k _ hlt hget)) (lt_irrefl k)
    omega
  subst hik
  refine ⟨by simpa using hlen, i + 1, by simp; omega, ?_, fun j slot hj => ?_⟩
  · simp [hnext, BitVec.ofNat_add, BitVec.add_assoc]
  · simp only [announceSlot_slots, List.getElem?_set, hilt, if_true] at hj
    split at hj
    · next hij =>
      subst hij
      cases hj
      exact ⟨by simp, fun _ => hnext, fun _ => rfl⟩
    · next hij =>
      obtain ⟨hused, haddr, hremote⟩ := hslots j slot hj
      have hji : j < i + 1 ↔ j < i := by omega
      exact ⟨by rw [hused, hji], fun h => haddr (hji.mp h), hremote⟩

/-- A delivery makes a slot in use Up and leaves its local address (R541). -/
theorem State.channelTable_up {s : State} {i : Nat} {slot : Slot} (src : Word) (h : s.channelTable)
    (hslot : s.slots[i]? = some slot) (hused : slot.state ≠ .unused) :
    (s.setSlot i { slot with state := .up, remote := src }).channelTable := by
  obtain ⟨hlen, k, hk, hnext, hslots⟩ := h
  refine ⟨by simpa using hlen, k, hk, hnext, fun j x hj => ?_⟩
  simp only [State.setSlot_slots, List.getElem?_set] at hj
  split at hj
  · next hij =>
    subst hij
    obtain ⟨hik, haddr, _⟩ := hslots i slot hslot
    rw [if_pos (List.getElem?_eq_some_iff.mp hslot).1] at hj
    cases hj
    exact ⟨⟨fun _ => hik.mp hused, fun _ => by simp⟩, haddr, fun h => by cases h⟩
  · exact hslots j x hj

theorem channelTable_property : ChannelProperty State.channelTable where
  congr hst hs := State.channelTable_congr hst.cfg hst.slots hst.nextAddr hs
  announce _ _ nm hs hi _ := State.channelTable_announceSlot nm hs hi
  deliver _ _ _ src hs hslot hused := State.channelTable_up src hs hslot hused
  stage _ _ hs _ := State.channelTable_congr rfl rfl rfl hs
  reset s _ _ _ := State.channelTable_congr rfl rfl rfl (State.channelTable_resetWith s.cfg)

/-- R133: local addresses count up from `LOCAL_ADDR_BASE` over at most 16 slots, so no two are equal. -/
theorem State.channelTable_localAddr_inj {s : State} (hv : s.cfg.valid = true) (h : s.channelTable) {i j : Nat}
    {a b : Slot} (ha : s.slots[i]? = some a) (hb : s.slots[j]? = some b) (hau : a.state ≠ .unused)
    (hbu : b.state ≠ .unused) (heq : a.localAddr = b.localAddr) : i = j := by
  obtain ⟨_, k, hk, _, hslots⟩ := h
  obtain ⟨_, _, hmax, _⟩ := s.cfg.valid_iff.mp hv
  obtain ⟨hia, haddr, _⟩ := hslots i a ha
  obtain ⟨hjb, hbddr, _⟩ := hslots j b hb
  have hi : i < k := hia.mp hau
  have hj : j < k := hjb.mp hbu
  have hword : BitVec.ofNat 32 i = BitVec.ofNat 32 j :=
    (BitVec.add_right_inj _).mp ((haddr hi).symm.trans (heq.trans (hbddr hj)))
  have hnat : i % 2 ^ 32 = j % 2 ^ 32 := by simpa using congrArg BitVec.toNat hword
  omega

/-- Settles O51: the channel table holds at reset, `ChannelProperty.step` carries it over every step, and the local
addresses are consecutive. -/
theorem channelTableKept : Obligations.ChannelTableKept :=
  ⟨fun c _ => State.channelTable_resetWith c, fun _ _ hs h => channelTable_property.step hs h,
    fun _ hv hs _ _ _ _ ha hb hau hbu heq => State.channelTable_localAddr_inj hv hs ha hb hau hbu heq⟩

/-! The sizes of the stage and of the names (R130, R140). -/

theorem State.sizesOk_resetWith (c : Config) : (State.resetWith c).sizesOk := by
  refine ⟨Nat.zero_le _, fun slot h => ?_⟩
  rw [List.eq_of_mem_replicate h]
  exact List.length_replicate

theorem State.sizesOk_setSlot {s : State} {i : Nat} {slot : Slot} (h : s.sizesOk) (hn : slot.name.length = 32) :
    (s.setSlot i slot).sizesOk := by
  obtain ⟨hstage, hnames⟩ := h
  refine ⟨hstage, fun x hx => ?_⟩
  rcases List.mem_or_eq_of_mem_set hx with hold | rfl
  · exact hnames x hold
  · exact hn

theorem sizesOk_property : ChannelProperty State.sizesOk where
  congr hst hs := by
    unfold State.sizesOk at *
    rw [hst.slots, hst.stage]
    exact hs
  announce _ _ _ hs _ hn := State.sizesOk_setSlot hs hn
  deliver s i slot _ hs hslot _ := State.sizesOk_setSlot hs (hs.2 slot (List.mem_of_getElem? hslot))
  stage _ _ hs hbs := ⟨hbs, hs.2⟩
  reset s _ _ _ := State.sizesOk_resetWith s.cfg

/-- Settles O54: a name is padded to 32 bytes before the create, and a payload cut to 496 before it is staged. -/
theorem sizesKept : Obligations.SizesKept := fun _ _ hs h => sizesOk_property.step hs h

/-! The lifecycle of a channel (R131). -/

/-- No slot of `l` goes back in the lifecycle in `l'`, and a slot in use keeps its local address and its name. -/
def SlotsAdvance (l l' : List Slot) : Prop :=
  ∀ (i : Nat) (a : Slot), l[i]? = some a →
    ∃ b, l'[i]? = some b ∧ a.state.rank ≤ b.state.rank
      ∧ (a.state ≠ .unused → b.localAddr = a.localAddr ∧ b.name = a.name)

theorem ChState.rank_pos {c : ChState} : 0 < c.rank ↔ c ≠ .unused := by
  cases c <;> simp [ChState.rank]

theorem ChState.rank_le_up (c : ChState) : c.rank ≤ ChState.up.rank := by
  cases c <;> decide

theorem SlotsAdvance.refl (l : List Slot) : SlotsAdvance l l := fun _ a ha => ⟨a, ha, le_rfl, fun _ => ⟨rfl, rfl⟩⟩

theorem SlotsAdvance.trans {l l' l'' : List Slot} (h : SlotsAdvance l l') (h' : SlotsAdvance l' l'') :
    SlotsAdvance l l'' := by
  intro i a ha
  obtain ⟨b, hb, hab, hkeep⟩ := h i a ha
  obtain ⟨c, hc, hbc, hkeep'⟩ := h' i b hb
  refine ⟨c, hc, hab.trans hbc, fun hused => ?_⟩
  obtain ⟨hba, hbn⟩ := hkeep hused
  obtain ⟨hcb, hcn⟩ := hkeep' (ChState.rank_pos.mp ((ChState.rank_pos.mpr hused).trans_le hab))
  exact ⟨hcb.trans hba, hcn.trans hbn⟩

theorem SlotsAdvance.set {l : List Slot} {i : Nat} {a b : Slot} (ha : l[i]? = some a)
    (hrank : a.state.rank ≤ b.state.rank)
    (hkeep : a.state ≠ .unused → b.localAddr = a.localAddr ∧ b.name = a.name) : SlotsAdvance l (l.set i b) := by
  intro j x hx
  by_cases hij : i = j
  · subst hij
    obtain rfl : a = x := Option.some.inj (ha.symm.trans hx)
    exact ⟨b, List.getElem?_set_self (List.getElem?_eq_some_iff.mp ha).1, hrank, hkeep⟩
  · exact ⟨x, (List.getElem?_set_ne hij).trans hx, le_rfl, fun _ => ⟨rfl, rfl⟩⟩

theorem slotsAdvance_property (l : List Slot) :
    ChannelProperty fun s => hasReset s.env = false ∧ SlotsAdvance l s.slots where
  congr hst hs := ⟨hst.noReset hs.1, hst.slots ▸ hs.2⟩
  announce s i nm hs hi _ := by
    obtain ⟨⟨free, hfree, hunused⟩, _⟩ := firstUnused_spec hi
    refine ⟨by simpa using hs.1, hs.2.trans (SlotsAdvance.set hfree ?_ fun hused => absurd hunused hused)⟩
    rw [hunused]
    exact Nat.zero_le _
  deliver _ _ slot _ hs hslot _ :=
    ⟨hs.1, hs.2.trans (SlotsAdvance.set hslot slot.state.rank_le_up fun _ => ⟨rfl, rfl⟩)⟩
  stage _ _ hs _ := hs
  reset s rest hs he := by simp [he] at hs

/-- Settles O56: a create writes an Unused slot only, a delivery makes a slot Up and leaves its address and name. -/
theorem channelLifecycle : Obligations.ChannelLifecycle := fun s _ hr h =>
  ((slotsAdvance_property s.slots).step ⟨hr, SlotsAdvance.refl _⟩ h).2

end Sys2Proof.Machine

namespace Sys2Proof.Machine

/-! The sequencer and its fault code (R102, R104, R710). -/

/-- No fault is taken and none is named (R104). -/
def State.faultFree (s : State) : Prop := s.status.faulted = false ∧ s.status.fcode = .none

theorem State.faultFree_congr {s t : State} (hf : t.status.faulted = s.status.faulted)
    (hc : t.status.fcode = s.status.fcode) (h : s.faultFree) : t.faultFree :=
  ⟨hf.trans h.1, hc.trans h.2⟩

theorem State.sequencerRests_congr {s t : State} (hseq : t.seq = s.seq) (hf : t.status.faulted = s.status.faulted)
    (hc : t.status.fcode = s.status.fcode) (h : s.sequencerRests) : t.sequencerRests := by
  unfold State.sequencerRests at *
  rw [hseq, hf, hc]
  exact h

/-- With no fault, the sequencer rests where it is idle, holds or drains. -/
theorem State.sequencerRests_of_faultFree {s : State} (h : s.faultFree)
    (hseq : s.seq = .idle ∨ (∃ cmd job, s.seq = .run cmd (.waitBuf job)) ∨ ∃ cmd, s.seq = .run cmd .drain) :
    s.sequencerRests := by
  obtain ⟨hf, hc⟩ := h
  exact ⟨fun _ => hseq, by simp [hf], by simp [hf, hc]⟩

theorem State.faultFree_of_sequencerRests {s : State} (h : s.sequencerRests) (hf : s.status.faulted = false) :
    s.faultFree := by
  obtain ⟨_, _, hcode⟩ := h
  exact ⟨hf, not_not.mp (mt hcode.mpr (by simp [hf]))⟩

theorem State.sequencerRests_takeFault {s : State} {c : FaultCode} (hrun : Running s) (hc : c ≠ .none) :
    (s.takeFault c).sequencerRests := by
  obtain ⟨cmd, phase, hseq⟩ := hrun
  exact ⟨by simp, by simp [hseq], by simp [hc]⟩

theorem State.sequencerRests_blockReset (s : State) : s.blockReset.sequencerRests :=
  State.sequencerRests_of_faultFree ⟨rfl, rfl⟩ (.inl rfl)

theorem calm_faultFree : Calm State.sequencerRests State.faultFree where
  mark _ _ _ hs := hs
  move _ _ _ _ _ hs ha := State.faultFree_congr (Move.apply_sameBlock ha).faulted (Move.apply_sameBlock ha).fcode hs
  reset _ _ _ _ := State.sequencerRests_blockReset _

/-- While a command runs there is no fault; it ends idle, with a hold, with a drain to go on, or frozen. -/
theorem commands_sequencerRests : Commands (fun _ _ => True) State.sequencerRests State.faultFree := by
  constructor
  case calm => exact calm_faultFree
  case fault => exact fun _ _ _ hrun hc => State.sequencerRests_takeFault hrun hc
  case complete => exact fun _ _ _ hs => State.sequencerRests_of_faultFree hs (.inl rfl)
  case holdTx => exact fun _ cmd job hs hseq => State.sequencerRests_of_faultFree hs (.inr (.inl ⟨cmd, job, hseq⟩))
  case holdRx => exact fun _ cmd hs hseq => State.sequencerRests_of_faultFree hs (.inr (.inr ⟨cmd, hseq⟩))
  case accept =>
    intro s w hs ha
    simp only [State.accepting, Bool.and_eq_true, Bool.not_eq_true'] at ha
    have hfree : s.faultFree := State.faultFree_of_sequencerRests hs ha.2
    exact hfree
  case overrun => exact fun _ hs => State.sequencerRests_congr rfl rfl rfl hs
  case deliver =>
    intro s i src dst payload slot hs hslot _ _
    rw [deliver_of_slot hslot]
    exact hs
  case onCongr => exact fun _ _ _ _ _ => trivial
  case onInited => exact fun _ _ _ => trivial
  -- Every other change leaves both fault fields alone.
  all_goals
    intros
    refine State.faultFree_congr ?_ ?_ ‹State.faultFree _› <;> simp [setTrunc]

theorem whole_sequencerRests : Whole (fun _ _ => True) State.sequencerRests State.faultFree where
  toCommands := commands_sequencerRests
  swapTx _ hs := hs
  swapRx _ hs := hs
  resume _ hs hf _ := State.faultFree_of_sequencerRests hs hf
  resumeTx _ _ _ _ _ := trivial
  resumeRx _ _ _ _ := trivial
  mark _ _ _ hs _ _ := hs
  command _ _ _ _ hs _ _ := hs
  move _ _ _ _ hs _ ha :=
    have hb := Move.apply_sameBlock ha
    State.sequencerRests_congr hb.seq hb.faulted hb.fcode hs
  reset _ _ _ _ := State.sequencerRests_blockReset _

/-- Settles O55: a command runs without a fault from its acceptance to its end, hold or fault. -/
theorem sequencerRestsKept : Obligations.SequencerRestsKept := fun _ _ hs h => whole_sequencerRests.step hs h

/-! The history and the verdicts (R150, R170, R720). -/

/-- The history of `t` continues that of `s`, and `t` has every verdict of `s`. -/
structure State.RecordGrows (s t : State) : Prop where
  history : s.history <+: t.history
  peerOverrun : s.verdicts.peerOverrun = true → t.verdicts.peerOverrun = true
  doubleOffer : s.verdicts.doubleOffer = true → t.verdicts.doubleOffer = true
  publishNotHeld : s.verdicts.publishNotHeld = true → t.verdicts.publishNotHeld = true

theorem State.RecordGrows.refl (s : State) : s.RecordGrows s := ⟨List.prefix_rfl, id, id, id⟩

theorem State.RecordGrows.trans {s t u : State} (h : s.RecordGrows t) (h' : t.RecordGrows u) : s.RecordGrows u where
  history := h.history.trans h'.history
  peerOverrun := h'.peerOverrun ∘ h.peerOverrun
  doubleOffer := h'.doubleOffer ∘ h.doubleOffer
  publishNotHeld := h'.publishNotHeld ∘ h.publishNotHeld

theorem Move.apply_recordGrows {m : Move} {s t : State} (ha : m.apply s = .ok t) : s.RecordGrows t := by
  have hv := (Move.apply_sameBlock ha).verdicts
  refine ⟨?_, by rw [hv]; exact id, by rw [hv]; exact id, by rw [hv]; exact id⟩
  obtain ⟨_, _, rfl⟩ | ⟨_, rfl⟩ | ⟨_, _, _, _, _, _, _, _, _, rfl⟩ | ⟨_, _, _, _, _, rfl⟩ | ⟨r, _, rfl⟩ | rfl | rfl :=
    Move.apply_cases ha
  · unfold State.regStore
    split_ifs <;> exact List.prefix_rfl
  · exact List.prefix_rfl
  · exact List.prefix_append _ _
  · exact List.prefix_append _ _
  · cases r <;> exact List.prefix_rfl
  · exact List.prefix_rfl
  · exact List.prefix_rfl

/-- The record of `s` has only grown up to now, and no reset is to come. -/
def RecordSince (s t : State) : Prop := hasReset t.env = false ∧ s.RecordGrows t

theorem RecordSince.trans {s t u : State} (h : RecordSince s t) (henv : u.env = t.env) (hg : t.RecordGrows u) :
    RecordSince s u :=
  ⟨by rw [henv]; exact h.1, h.2.trans hg⟩

theorem RecordSince.mark {s t : State} {e : Input} {rest : List Input} (h : RecordSince s t) (he : t.env = e :: rest) :
    RecordSince s { t with env := rest } :=
  ⟨hasReset_tail (he ▸ h.1), h.2.trans ⟨List.prefix_rfl, id, id, id⟩⟩

theorem RecordSince.move {s t u : State} {m : Move} {rest : List Input} (h : RecordSince s t)
    (he : t.env = .act m :: rest) (ha : m.apply { t with env := rest } = .ok u) : RecordSince s u :=
  (h.mark he).trans (Move.apply_env ha).1 (Move.apply_recordGrows ha)

theorem RecordSince.no_reset {s t : State} {rest : List Input} (h : RecordSince s t) :
    t.env ≠ .act .reset :: rest := fun he => by simp [RecordSince, he] at h

theorem calm_recordSince (s : State) : Calm (RecordSince s) (RecordSince s) where
  mark _ _ he hs := hs.mark he
  move _ _ _ _ he hs ha := hs.move he ha
  reset _ _ he hs := absurd he hs.no_reset

theorem commands_recordSince (s : State) : Commands (fun _ _ => True) (RecordSince s) (RecordSince s) := by
  constructor
  case calm => exact calm_recordSince s
  case onCongr => exact fun _ _ _ _ _ => trivial
  case onInited => exact fun _ _ _ => trivial
  case holdTx => exact fun _ _ _ hs _ => hs
  case holdRx => exact fun _ _ hs _ => hs
  case deliver =>
    intro t i src dst payload slot hs hslot _ _
    rw [deliver_of_slot hslot]
    exact hs.trans rfl ⟨List.prefix_append _ _, id, id, id⟩
  -- Every other change leaves the record alone, appends one event or joins one verdict.
  all_goals
    intros
    refine RecordSince.trans ‹RecordSince s _› (by simp) ?_
    constructor <;> simp +contextual [ghostTake, State.notePeerOverrun, State.noteDoubleOffer, State.notePublishNotHeld]

theorem whole_recordSince (s : State) : Whole (fun _ _ => True) (RecordSince s) (RecordSince s) where
  toCommands := commands_recordSince s
  swapTx _ hs := hs.trans rfl ⟨List.prefix_rfl, id, id, id⟩
  swapRx _ hs := hs.trans rfl ⟨List.prefix_rfl, id, id, id⟩
  resume _ hs _ _ := hs
  resumeTx _ _ _ _ _ := trivial
  resumeRx _ _ _ _ := trivial
  mark _ _ _ hs he _ := hs.mark he
  command _ _ _ _ hs he _ := hs.mark he
  move _ _ _ _ hs he ha := hs.move he ha
  reset _ _ hs he := absurd he hs.no_reset

/-- Settles O59: every change of the block and of the other agents but reset appends to the history or leaves it, and
joins a verdict to those recorded. -/
theorem recordOnlyGrows : Obligations.RecordOnlyGrows := by
  intro s t hr h
  obtain ⟨_, ⟨more, hmore⟩, hover, hdouble, hnot⟩ := (whole_recordSince s).step ⟨hr, .refl s⟩ h
  exact ⟨⟨more, hmore.symm⟩, hover, hdouble, hnot⟩

end Sys2Proof.Machine

/-! PROOFS. The kick counters under every schedule (spec/10_state.md R120, spec/42_notification.md R600, R621, R632): a
counter plus the pulses still scheduled for it changes at a SWAP only. -/

namespace Sys2Proof.Machine

theorem txPulses_cons (e : Input) (rest : List Input) :
    txPulses (e :: rest) = txPulses rest + if e = .act .pulseTx then 1 else 0 := by
  simp [txPulses, List.countP_cons]

theorem rxPulses_cons (e : Input) (rest : List Input) :
    rxPulses (e :: rest) = rxPulses rest + if e = .act .pulseRx then 1 else 0 := by
  simp [rxPulses, List.countP_cons]

/-- A move that is no pulse leaves both counters alone. -/
theorem Move.apply_kickCnts {m : Move} {s t : State} (htx : m ≠ .pulseTx) (hrx : m ≠ .pulseRx)
    (ha : m.apply s = .ok t) : t.txKickCnt = s.txKickCnt ∧ t.rxKickCnt = s.rxKickCnt := by
  cases m with
  | regWrite a n v =>
    simp only [Move.apply, moveRegWrite] at ha
    split at ha <;> cases ha
    unfold State.regStore
    split_ifs <;> exact ⟨rfl, rfl⟩
  | regRead a n =>
    simp only [Move.apply, moveRegRead] at ha
    split at ha <;> cases ha
    exact ⟨rfl, rfl⟩
  | coreWrite a w v =>
    simp only [Move.apply, moveCoreWrite] at ha
    split at ha <;> cases ha
    exact ⟨rfl, rfl⟩
  | peerRead a w =>
    simp only [Move.apply, movePeerRead] at ha
    split at ha <;> cases ha
    exact ⟨rfl, rfl⟩
  | peerWrite a w v =>
    simp only [Move.apply, movePeerWrite] at ha
    split at ha
    · cases ha
    · split_ifs at ha <;> cases ha <;> exact ⟨rfl, rfl⟩
  | peerReclaim r =>
    simp only [Move.apply, movePeerReclaim] at ha
    split at ha <;> cases ha
    · exact ⟨rfl, rfl⟩
    · cases r <;> exact ⟨rfl, rfl⟩
  | peerRestart r =>
    cases ha
    cases r <;> exact ⟨rfl, rfl⟩
  | pulseTx => exact absurd rfl htx
  | pulseRx => exact absurd rfl hrx
  | reset => cases ha

/-- R600: a pulse goes from the schedule to its counter. -/
theorem Move.apply_kicksToCome {m : Move} {s t : State} {rest : List Input} (he : s.env = .act m :: rest)
    (ha : m.apply { s with env := rest } = .ok t) : t.kicksToCome = s.kicksToCome := by
  have henv : t.env = rest := (Move.apply_env ha).1
  simp only [State.kicksToCome, henv, he, txPulses_cons, rxPulses_cons, Input.act.injEq]
  by_cases htx : m = .pulseTx
  · subst htx
    cases ha
    simp [BitVec.ofNat_add, BitVec.add_assoc, BitVec.add_comm]
  · by_cases hrx : m = .pulseRx
    · subst hrx
      cases ha
      simp [BitVec.ofNat_add, BitVec.add_assoc, BitVec.add_comm]
    · obtain ⟨htxCnt, hrxCnt⟩ := Move.apply_kickCnts htx hrx ha
      simp [htx, hrx, htxCnt, hrxCnt]

theorem State.kicksToCome_mark {s : State} {rest : List Input} (he : s.env = .block :: rest) :
    State.kicksToCome { s with env := rest } = s.kicksToCome := by
  simp [State.kicksToCome, he, txPulses_cons, rxPulses_cons]

/-- No reset is to come, and `K` holds of the counts of both lines with the pulses to come. -/
def KicksMeet (K : Word × Word → Prop) (s : State) : Prop := hasReset s.env = false ∧ K s.kicksToCome

theorem KicksMeet.congr {K : Word × Word → Prop} {s t : State} (henv : t.env = s.env)
    (htx : t.txKickCnt = s.txKickCnt) (hrx : t.rxKickCnt = s.rxKickCnt) (h : KicksMeet K s) : KicksMeet K t := by
  unfold KicksMeet State.kicksToCome at *
  rw [henv, htx, hrx]
  exact h

theorem calm_kicksMeet (H : State → Prop) (K : Word × Word → Prop) : Calm H (KicksMeet K) where
  mark _ _ he hs := ⟨hasReset_tail (he ▸ hs.1), by rw [State.kicksToCome_mark he]; exact hs.2⟩
  move _ _ _ _ he hs ha :=
    ⟨by rw [(Move.apply_env ha).1]; exact hasReset_tail (he ▸ hs.1), by rw [Move.apply_kicksToCome he ha]; exact hs.2⟩
  reset _ _ he hs := by simp [KicksMeet, he] at hs

/-- R120: no command but POLL changes the counters, and POLL only at its SWAPs. -/
theorem commands_kicksMeet (K : Word × Word → Prop) : Commands (fun _ _ => True) (KicksMeet K) (KicksMeet K) := by
  constructor
  case calm => exact calm_kicksMeet _ K
  case onCongr => exact fun _ _ _ _ _ => trivial
  case onInited => exact fun _ _ _ => trivial
  case holdTx => exact fun _ _ _ hs _ => hs
  case holdRx => exact fun _ _ hs _ => hs
  case deliver =>
    intro t i src dst payload slot hs hslot _ _
    rw [deliver_of_slot hslot]
    exact hs
  -- Every other change leaves the schedule and both counters alone.
  all_goals
    intros
    refine KicksMeet.congr ?_ ?_ ?_ ‹KicksMeet K _› <;> simp

/-- What the other agents do before a step of the block takes the schedule to its next mark (log 1). -/
theorem runInputs_env {es : List Input} {s t : State} (he : s.env = es) (h : runInputs es s = .ok ((), t)) :
    t.env = afterMark es := by
  induction es generalizing s with
  | nil => cases h; exact he
  | cons e rest ih =>
    cases e with
    | settle => cases h; exact he
    | block => cases h; rfl
    | act m =>
      simp only [runInputs] at h
      cases ha : Move.apply m { s with env := rest } with
      | ok u =>
        rw [ha] at h
        exact ih (Move.apply_env ha).1 h
      | error e =>
        rw [ha] at h
        cases h

theorem yield_env_triple {H P : State → Prop} (hc : Calm H P) (es : List Input) :
    Prog.Triple H (fun s => P s ∧ s.env = es) yield fun _ s => P s ∧ s.env = afterMark es := by
  intro s ⟨hs, he⟩
  have hpost := yield_triple hc s hs
  cases hy : yield s with
  | ok x =>
    rw [hy] at hpost
    exact ⟨hpost, he ▸ runInputs_env rfl hy⟩
  | error e =>
    rw [hy] at hpost
    cases e <;> exact hpost

theorem Calm.and_core {H I P : State → Prop} (hc : Calm H I) (hP : CoreFact P) : Calm H fun s => I s ∧ P s where
  mark s rest he hs := ⟨hc.mark s rest he hs.1, hP s _ ⟨rfl, rfl, rfl, rfl, fun r => by cases r <;> rfl⟩ hs.2⟩
  move s rest m t he hs ha :=
    have henv : P { s with env := rest } := hP s _ ⟨rfl, rfl, rfl, rfl, fun r => by cases r <;> rfl⟩ hs.2
    ⟨hc.move s rest m t he hs.1 ha, hP _ _ (Move.apply_sameBlock ha).core henv⟩
  reset s rest he hs := hc.reset s rest he hs.1

/-- R621: the SWAP of `TX_KICK_CNT` clears what came before the next mark; what is scheduled after it is counted. -/
theorem swapTxKicks_triple (H : State → Prop) (es : List Input) :
    Prog.Triple H (fun s => (KicksMeet (fun _ => True) s ∧ Running s) ∧ s.env = es) swapTxKicks
      fun _ s => (KicksMeet (fun k => k.1 = BitVec.ofNat 32 (txPulses (afterMark es))) s ∧ Running s)
        ∧ s.env = afterMark es := by
  refine Prog.Triple.bind (yield_env_triple ((calm_kicksMeet H _).and_core running_core) es) fun _ => ?_
  rintro s ⟨⟨⟨hr, _⟩, hrun⟩, he⟩
  exact ⟨⟨⟨hr, by simp [State.kicksToCome, he]⟩, hrun⟩, he⟩

/-- R621: the SWAP of `RX_KICK_CNT` does so for its line and leaves the other. -/
theorem swapRxKicks_triple (H : State → Prop) (es : List Input) (n : Word) :
    Prog.Triple H (fun s => (KicksMeet (fun k => k.1 = n) s ∧ Running s) ∧ s.env = es) swapRxKicks
      fun _ s => KicksMeet (fun k => k = (n, BitVec.ofNat 32 (rxPulses (afterMark es)))) s ∧ Running s := by
  refine Prog.Triple.bind (yield_env_triple ((calm_kicksMeet H _).and_core running_core) es) fun _ => ?_
  rintro s ⟨⟨⟨hr, hk⟩, hrun⟩, he⟩
  exact ⟨⟨hr, Prod.ext hk (by simp [State.kicksToCome, he])⟩, hrun⟩

/-- What follows the SWAPs of a POLL (R620). -/
theorem pollTail_kicks (K : Word × Word → Prop) (tx rx : Word) :
    Prog.Triple (KicksMeet K) (fun s => KicksMeet K s ∧ Running s)
      (do
        maintainCache tx
        if rx ≠ 0 then drainAndFinish else finish (if tx ≠ 0 then 1 else 0))
      fun _ => KicksMeet K := by
  have hc := commands_kicksMeet K
  refine Prog.Triple.bind (Q := fun _ s => KicksMeet K s ∧ Running s) ?_ fun _ => ?_
  · unfold maintainCache
    exact Prog.Triple.ite (fun _ => hc.emitEvent running_core _) fun _ => Prog.Triple.pure fun _ hs => hs
  · refine Prog.Triple.ite (fun _ => ?_) fun _ => hc.finish running_core _
    exact hc.drainAndFinish.weaken (fun _ hs => ⟨hs.1, hs.2, trivial⟩) fun _ _ hs => hs

/-- What is counted and still to come after both SWAPs of a POLL: on the TX line the pulses scheduled after its first
step, on the RX line those after its second (R621). -/
def kicksAfterSwaps (es : List Input) : Word × Word :=
  (BitVec.ofNat 32 (txPulses (afterMark es)), BitVec.ofNat 32 (rxPulses (afterMark (afterMark es))))

/-- A POLL of an initialised ring pair (R620): its first two steps are the SWAPs. -/
theorem pollBody_kicks (es : List Input) :
    Prog.Triple (KicksMeet (· = kicksAfterSwaps es))
      (fun s => ((KicksMeet (fun _ => True) s ∧ Running s) ∧ s.env = es) ∧ s.rx.inited = true) pollBody
      fun _ => KicksMeet (· = kicksAfterSwaps es) := by
  rintro s ⟨hs, hi⟩
  unfold pollBody
  rw [Prog.bind_ok (requireInit_on (r := .rx) hi)]
  refine Prog.Triple.bind (swapTxKicks_triple _ es) (fun tx => ?_) s hs
  exact Prog.Triple.bind (swapRxKicks_triple _ _ _) fun rx => pollTail_kicks _ tx rx

/-- A POLL of a ring pair that is not initialised ends before its SWAPs (R620). -/
theorem pollBody_kicks_of_not_inited (K : Word × Word → Prop) :
    Prog.Triple (KicksMeet K) (fun s => KicksMeet K s ∧ s.rx.inited = false) pollBody fun _ => KicksMeet K := by
  unfold pollBody
  refine Prog.Triple.bind (Q := fun _ _ => False) ?_ fun _ _ hs => hs.elim
  rintro s ⟨hs, hi⟩
  unfold requireInit
  rw [Prog.bind_ok (getRing_apply .rx s), if_neg (by simp [State.ring, hi])]
  exact failWith_triple (calm_kicksMeet _ K) (fun _ ht => ht) s hs

/-- Settles O36: the counts with the pulses to come change at the SWAPs only, and a POLL reaches these when it is
accepted and its ring pair is initialised. -/
theorem noPulseIsLost : Obligations.NoPulseIsLost := by
  intro i s t hr h
  refine ⟨fun hno => ?_, fun hpoll ha hi => ?_⟩
  · have hs : KicksMeet (· = s.kicksToCome) s := ⟨hr, rfl⟩
    suffices hend : KicksMeet (· = s.kicksToCome) t from hend.2
    by_cases hpoll : i = .poll
    · subst hpoll
      by_cases ha : s.accepting = true
      · have hi : s.rx.inited = false := by simpa [ha] using hno
        have hrun : pollBody.outcome (s.accept (encode .poll)) = .next t := (issue_accepting ha).symm.trans h
        exact (pollBody_kicks_of_not_inited _).outcome (s := s.accept _) ⟨hs, hi⟩ hrun
      · have hdrop : Host.Outcome.next s.dropCommand = .next t :=
          (issue_of_not_accepting (by simpa using ha)).symm.trans h
        cases hdrop
        exact hs
    · exact (commands_kicksMeet _).exec_of_ne_poll hpoll hs h
  · subst hpoll
    have hrun : pollBody.outcome (s.accept (encode .poll)) = .next t := (issue_accepting ha).symm.trans h
    have hend := (pollBody_kicks s.env).outcome (s := s.accept _) ⟨⟨⟨⟨hr, trivial⟩, _, _, rfl⟩, rfl⟩, hi⟩ hrun
    exact hend.2

end Sys2Proof.Machine

/-! PROOFS. Writes of `ARG0` and `ARG1` beside a running command (spec/10_state.md R103, R303, R830): two runs of the
pseudocode side by side, one alone, one in which the local software writes both registers before the first step. -/

namespace Sys2Proof.Machine

/-- `ARG0` holds `v` and `ARG1` holds `u` (R303). -/
def State.withArgs (v u : Word) (s : State) : State := { s with arg0 := v, arg1 := u }

/-- The local software is about to write `v` to `ARG0` and `u` to `ARG1` (R303). -/
def State.withArgWrites (v u : Word) (s : State) : State :=
  { s with env := .act (.regWrite (s.cfg.blkBase + 4) 4 v) :: .act (.regWrite (s.cfg.blkBase + 8) 4 u) :: s.env }

theorem yield_withArgs {s : State} (v u : Word) (hq : s.quiet = true) :
    yield (s.withArgs v u) = .ok ((), s.withArgs v u) :=
  yield_quiet ((State.quiet_congr (s := s) rfl).trans hq)

/-- Both writes happen before the block's next step. -/
theorem yield_withArgWrites {s : State} (v u : Word) (hq : s.quiet = true) :
    yield (s.withArgWrites v u) = .ok ((), s.withArgs v u) := by
  have h4 := windowOffset_blkBase_add s.cfg (off := 4) (by decide) (by decide)
  have h8 := windowOffset_blkBase_add s.cfg (off := 8) (by decide) (by decide)
  rw [← yield_withArgs v u hq]
  simp [yield, State.withArgWrites, State.withArgs, runInputs, Move.apply, moveRegWrite, State.regStore, h4, h8]

/-- The answer beside the writes is the answer alone, but for the two registers. A run alone meets no fault or refusal
of the model, and the schedule still leaves it alone where it goes on. -/
def Echoes {α : Type} (v u : Word) : Except Stop (α × State) → Except Stop (α × State) → Prop
  | .ok (a, t), x => t.quiet = true ∧ x = .ok (a, t.withArgs v u)
  | .error (.halt t), x => x = .error (.halt (t.withArgs v u))
  | .error (.fault _), _ => False
  | .error (.refuse _), _ => False

/-- `p` does not look at the two registers. -/
def Deaf {α : Type} (v u : Word) (p : Prog α) : Prop :=
  ∀ s, s.quiet = true → Echoes v u (p s) (p (s.withArgs v u))

/-- `p` has a step before which the writes happen, and does what it does without them. -/
structure Undisturbed {α : Type} (v u : Word) (p : Prog α) : Prop where
  deaf : Deaf v u p
  writes : ∀ s, s.quiet = true → Echoes v u (p s) (p (s.withArgWrites v u))

/-- Before a program with a step, `p` makes no difference to the writes: it has a step itself, or leaves them
waiting. -/
structure Passes {α : Type} (v u : Word) (p : Prog α) : Prop where
  deaf : Deaf v u p
  bind : ∀ {β : Type} {f : α → Prog β}, (∀ a, Undisturbed v u (f a)) → Undisturbed v u (p >>= f)

variable {α β : Type} {v u : Word}

theorem Echoes.bind {p : Prog α} {f : α → Prog β} {s s' : State} (hp : Echoes v u (p s) (p s'))
    (hf : ∀ a, Deaf v u (f a)) : Echoes v u ((p >>= f) s) ((p >>= f) s') := by
  cases hps : p s with
  | ok x =>
    obtain ⟨a, t⟩ := x
    rw [hps] at hp
    rw [Prog.bind_ok hps, Prog.bind_ok hp.2]
    exact hf a t hp.1
  | error e =>
    rw [hps] at hp
    cases e with
    | halt t => rw [Prog.bind_error hps, Prog.bind_error hp]; rfl
    | fault _ => exact hp.elim
    | refuse _ => exact hp.elim

theorem Deaf.bind {p : Prog α} {f : α → Prog β} (hp : Deaf v u p) (hf : ∀ a, Deaf v u (f a)) :
    Deaf v u (p >>= f) :=
  fun s hq => (hp s hq).bind hf

theorem Undisturbed.bind {p : Prog α} {f : α → Prog β} (hp : Undisturbed v u p) (hf : ∀ a, Deaf v u (f a)) :
    Undisturbed v u (p >>= f) :=
  ⟨hp.deaf.bind hf, fun s hq => (hp.writes s hq).bind hf⟩

theorem Undisturbed.passes {p : Prog α} (hp : Undisturbed v u p) : Passes v u p :=
  ⟨hp.deaf, fun hf => hp.bind fun a => (hf a).deaf⟩

theorem Passes.seq {p : Prog α} {f : α → Prog β} (hp : Passes v u p) (hf : ∀ a, Passes v u (f a)) :
    Passes v u (p >>= f) where
  deaf := hp.deaf.bind fun a => (hf a).deaf
  bind hg := by
    rw [bind_assoc]
    exact hp.bind fun a => (hf a).bind hg

theorem Deaf.ite {c : Prop} [Decidable c] {p q : Prog α} (hp : Deaf v u p) (hq : Deaf v u q) :
    Deaf v u (if c then p else q) := by
  split
  · exact hp
  · exact hq

theorem Undisturbed.ite {c : Prop} [Decidable c] {p q : Prog α} (hp : Undisturbed v u p) (hq : Undisturbed v u q) :
    Undisturbed v u (if c then p else q) := by
  split
  · exact hp
  · exact hq

theorem Passes.ite {c : Prop} [Decidable c] {p q : Prog α} (hp : Passes v u p) (hq : Passes v u q) :
    Passes v u (if c then p else q) := by
  split
  · exact hp
  · exact hq

/-- A program without a schedule point, whose value and state do not depend on the registers. -/
theorem Deaf.of_ok {p : Prog α} (a : State → α) (f : State → State) (hp : ∀ s, p s = .ok (a s, f s))
    (ha : ∀ s, a (s.withArgs v u) = a s) (hf : ∀ s, f (s.withArgs v u) = (f s).withArgs v u)
    (he : ∀ s, (f s).env = s.env) : Deaf v u p := by
  intro s hq
  rw [hp s, hp (s.withArgs v u), ha, hf]
  exact ⟨by rw [State.quiet_congr (he s), hq], rfl⟩

/-- Such a program leaves the writes waiting. -/
theorem Passes.of_ok {p : Prog α} (a : State → α) (f : State → State) (hp : ∀ s, p s = .ok (a s, f s))
    (ha : ∀ s, a (s.withArgs v u) = a s) (hf : ∀ s, f (s.withArgs v u) = (f s).withArgs v u)
    (he : ∀ s, (f s).env = s.env) (ha' : ∀ s, a (s.withArgWrites v u) = a s)
    (hf' : ∀ s, f (s.withArgWrites v u) = (f s).withArgWrites v u) : Passes v u p := by
  have hdeaf : Deaf v u p := .of_ok a f hp ha hf he
  refine ⟨hdeaf, fun {_ g} hg => ⟨hdeaf.bind fun b => (hg b).deaf, fun s hq => ?_⟩⟩
  rw [Prog.bind_ok (hp s), Prog.bind_ok (hp (s.withArgWrites v u)), ha', hf']
  exact (hg (a s)).writes (f s) (by rw [State.quiet_congr (he s), hq])

/-- A program that only reads state, but not the two registers and the schedule. -/
theorem Passes.of_read {p : Prog α} (g : State → α) (hp : ∀ s, p s = .ok (g s, s))
    (hg : ∀ s a b es, g { s with arg0 := a, arg1 := b, env := es } = g s) : Passes v u p :=
  .of_ok g id hp (fun s => hg s v u s.env) (fun _ => rfl) (fun _ => rfl) (fun s => hg s s.arg0 s.arg1 _) fun _ => rfl

/-- The writes happen at a schedule point. -/
theorem Undisturbed.of_yield {q : Prog α} (hq : Deaf v u q) : Undisturbed v u (yield >>= fun _ => q) := by
  constructor
  · intro s hs
    rw [Prog.bind_ok (yield_quiet hs), Prog.bind_ok (yield_withArgs v u hs)]
    exact hq s hs
  · intro s hs
    rw [Prog.bind_ok (yield_quiet hs), Prog.bind_ok (yield_withArgWrites v u hs)]
    exact hq s hs

/-! The primitives of R12. -/

theorem pure_passes (a : α) : Passes v u (pure a) :=
  .of_read (fun _ => a) (fun _ => rfl) fun _ _ _ _ => rfl

theorem getRing_passes (r : RingId) : Passes v u (getRing r) :=
  .of_read (fun s => s.ring r) (fun _ => rfl) fun _ _ _ _ => by cases r <;> rfl

theorem getCfg_passes : Passes v u getCfg :=
  .of_read (fun s => s.cfg) (fun _ => rfl) fun _ _ _ _ => rfl

theorem getSlots_passes : Passes v u getSlots :=
  .of_read (fun s => s.slots) (fun _ => rfl) fun _ _ _ _ => rfl

theorem getStage_passes : Passes v u getStage :=
  .of_read (fun s => s.stage) (fun _ => rfl) fun _ _ _ _ => rfl

/-- R103: a command reads its operands from the latch. -/
theorem operand0_passes : Passes v u operand0 :=
  .of_read (fun s => s.seq.latched.arg0) (fun _ => rfl) fun _ _ _ _ => rfl

theorem operand1_passes : Passes v u operand1 :=
  .of_read (fun s => s.seq.latched.arg1) (fun _ => rfl) fun _ _ _ _ => rfl

theorem enterPhase_passes (p : Phase) : Passes v u (enterPhase p) :=
  .of_ok (fun _ => ()) (State.setPhase p) (fun _ => rfl) (fun _ => rfl) (fun _ => rfl) (fun _ => rfl) (fun _ => rfl)
    fun _ => rfl

theorem ghost_deaf {f : State → State} (hf : ∀ s, f (s.withArgs v u) = (f s).withArgs v u)
    (he : ∀ s, (f s).env = s.env) : Deaf v u (ghost f) :=
  .of_ok (fun _ => ()) f (fun _ => rfl) (fun _ => rfl) hf he

theorem hold_deaf : Deaf v u (hold : Prog α) := fun _ _ => rfl

theorem act_undisturbed {f : State → State} (hf : ∀ s, f (s.withArgs v u) = (f s).withArgs v u)
    (he : ∀ s, (f s).env = s.env) : Undisturbed v u (act f) :=
  .of_yield (.of_ok (fun _ => ()) f (fun _ => rfl) (fun _ => rfl) hf he)

theorem raiseFault_undisturbed (c : FaultCode) : Undisturbed v u (raiseFault c : Prog α) :=
  .of_yield fun _ _ => rfl

theorem failWith_undisturbed (c : ErrCode) : Undisturbed v u (failWith c : Prog α) :=
  .of_yield fun _ _ => rfl

theorem finish_undisturbed (res : Word) : Undisturbed v u (finish res) :=
  act_undisturbed (fun _ => rfl) fun _ => rfl

theorem emitEvent_undisturbed (e : Event) : Undisturbed v u (emitEvent e) :=
  act_undisturbed (fun _ => rfl) fun _ => rfl

theorem barrier_undisturbed : Undisturbed v u barrier := act_undisturbed (fun _ => rfl) fun _ => rfl

theorem memRead_undisturbed (a : Nat) (w : Width) : Undisturbed v u (memRead a w) := by
  refine .of_yield fun s hq => ?_
  rw [State.admits_congr (s := s) (t := s.withArgs v u) rfl]
  split
  · exact ⟨hq, rfl⟩
  · rfl

theorem memWrite_undisturbed (a : Nat) (w : Width) (x : Nat) : Undisturbed v u (memWrite a w x) := by
  refine .of_yield fun s hq => ?_
  rw [State.admits_congr (s := s) (t := s.withArgs v u) rfl]
  split
  · exact ⟨hq, rfl⟩
  · rfl

theorem readBytes_passes (a n : Nat) : Passes v u (readBytes a n) := by
  induction n generalizing a with
  | zero => exact pure_passes _
  | succ n ih => exact (memRead_undisturbed _ _).passes.seq fun _ => (ih _).seq fun _ => pure_passes _

theorem writeBytes_passes (a : Nat) (bs : List Byte) : Passes v u (writeBytes a bs) := by
  induction bs generalizing a with
  | nil => exact pure_passes _
  | cons b bs ih => exact (memWrite_undisturbed _ _ _).passes.seq fun _ => ih _

theorem readName_passes (a n : Nat) : Passes v u (readName a n) := by
  induction n generalizing a with
  | zero => exact pure_passes _
  | succ n ih =>
    refine (memRead_undisturbed _ _).passes.seq fun _ => .ite (pure_passes _) ?_
    exact (ih _).seq fun _ => pure_passes _

/-! The ring operations (R405, R406, R410). -/

theorem requireInit_passes (r : RingId) : Passes v u (requireInit r) :=
  (getRing_passes r).seq fun _ => .ite (pure_passes _) (failWith_undisturbed _).passes

theorem availHead_undisturbed (r : RingId) : Undisturbed v u (availHead r) := by
  refine (getRing_passes r).bind fun c => (memRead_undisturbed _ _).bind fun x => ?_
  exact Deaf.bind (ghost_deaf (fun _ => by cases r <;> rfl) fun _ => rfl) fun _ => (pure_passes _).deaf

theorem take_undisturbed (r : RingId) : Undisturbed v u (take r) := by
  refine (availHead_undisturbed r).bind fun a => (getRing_passes r).deaf.bind fun c => .ite (pure_passes _).deaf ?_
  refine getCfg_passes.deaf.bind fun cfg => (memRead_undisturbed _ _).deaf.bind fun d => ?_
  refine .ite (raiseFault_undisturbed _).deaf ?_
  refine (ghost_deaf (fun _ => by cases r <;> rfl) fun _ => by simp).bind fun _ => ?_
  exact (act_undisturbed (fun _ => by cases r <;> rfl) fun _ => by simp).deaf.bind fun _ => (pure_passes _).deaf

theorem publish_undisturbed (r : RingId) (d len : Nat) (kick : Bool) : Undisturbed v u (publish r d len kick) := by
  have hghost : Passes v u (ghost fun s => s.notePublishNotHeld (!(s.ring r).held.contains d)) :=
    .of_ok (fun _ => ()) _ (fun _ => rfl) (fun _ => rfl) (fun _ => by cases r <;> rfl) (fun _ => rfl) (fun _ => rfl)
      fun _ => by cases r <;> rfl
  refine hghost.bind fun _ => (getRing_passes r).bind fun c => getCfg_passes.bind fun cfg => ?_
  refine (memWrite_undisturbed _ _ _).bind fun _ => (memWrite_undisturbed _ _ _).deaf.bind fun _ => ?_
  refine barrier_undisturbed.deaf.bind fun _ => (memWrite_undisturbed _ _ _).deaf.bind fun _ => ?_
  refine (ghost_deaf (fun _ => by cases r <;> rfl) fun _ => by simp).bind fun _ => ?_
  refine (act_undisturbed (fun _ => by cases r <;> rfl) fun _ => by simp).deaf.bind fun _ => ?_
  refine barrier_undisturbed.deaf.bind fun _ => (emitEvent_undisturbed _).deaf.bind fun _ => ?_
  exact .ite (emitEvent_undisturbed _).deaf (pure_passes _).deaf

/-! The channel multiplexer (R510, R520, R530, R540, R541). -/

theorem fillBuffer_deaf (job : TxJob) (d : Nat) : Deaf v u (fillBuffer job d) := by
  refine (getRing_passes _).deaf.bind fun c => (memRead_undisturbed _ _).deaf.bind fun baddr => ?_
  refine (memRead_undisturbed _ _).deaf.bind fun cap => getStage_passes.deaf.bind fun bytes => ?_
  exact .ite (raiseFault_undisturbed _).deaf ((writeBytes_passes _ _).deaf.bind fun _ => (writeBytes_passes _ _).deaf)

theorem publishPacket_deaf (job : TxJob) (d : Nat) : Deaf v u (publishPacket job d) :=
  getStage_passes.deaf.bind fun _ => (publish_undisturbed _ _ _ _).deaf.bind fun _ => (finish_undisturbed _).deaf

theorem transmit_undisturbed (job : TxJob) : Undisturbed v u (transmit job) := by
  refine (enterPhase_passes _).bind fun _ => (take_undisturbed _).bind fun t => ?_
  cases t with
  | none => exact hold_deaf
  | some d =>
    refine (enterPhase_passes _).deaf.bind fun _ => (fillBuffer_deaf _ _).bind fun _ => ?_
    exact (enterPhase_passes _).deaf.bind fun _ => publishPacket_deaf _ _

theorem createChannel_undisturbed (i : Nat) : Undisturbed v u (createChannel i) := by
  have haddr : Passes v u (fun s => .ok (s.nextAddr, s)) :=
    .of_read (fun s => s.nextAddr) (fun _ => rfl) fun _ _ _ _ => rfl
  refine operand0_passes.bind fun na => (readName_passes _ _).bind fun bs => haddr.bind fun addr => ?_
  refine getCfg_passes.bind fun cfg => ?_
  refine Undisturbed.bind (act_undisturbed (fun _ => rfl) fun _ => rfl) fun _ => ?_
  refine Deaf.bind (Undisturbed.deaf (act_undisturbed (fun _ => rfl) fun _ => rfl)) fun _ => ?_
  exact (transmit_undisturbed _).deaf

theorem chCreateBody_undisturbed : Undisturbed v u chCreateBody := by
  refine (requireInit_passes _).bind fun _ => getSlots_passes.bind fun slots => ?_
  split
  · exact failWith_undisturbed _
  · exact createChannel_undisturbed _

theorem markTrunc_passes (n : Nat) : Passes v u (markTrunc n) :=
  .ite (Undisturbed.passes (act_undisturbed (fun _ => rfl) fun _ => rfl)) (pure_passes _)

theorem sendOn_undisturbed (slot : Slot) : Undisturbed v u (sendOn slot) := by
  refine (requireInit_passes _).bind fun _ => operand0_passes.bind fun pa => operand1_passes.bind fun n => ?_
  refine (markTrunc_passes _).bind fun _ => (readBytes_passes _ _).bind fun bytes => ?_
  exact Undisturbed.bind (act_undisturbed (fun _ => rfl) fun _ => rfl) fun _ => (transmit_undisturbed _).deaf

theorem chSendBody_undisturbed (idx : Nat) : Undisturbed v u (chSendBody idx) := by
  refine getCfg_passes.bind fun cfg => getSlots_passes.bind fun slots => ?_
  split
  · exact finish_undisturbed _
  · exact sendOn_undisturbed _

theorem dropPacket_deaf : Deaf v u dropPacket :=
  Undisturbed.deaf (act_undisturbed (fun _ => rfl) fun _ => rfl)

theorem deliver_withArgs (i : Nat) (src dst : Word) (payload : List Byte) (s : State) :
    deliver i src dst payload (s.withArgs v u) = (deliver i src dst payload s).withArgs v u := by
  unfold deliver
  rw [show (s.withArgs v u).slots = s.slots from rfl]
  split <;> rfl

theorem deliver_env (i : Nat) (src dst : Word) (payload : List Byte) (s : State) :
    (deliver i src dst payload s).env = s.env := by
  unfold deliver
  split <;> rfl

theorem dispatch_deaf (src dst : Word) (pa plen : Nat) : Deaf v u (dispatch src dst pa plen) := by
  refine getSlots_passes.deaf.bind fun slots => ?_
  split
  · exact dropPacket_deaf
  · refine (readBytes_passes _ _).deaf.bind fun _ => ?_
    exact (act_undisturbed (deliver_withArgs _ _ _ _) (deliver_env _ _ _ _)).deaf

theorem inspectPacket_deaf (ba dl : Nat) : Deaf v u (inspectPacket ba dl) :=
  .ite dropPacket_deaf ((readBytes_passes _ _).deaf.bind fun _ => .ite dropPacket_deaf (dispatch_deaf _ _ _ _))

theorem receive_deaf (d : Nat) : Deaf v u (receive d) := by
  refine (getRing_passes _).deaf.bind fun c => (memRead_undisturbed _ _).deaf.bind fun ba => ?_
  refine (memRead_undisturbed _ _).deaf.bind fun dl => (inspectPacket_deaf _ _).bind fun _ => ?_
  exact getCfg_passes.deaf.bind fun cfg => (publish_undisturbed _ _ _ _).deaf

/-! POLL (R620, R630). -/

theorem drain_deaf (k : Nat) : Deaf v u (drain k) := by
  induction k with
  | zero => exact hold_deaf
  | succ k ih =>
    refine (take_undisturbed _).deaf.bind fun t => ?_
    cases t with
    | none => exact (pure_passes _).deaf
    | some d => exact (receive_deaf _).bind fun _ => ih

theorem drainAndFinish_deaf : Deaf v u drainAndFinish :=
  (enterPhase_passes _).deaf.bind fun _ => (drain_deaf _).bind fun _ => (finish_undisturbed _).deaf

theorem pollBody_undisturbed : Undisturbed v u pollBody := by
  have htx : Undisturbed v u swapTxKicks :=
    .of_yield (.of_ok (fun s => s.txKickCnt) (fun s => { s with txKickCnt := 0 }) (fun _ => rfl) (fun _ => rfl)
      (fun _ => rfl) fun _ => rfl)
  have hrx : Undisturbed v u swapRxKicks :=
    .of_yield (.of_ok (fun s => s.rxKickCnt) (fun s => { s with rxKickCnt := 0 }) (fun _ => rfl) (fun _ => rfl)
      (fun _ => rfl) fun _ => rfl)
  refine (requireInit_passes _).bind fun _ => htx.bind fun tx => hrx.deaf.bind fun rx => ?_
  refine Deaf.bind (.ite (emitEvent_undisturbed _).deaf (pure_passes _).deaf) fun _ => ?_
  exact .ite drainAndFinish_deaf (finish_undisturbed _).deaf

/-! The ring commands (R400 to R404). -/

theorem ringInitBody_undisturbed (r : RingId) : Undisturbed v u (ringInitBody r) := by
  refine operand0_passes.bind fun base => getCfg_passes.bind fun cfg => ?_
  refine .ite (failWith_undisturbed _) (.ite (failWith_undisturbed _) ?_)
  exact (act_undisturbed (fun _ => by cases r <;> rfl) fun _ => by simp).bind fun _ => (finish_undisturbed _).deaf

theorem ringTryTakeBody_undisturbed (r : RingId) : Undisturbed v u (ringTryTakeBody r) :=
  (requireInit_passes r).bind fun _ => (take_undisturbed r).bind fun _ => (finish_undisturbed _).deaf

theorem ringHasIncomingBody_undisturbed (r : RingId) : Undisturbed v u (ringHasIncomingBody r) :=
  (requireInit_passes r).bind fun _ => (availHead_undisturbed r).bind fun _ =>
    (getRing_passes r).deaf.bind fun _ => (finish_undisturbed _).deaf

theorem ringPublishBody_undisturbed (r : RingId) (kick : Bool) (idx : Nat) :
    Undisturbed v u (ringPublishBody r kick idx) := by
  refine (requireInit_passes r).bind fun _ => getCfg_passes.bind fun cfg => .ite (failWith_undisturbed _) ?_
  exact operand0_passes.bind fun len => (publish_undisturbed _ _ _ _).bind fun _ => (finish_undisturbed _).deaf

/-- An accepted command beside the writes: it latches its operands before they happen (R103, R105). -/
theorem issue_undisturbed {w : Word} {body : Prog Unit} {s : State} (hb : Undisturbed v u body) (h : s.ready = true) :
    ∃ t, issue w body s = .next t ∧ issue w body (s.withArgWrites v u) = .next (t.withArgs v u) := by
  have hacc := State.ready_accepting h
  rw [issue_accepting hacc, issue_accepting (s := s.withArgWrites v u) hacc]
  have hecho : Echoes v u (body (s.accept w)) (body ((s.withArgWrites v u).accept w)) :=
    hb.writes (s.accept w) (State.accept_quiet w (State.ready_quiet h))
  cases hrun : body (s.accept w) with
  | ok x =>
    obtain ⟨_, t⟩ := x
    rw [hrun] at hecho
    exact ⟨t, Prog.outcome_ok hrun, Prog.outcome_ok hecho.2⟩
  | error e =>
    rw [hrun] at hecho
    cases e with
    | halt t => exact ⟨t, Prog.outcome_halt hrun, Prog.outcome_halt hecho⟩
    | fault _ => exact hecho.elim
    | refuse _ => exact hecho.elim

theorem exec_undisturbed (i : Instr) {s : State} (h : s.ready = true) :
    ∃ t, exec i s = .next t ∧ exec i (s.withArgWrites v u) = .next (t.withArgs v u) := by
  cases i with
  | ringInit r => exact issue_undisturbed (ringInitBody_undisturbed r) h
  | ringTryTake r => exact issue_undisturbed (ringTryTakeBody_undisturbed r) h
  | ringHasIncoming r => exact issue_undisturbed (ringHasIncomingBody_undisturbed r) h
  | ringPublish r kick idx => exact issue_undisturbed (ringPublishBody_undisturbed r kick idx) h
  | chCreate => exact issue_undisturbed chCreateBody_undisturbed h
  | chSend idx => exact issue_undisturbed (chSendBody_undisturbed idx) h
  | poll => exact issue_undisturbed pollBody_undisturbed h

/-- Settles O18: every command has a step, the writes happen before its first one, and no step of it looks at the two
registers. -/
theorem operandsAreLatched : Obligations.OperandsAreLatched := by
  intro i s v u rest he hready
  have hs : State.withArgWrites v u { s with env := rest } = s := by
    unfold State.withArgWrites
    rw [← he]
  obtain ⟨t, halone, hbeside⟩ := exec_undisturbed (v := v) (u := u) i hready
  rw [hs] at hbeside
  exact ⟨t, halone, hbeside⟩

end Sys2Proof.Machine

/-! PROOFS. The reset state (spec/10_state.md R190) and the invariants it meets (R133). -/

namespace Sys2Proof.Machine

theorem RingCtx.off_laidOut (size : Nat) : RingCtx.off.laidOut size := by
  simp [RingCtx.laidOut, RingCtx.off]

theorem State.ringsLaidOut_resetWith (c : Config) : (State.resetWith c).ringsLaidOut :=
  ⟨RingCtx.off_laidOut c.n, RingCtx.off_laidOut c.n⟩

theorem State.phaseOk_resetWith (c : Config) : (State.resetWith c).phaseOk :=
  ⟨fun _ _ h => (by cases h), fun _ h => (by cases h)⟩

theorem State.sequencerRests_resetWith (c : Config) : (State.resetWith c).sequencerRests :=
  State.sequencerRests_of_faultFree ⟨rfl, rfl⟩ (.inl rfl)

/-- Settles O50: each invariant holds of the reset values. -/
theorem resetStateMeetsInvariants : Obligations.ResetStateMeetsInvariants := fun c _ =>
  ⟨State.channelTable_resetWith c, State.ringsLaidOut_resetWith c, State.phaseOk_resetWith c, ⟨rfl, rfl⟩,
    State.sizesOk_resetWith c, State.sequencerRests_resetWith c⟩

/-- R800: the step of a scheduled reset. -/
theorem step_of_reset {s : State} {rest : List Input} (hv : s.cfg.valid = true) (he : s.env = .act .reset :: rest) :
    step s = .next (State.blockReset { s with env := rest }) := by
  unfold step stepWith
  rw [if_pos hv, he]
  rfl

/-- Settles O9: the reset values field by field, and the step of a reset, which leaves memory alone. -/
theorem resetValues : Obligations.ResetValues := by
  constructor
  · intro c t
    have hring : ∀ r, t.ring r = .off := fun r => by cases r <;> rfl
    have hslot : ∀ slot, slot ∈ t.slots → slot = .free := fun _ h => List.eq_of_mem_replicate h
    refine ⟨rfl, rfl, rfl, rfl, rfl, rfl, fun r => ?_, rfl, rfl, rfl, List.length_replicate, fun slot h => ?_,
      rfl, rfl, rfl, rfl⟩
    · rw [hring r]
      exact ⟨rfl, rfl, rfl, rfl, rfl, rfl, rfl, rfl⟩
    · rw [hslot slot h]
      exact ⟨rfl, rfl, rfl, rfl⟩
  · intro s rest hv he
    exact ⟨_, step_of_reset hv he, rfl⟩

end Sys2Proof.Machine

/-! PROOFS. Memory and the ring layout over every step (spec/20_memory.md R200, R210, R221;
spec/40_ring_engine.md R401), each by `Whole.step`: memory changes at admitted stores only, a layout at
RING_INIT and reset only. -/

namespace Sys2Proof.Machine

/-! Canonical memory within the address space (R12, R200). -/

theorem State.memoryOk_congr {s t : State} (hm : t.mem = s.mem) (h : s.memoryOk) : t.memoryOk := by
  unfold State.memoryOk at *
  rw [hm]
  exact h

/-- An access that is performed ends within the address space (R12). -/
theorem State.end_le_of_admits {s : State} {a n : Nat} (h : s.admits a n = true) : a + n ≤ addrSpace := by
  simp only [State.admits, Bool.and_eq_true, decide_eq_true_eq] at h
  exact h.2

theorem State.memoryOk_storeBy {s : State} (who : Agent) {a : Nat} {w : Width} (v : Nat) (h : s.memoryOk)
    (ha : s.admits a w.bytes = true) : (s.storeBy who a w v).memoryOk :=
  ⟨Memory.wf_writeLE _ _ _ h.1, Memory.inSpace_writeLE _ h.2 (State.end_le_of_admits ha)⟩

/-- The one move that reaches memory is a store of the peer or the local core (R225). -/
theorem Move.apply_memoryOk {m : Move} {s t : State} (ha : m.apply s = .ok t) (h : s.memoryOk) : t.memoryOk := by
  obtain ⟨_, _, rfl⟩ | ⟨_, rfl⟩ | ⟨who, _, _, v, _, _, _, _, hb, rfl⟩ | ⟨_, _, _, _, _, rfl⟩ | ⟨r, _, rfl⟩ | rfl
    | rfl := Move.apply_cases ha
  · refine State.memoryOk_congr ?_ h
    unfold State.regStore
    split_ifs <;> rfl
  · exact h
  · exact State.memoryOk_storeBy who v h hb
  · exact h
  · exact State.memoryOk_congr (State.setPeer_mem _ r _) h
  · exact h
  · exact h

theorem calm_memoryOk : Calm State.memoryOk State.memoryOk where
  mark _ _ _ hs := hs
  move _ _ _ _ _ hs ha := Move.apply_memoryOk ha hs
  reset _ _ _ hs := hs

theorem commands_memoryOk : Commands (fun _ _ => True) State.memoryOk State.memoryOk := by
  constructor
  case calm => exact calm_memoryOk
  case store => exact fun _ _ _ v hs hb => State.memoryOk_storeBy .block v hs hb
  case deliver =>
    intro s i src dst payload slot hs hslot _ _
    rw [deliver_of_slot hslot]
    exact hs
  case onCongr => exact fun _ _ _ _ _ => trivial
  case onInited => exact fun _ _ _ => trivial
  case holdTx => exact fun _ _ _ hs _ => hs
  case holdRx => exact fun _ _ hs _ => hs
  -- Every other change leaves memory alone.
  all_goals
    intros
    refine State.memoryOk_congr ?_ ‹State.memoryOk _›
    simp

theorem whole_memoryOk : Whole (fun _ _ => True) State.memoryOk State.memoryOk where
  toCommands := commands_memoryOk
  swapTx _ hs := hs
  swapRx _ hs := hs
  resume _ hs _ _ := hs
  resumeTx _ _ _ _ _ := trivial
  resumeRx _ _ _ _ := trivial
  mark _ _ _ hs _ _ := hs
  command _ _ _ _ hs _ _ := hs
  move _ _ _ _ hs _ ha := Move.apply_memoryOk ha hs
  reset _ _ hs _ := hs

/-- Settles O53: every store of the block, the peer and the local core is an admitted access, which keeps memory
canonical and ends within the address space. -/
theorem memoryKept : Obligations.MemoryKept := fun _ _ hs h => whole_memoryOk.step hs h

/-! The layout of the ring pairs in use (R210, R400, R401) and the phases that need one (R530, R630). -/

/-- The positions and the held set of a ring pair in use are no part of its layout. -/
theorem RingCtx.laidOut_of_inited {c : RingCtx} {size : Nat} (la uh : Half) (held : List Nat) (h : c.laidOut size)
    (hi : c.inited = true) : { c with lastAvail := la, usedHead := uh, held := held : RingCtx }.laidOut size := by
  unfold RingCtx.laidOut at *
  rw [if_pos hi] at *
  exact h

/-- The ring pairs' layout and the phase condition it is kept with. -/
def State.layoutOk (s : State) : Prop := s.ringsLaidOut ∧ s.phaseOk

theorem State.layoutOk_congr {s t : State} (hcfg : t.cfg = s.cfg) (hrx : t.rx = s.rx) (htx : t.tx = s.tx)
    (hseq : t.seq = s.seq) (h : s.layoutOk) : t.layoutOk := by
  unfold State.layoutOk State.ringsLaidOut State.phaseOk at *
  rw [hcfg, hrx, htx, hseq]
  exact h

theorem State.laidOut_ring {s : State} (h : s.layoutOk) (r : RingId) : (s.ring r).laidOut s.cfg.n := by
  cases r
  exacts [h.1.1, h.1.2]

/-- A ring context laid out and in use may take the place of any. -/
theorem State.layoutOk_setRing {s : State} {r : RingId} {c : RingCtx} (h : s.layoutOk) (hc : c.laidOut s.cfg.n)
    (hi : c.inited = true) : (s.setRing r c).layoutOk := by
  obtain ⟨⟨hrx, htx⟩, hwait, hdrain⟩ := h
  cases r with
  | rx => exact ⟨⟨hc, htx⟩, hwait, fun _ _ => hi⟩
  | tx => exact ⟨⟨hrx, hc⟩, fun _ _ _ => hi, hdrain⟩

/-- What a command changes in the context of a ring pair in use leaves its layout. -/
theorem State.layoutOk_setRing_same {s : State} {r : RingId} (la uh : Half) (held : List Nat) (h : s.layoutOk)
    (hi : Inited r s) :
    (s.setRing r { s.ring r with lastAvail := la, usedHead := uh, held := held }).layoutOk :=
  State.layoutOk_setRing h (RingCtx.laidOut_of_inited la uh held (State.laidOut_ring h r) hi) hi

/-- A sequencer in neither of the two phases asks for no ring pair. -/
theorem State.phaseOk_of_seq {s : State} (htx : ∀ cmd job, s.seq ≠ .run cmd (.waitBuf job))
    (hrx : ∀ cmd, s.seq ≠ .run cmd .drain) : s.phaseOk :=
  ⟨fun cmd job h => absurd h (htx cmd job), fun cmd h => absurd h (hrx cmd)⟩

/-- `USED_ADDR` is the first page at or after the end of the avail ring (R210). -/
theorem layoutUsed_facts (size base : Nat) :
    layoutUsed size base % 4096 = 0 ∧ base + 18 * size + 6 ≤ layoutUsed size base
      ∧ layoutUsed size base < base + 18 * size + 6 + 4096 := by
  unfold layoutUsed alignUp page
  omega

/-- R400: what RING_INIT assigns, once its checks passed, is the layout of R210. `REGION_LEN` cannot be 2^32, since the
used ring starts on a page and its size is no multiple of 8. -/
theorem initRing_laidOut {size : Nat} {base : Word} (hal : base.toNat % 16 = 0)
    (hfit : base.toNat + layoutLen size base.toNat ≤ addrSpace) :
    RingCtx.laidOut
      { inited := true
        descAddr := base
        availAddr := BitVec.ofNat 32 (layoutAvail size base.toNat)
        usedAddr := BitVec.ofNat 32 (layoutUsed size base.toNat)
        regionLen := BitVec.ofNat 32 (layoutLen size base.toNat)
        lastAvail := 0
        usedHead := 0
        held := [] } size := by
  obtain ⟨hpage, hlo, hhi⟩ := layoutUsed_facts size base.toNat
  unfold RingCtx.laidOut
  rw [if_pos rfl]
  simp only [layoutLen, layoutAvail, addrSpace, BitVec.toNat_ofNat] at *
  generalize layoutUsed size base.toNat = used at *
  have havail : (base.toNat + 16 * size) % 2 ^ 32 = base.toNat + 16 * size := Nat.mod_eq_of_lt (by omega)
  have hused : used % 2 ^ 32 = used := Nat.mod_eq_of_lt (by omega)
  have hlen : (used - base.toNat + 4 + 8 * size) % 2 ^ 32 = used - base.toNat + 4 + 8 * size :=
    Nat.mod_eq_of_lt (by omega)
  rw [havail, hused, hlen]
  omega

theorem State.layoutOk_initRing {s : State} (r : RingId) {base : Word} (h : s.layoutOk) (hal : base.toNat % 16 = 0)
    (hfit : base.toNat + layoutLen s.cfg.n base.toNat ≤ addrSpace) : (initRing r base s).layoutOk := by
  refine State.layoutOk_congr ?_ ?_ ?_ ?_ (State.layoutOk_setRing (r := r) h (initRing_laidOut hal hfit) rfl) <;>
    cases r <;> rfl

theorem State.layoutOk_blockReset (s : State) : s.blockReset.layoutOk :=
  State.layoutOk_congr rfl rfl rfl rfl ⟨State.ringsLaidOut_resetWith s.cfg, State.phaseOk_resetWith s.cfg⟩

theorem State.layoutOk_setPhase {s : State} {p : Phase} (h : s.layoutOk) (hrun : Running s)
    (htx : ∀ job, p = .waitBuf job → Inited .tx s) (hrx : p = .drain → Inited .rx s) : (s.setPhase p).layoutOk := by
  obtain ⟨cmd, q, hseq⟩ := hrun
  have hphase : (s.setPhase p).seq = .run cmd p := by simp [hseq, Seq.withPhase]
  refine ⟨h.1, fun c job hc => htx job ?_, fun c hc => hrx ?_⟩ <;> rw [hphase] at hc <;> cases hc <;> rfl

theorem Move.apply_layoutOk {m : Move} {s t : State} (ha : m.apply s = .ok t) (h : s.layoutOk) : t.layoutOk :=
  have hb := Move.apply_sameBlock ha
  State.layoutOk_congr hb.cfg hb.rx hb.tx hb.seq h

theorem calm_layoutOk : Calm State.layoutOk State.layoutOk where
  mark _ _ _ hs := hs
  move _ _ _ _ _ hs ha := Move.apply_layoutOk ha hs
  reset _ _ _ _ := State.layoutOk_blockReset _

theorem commands_layoutOk : Commands Inited State.layoutOk State.layoutOk := by
  constructor
  case calm => exact calm_layoutOk
  case doubleOffer => exact fun s r _ hs hi _ => State.layoutOk_setRing_same (s := s.noteDoubleOffer _) _ _ _ hs hi
  case lastAvail => exact fun _ _ hs hi => State.layoutOk_setRing_same _ _ _ hs hi
  case release => exact fun _ _ _ hs hi => State.layoutOk_setRing_same _ _ _ hs hi
  case usedHead => exact fun _ _ hs hi => State.layoutOk_setRing_same _ _ _ hs hi
  case init => exact fun _ r _ hs hal hfit => State.layoutOk_initRing r hs hal hfit
  case phase => exact fun _ _ hs hrun htx hrx => State.layoutOk_setPhase hs hrun htx hrx
  case complete => exact fun _ _ _ hs => ⟨hs.1, State.phaseOk_of_seq (by simp) (by simp)⟩
  case accept => exact fun _ _ hs _ => ⟨hs.1, State.phaseOk_of_seq (by simp) (by simp)⟩
  case deliver =>
    intro s i src dst payload slot hs hslot _ _
    rw [deliver_of_slot hslot]
    exact hs
  case onCongr => exact fun r _ _ hst hi => (hst r).trans hi
  case onInited => exact fun _ _ hi => hi
  case holdTx => exact fun _ _ _ hs _ => hs
  case holdRx => exact fun _ _ hs _ => hs
  -- Every other change leaves the ring contexts and the sequencer alone.
  all_goals
    intros
    refine State.layoutOk_congr ?_ ?_ ?_ ?_ ‹State.layoutOk _› <;> simp

theorem whole_layoutOk : Whole Inited State.layoutOk State.layoutOk where
  toCommands := commands_layoutOk
  swapTx _ hs := hs
  swapRx _ hs := hs
  resume _ hs _ _ := hs
  resumeTx _ cmd job hs hseq := hs.2.1 cmd job hseq
  resumeRx _ cmd hs hseq := hs.2.2 cmd hseq
  mark _ _ _ hs _ _ := hs
  command _ _ _ _ hs _ _ := hs
  move _ _ _ _ hs _ ha := Move.apply_layoutOk ha hs
  reset _ _ _ _ := State.layoutOk_blockReset _

/-- Settles O52: only RING_INIT and reset set a layout, and a command changes the positions of a ring pair in use only;
a held or draining command has its ring pair in use. -/
theorem ringLayoutKept : Obligations.RingLayoutKept := fun _ _ hl hp h => whole_layoutOk.step ⟨hl, hp⟩ h

end Sys2Proof.Machine

/-! PROOFS. The peer's moves one by one (spec/20_memory.md R223 to R236): a write is performed where every ring pair in
use lets it, is no move where one does not (R721; log 4), and is refused at a width that no field has. -/

namespace Sys2Proof.Machine

/-! One-byte accesses and the used ring. -/

/-- No field of a ring pair is one byte wide (R211 to R213). -/
theorem zoneOf_byte_mixed {c : RingCtx} {size a : Nat} (h : c.laidOut size) (hi : c.inited = true)
    (ha : (c.descAddr.toNat ≤ a ∧ a < c.availAddr.toNat + 6 + 2 * size)
      ∨ (c.usedAddr.toNat ≤ a ∧ a < c.usedAddr.toNat + 4 + 8 * size)) : zoneOf c size a 1 = .mixed := by
  obtain ⟨_, havail, _, hused, _⟩ := RingCtx.laidOut_facts h hi
  have hdesc : ∀ off, descField off 1 = false := fun _ => by simp [descField]
  have hufield : ∀ off, usedField off 1 = false := fun _ => by simp [usedField]
  simp only [zoneOf, hdesc, hufield, Bool.false_eq_true, if_false]
  rw [if_neg (by omega)]
  by_cases h1 : a < c.availAddr.toNat
  · rw [if_pos (by omega)]
  by_cases h2 : a < c.usedAddr.toNat
  · rw [if_neg (by omega), if_pos (by omega), if_neg (by omega)]
  · rw [if_neg (by omega), if_neg (by omega), if_neg (by omega), if_pos (by omega)]

/-- An access that meets the used ring is an access of a whole field of it, or no access of a field. -/
theorem zoneOf_used_cases {c : RingCtx} {size a n : Nat} (h : c.laidOut size) (hi : c.inited = true)
    (ha : a < c.usedAddr.toNat + 4 + 8 * size) (hn : c.usedAddr.toNat < a + n) :
    zoneOf c size a n = .used ∨ zoneOf c size a n = .mixed := by
  obtain ⟨_, havail, _, hused, _⟩ := RingCtx.laidOut_facts h hi
  simp only [zoneOf]
  rw [if_neg (by omega), if_neg (by omega), if_neg (by omega), if_neg (by omega)]
  split_ifs <;> simp

theorem zoneOf_usedIdx {c : RingCtx} {size : Nat} (h : c.laidOut size) (hi : c.inited = true) :
    zoneOf c size c.usedIdxAddr 2 = .used := by
  obtain ⟨_, havail, _, hused, _⟩ := RingCtx.laidOut_facts h hi
  have hoff : c.usedIdxAddr - c.usedAddr.toNat = 2 := Nat.add_sub_cancel_left _ _
  have hfield : usedField 2 2 = true := by decide
  simp only [zoneOf, hoff, hfield, if_true]
  unfold RingCtx.usedIdxAddr
  rw [if_neg (by omega), if_neg (by omega), if_neg (by omega), if_neg (by omega), if_pos (by omega)]

/-- R230: the used ring of a ring pair in use is not the peer's to write. -/
theorem State.peerMayWrite_used {s : State} {r : RingId} {a n : Nat} (v : Word) (hi : (s.ring r).inited = true)
    (hl : (s.ring r).laidOut s.cfg.n) (ha : a < (s.ring r).usedAddr.toNat + 4 + 8 * s.cfg.n)
    (hn : (s.ring r).usedAddr.toNat < a + n) : s.peerMayWrite r a n v = false := by
  rw [← Bool.not_eq_true, State.peerMayWrite_iff]
  intro hmay
  obtain ⟨hzone, _⟩ := hmay hi
  rcases zoneOf_used_cases hl hi ha hn with hz | hz <;> rw [hz] at hzone <;> cases hzone

/-! The steps of a peer write, ring pair by ring pair. -/

theorem RingId.eq_or_eq_otherRing (r q : RingId) : q = r ∨ q = otherRing r := by
  cases r <;> cases q <;> decide

/-- What holds of a ring pair and of the other holds of both. -/
theorem forall_ring_of {p : RingId → Prop} (r : RingId) (h : p r) (h' : p (otherRing r)) (q : RingId) : p q := by
  rcases RingId.eq_or_eq_otherRing r q with rfl | rfl
  exacts [h, h']

/-- An aligned, backed peer write that both ring pairs let is performed (R225). -/
theorem step_peerWrite_of_may {s : State} {a : Nat} {w : Width} {v : Word} {rest : List Input}
    (hv : s.cfg.valid = true) (he : s.env = .act (.peerWrite a w v) :: rest) (hal : a % w.bytes = 0)
    (hb : s.admits a w.bytes = true) (hmix : ∀ r, s.mixedAccess r a w.bytes = false)
    (hmay : ∀ r, s.peerMayWrite r a w.bytes v = true) :
    step s = .next (State.afterPeerWrite { s with env := rest } a w v) := by
  rw [step_peerWrite hv he hal hb hmix, hmay .rx, hmay .tx]
  rfl

/-- One that a ring pair does not let is no move (R721; log 4). -/
theorem step_peerWrite_of_may_not {s : State} {r : RingId} {a : Nat} {w : Width} {v : Word} {rest : List Input}
    (hv : s.cfg.valid = true) (he : s.env = .act (.peerWrite a w v) :: rest) (hal : a % w.bytes = 0)
    (hb : s.admits a w.bytes = true) (hmix : ∀ r, s.mixedAccess r a w.bytes = false)
    (hmay : s.peerMayWrite r a w.bytes v = false) : step s = .next { s with env := rest } := by
  rw [step_peerWrite hv he hal hb hmix]
  cases r <;> simp [hmay]

/-- A performed peer write that a ring pair does not claim offers nothing on it. -/
theorem State.afterPeerWrite_peer_unclaimed {s : State} {r : RingId} {a : Nat} {w : Width} (v : Word)
    (h : s.unclaimed r a w.bytes) : (s.afterPeerWrite a w v).peer r = s.peer r := by
  rw [State.afterPeerWrite_peer, State.slotsOffered_unclaimed h, List.map_nil, PeerRing.lend_nil]

/-- Settles O44: memory that no ring pair claims lies outside every zone and buffer, so both ring pairs let the write,
and it offers nothing. -/
theorem peerWriteHappens : Obligations.PeerWriteHappens := by
  intro s a w v rest hv he hal hb hrx htx
  have hun : ∀ r, s.unclaimed r a w.bytes := forall_ring_of .rx hrx htx
  exact ⟨_, step_peerWrite_of_may hv he hal hb (fun r => State.mixedAccess_unclaimed (hun r))
      fun r => State.peerMayWrite_unclaimed (hun r),
    s.wrote_afterPeerWrite rest a w v,
    State.afterPeerWrite_peer_unclaimed (s := { s with env := rest }) (r := .rx) v hrx,
    State.afterPeerWrite_peer_unclaimed (s := { s with env := rest }) (r := .tx) v htx⟩

/-- Settles O46: an access that meets the used ring is of a zone that no peer write may have, and one of `used.idx` is
no refused access. -/
theorem peerCannotWriteUsedRing : Obligations.PeerCannotWriteUsedRing := by
  intro s r a w v rest he hi hl ha hn
  have hmay := State.peerMayWrite_used v hi hl ha hn
  constructor
  · intro t h
    obtain ⟨_, ⟨hall, _⟩ | ht⟩ := step_peerWrite_inv he h
    · rw [hall r] at hmay
      cases hmay
    · exact ht
  · rintro hv rfl rfl hb hun
    obtain ⟨_, _, hpage, _, _⟩ := RingCtx.laidOut_facts hl hi
    have hal : (s.ring r).usedIdxAddr % 2 = 0 := by
      unfold RingCtx.usedIdxAddr
      omega
    refine step_peerWrite_of_may_not hv he hal hb (forall_ring_of r ?_ (State.mixedAccess_unclaimed hun)) hmay
    exact State.mixedAccess_eq_false.mpr fun _ hz => by cases (zoneOf_usedIdx hl hi).symm.trans hz

/-- The step of a peer access that has no meaning (R223). -/
theorem step_peerAccess_mixed {s : State} {r : RingId} {a : Nat} {w : Width} {rest : List Input}
    (hv : s.cfg.valid = true) (hal : a % w.bytes = 0) (hb : s.admits a w.bytes = true)
    (hm : s.mixedAccess r a w.bytes = true) :
    (s.env = .act (.peerRead a w) :: rest → step s = .refused .mixedWidth)
      ∧ ∀ v, s.env = .act (.peerWrite a w v) :: rest → step s = .refused .mixedWidth := by
  have hacc : peerAccess a w { s with env := rest } = .error (.refuse .mixedWidth) :=
    peerAccess_mixed hal hb ((s.mixedAccess_env rest r a _).trans hm)
  refine ⟨fun he => ?_, fun v he => ?_⟩
  · rw [step_move hv he rfl]
    simp only [moveOutcome, Move.apply, movePeerRead, hacc]
  · rw [step_move hv he rfl]
    simp only [moveOutcome, Move.apply, movePeerWrite, hacc]

/-- Settles O47: no field of a ring pair is one byte wide. -/
theorem peerByteAccessToRingRefused : Obligations.PeerByteAccessToRingRefused := by
  intro s r a v rest hv hi hl hb ha
  have hmix : s.mixedAccess r a 1 = true := by
    rw [State.mixedAccess, hi, zoneOf_byte_mixed hl hi ha]
    rfl
  obtain ⟨hread, hwrite⟩ := step_peerAccess_mixed (w := .b1) (rest := rest) hv (Nat.mod_one a) hb hmix
  exact ⟨hread, hwrite v⟩

/-! What a performed peer write does not reach (R235, R413). -/

/-- A write that ring pair `r` in use lets reaches no byte of a buffer that is not the peer's. -/
theorem State.peerMayWrite_buffer {s : State} {r : RingId} {a n d b : Nat} {v : Word} (hi : (s.ring r).inited = true)
    (h : s.peerMayWrite r a n v = true) (hd : d ∈ s.notPeers r) (hdn : d < s.cfg.n)
    (h1 : s.mem.readLE ((s.ring r).descEntryAddr d) 4 ≤ b)
    (h2 : b < s.mem.readLE ((s.ring r).descEntryAddr d) 4 + s.mem.readLE ((s.ring r).descEntryAddr d + 8) 4) :
    b < a ∨ a + n ≤ b := by
  obtain ⟨_, hclear⟩ := State.peerMayWrite_iff.mp h hi
  have := hclear d hd hdn
  dsimp only at this
  omega

/-- Nor a byte of its descriptor. -/
theorem State.peerMayWrite_desc {s : State} {r : RingId} {a n d b : Nat} {v : Word} (hi : (s.ring r).inited = true)
    (hl : (s.ring r).laidOut s.cfg.n) (h : s.peerMayWrite r a n v = true) (hd : d ∈ s.notPeers r) (hdn : d < s.cfg.n)
    (h1 : (s.ring r).descEntryAddr d ≤ b) (h2 : b < (s.ring r).descEntryAddr d + 16) : b < a ∨ a + n ≤ b := by
  by_contra hb
  obtain ⟨hzone, _⟩ := State.peerMayWrite_iff.mp h hi
  rcases zoneOf_desc_cases hl hi hdn (a := a) (n := n) (by omega) (by omega) h1 h2 with hz | hz <;> rw [hz] at hzone
  · simp [State.zoneWritable, hd] at hzone
  · cases hzone

theorem State.offeredSlots_lt {s : State} {r : RingId} {j : Nat} (h : j ∈ s.offeredSlots r) : j < s.cfg.n := by
  obtain ⟨i, _, rfl⟩ := slotsFrom_mem.mp h
  exact Nat.mod_lt _ (Nat.two_pow_pos _)

/-- Nor a byte of an avail entry on offer. -/
theorem State.peerMayWrite_entry {s : State} {r : RingId} {a n j b : Nat} {v : Word} (hi : (s.ring r).inited = true)
    (hl : (s.ring r).laidOut s.cfg.n) (h : s.peerMayWrite r a n v = true) (hj : j ∈ s.offeredSlots r)
    (h1 : (s.ring r).availEntryAddr j ≤ b) (h2 : b < (s.ring r).availEntryAddr j + 2) : b < a ∨ a + n ≤ b := by
  by_contra hb
  obtain ⟨hzone, _⟩ := State.peerMayWrite_iff.mp h hi
  rcases zoneOf_entry_cases hl hi (State.offeredSlots_lt hj) (a := a) (n := n) (by omega) (by omega) h1 h2 with hz | hz
  all_goals rw [hz] at hzone
  · simp [State.zoneWritable, hj] at hzone
  · cases hzone

/-- A step of a peer write leaves every byte that a write let by ring pair `r` does not reach. -/
theorem step_peerWrite_read {s t : State} {a : Nat} {w : Width} {v : Word} {rest : List Input} {b : Nat} (r : RingId)
    (he : s.env = .act (.peerWrite a w v) :: rest) (h : step s = .next t) (hm : s.mem.wf = true)
    (hb : s.peerMayWrite r a w.bytes v = true → b < a ∨ a + w.bytes ≤ b) : t.mem.read b = s.mem.read b := by
  obtain ⟨_, ⟨hmay, rfl⟩ | rfl⟩ := step_peerWrite_inv he h
  · exact Memory.read_writeLE_outside hm (hb (hmay r))
  · rfl

theorem State.mem_notPeers {s : State} {r : RingId} {d : Nat} :
    d ∈ s.notPeers r ↔ d ∈ (s.peer r).lent ∨ d ∈ (s.offeredSlots r).map (s.entryNow r) ∨ d ∈ (s.ring r).held := by
  simp only [State.notPeers, List.mem_append, or_assoc]

/-- Settles O48: a write that the ring pair lets reaches neither those buffers nor those fields; any other is no
move. -/
theorem peerLeavesHeldBuffersAlone : Obligations.PeerLeavesHeldBuffersAlone := by
  intro s t r d a w v rest he h hi hm
  refine ⟨fun hd hdn => ⟨fun b h1 h2 => ?_, fun hl b h1 h2 => ?_⟩, fun hl j hj => ?_⟩
  · exact step_peerWrite_read r he h hm fun hmay =>
      State.peerMayWrite_buffer hi hmay (State.mem_notPeers.mpr hd) hdn h1 h2
  · exact step_peerWrite_read r he h hm fun hmay =>
      State.peerMayWrite_desc hi hl hmay (State.mem_notPeers.mpr hd) hdn h1 h2
  · exact Memory.readLE_congr fun b h1 h2 => step_peerWrite_read r he h hm fun hmay =>
      State.peerMayWrite_entry hi hl hmay hj h1 h2

/-! Offers and reclaims (R231, R236). -/

theorem PeerRing.mayReadEntry_iff {p : PeerRing} :
    p.mayReadEntry = true ↔ ∃ v, p.usedSeen = some v ∧ v ≠ p.usedRead := by
  unfold PeerRing.mayReadEntry
  cases p.usedSeen <;> simp

/-- R236: what a peer that is not starting afresh has read before it reclaims `d`. -/
theorem State.reclaimable_eq_some {s : State} {r : RingId} {d : Nat} (hr : (s.peer r).restarting = false) :
    s.reclaimable r = some d ↔ (∃ u, (s.peer r).usedSeen = some u ∧ u ≠ (s.peer r).usedRead)
      ∧ (s.peer r).entryLen = true ∧ (s.peer r).entryId = some d := by
  simp only [State.reclaimable, hr, Bool.not_false, Bool.true_and, Option.ite_none_right_eq_some, Bool.and_eq_true,
    PeerRing.mayReadEntry_iff, and_assoc]

/-- Without that it has nothing to reclaim. -/
theorem State.reclaimable_eq_none {s : State} {r : RingId} (hr : (s.peer r).restarting = false)
    (h : (s.peer r).usedSeen = none ∨ (s.peer r).usedSeen = some (s.peer r).usedRead ∨ (s.peer r).entryId = none
      ∨ (s.peer r).entryLen = false) : s.reclaimable r = none := by
  refine Option.eq_none_iff_forall_ne_some.mpr fun d hd => ?_
  obtain ⟨⟨u, hu, hne⟩, hlen, hid⟩ := (State.reclaimable_eq_some hr).mp hd
  rcases h with h | h | h | h
  · cases hu.symm.trans h
  · exact hne (Option.some.inj (hu.symm.trans h))
  · cases hid.symm.trans h
  · cases hlen.symm.trans h

/-- A reclaim after those reads moves the peer's index and gives the descriptor back to it. -/
theorem step_peerReclaim_some {s : State} {r : RingId} {d : Nat} {rest : List Input} (hv : s.cfg.valid = true)
    (he : s.env = .act (.peerReclaim r) :: rest) (hd : s.reclaimable r = some d) :
    ∃ t, step s = .next t ∧ (t.peer r).usedRead = (s.peer r).usedRead + 1
      ∧ (t.peer r).lent = heldErase d (s.peer r).lent := by
  refine ⟨_, (step_peerReclaim hv he).trans (by rw [hd]), ?_⟩
  rw [State.setPeer_peer]
  exact ⟨rfl, rfl⟩

/-- On a ring pair in use, the write of one field clear of the buffers that are not the peer's: its zone decides. -/
theorem step_peerWrite_of_zone {s : State} {r : RingId} {a : Nat} {w : Width} {v : Word} {rest : List Input} {z : Zone}
    (hv : s.cfg.valid = true) (he : s.env = .act (.peerWrite a w v) :: rest) (hi : (s.ring r).inited = true)
    (hz : zoneOf (s.ring r) s.cfg.n a w.bytes = z) (hmixed : z ≠ .mixed) (hal : a % w.bytes = 0)
    (hb : s.admits a w.bytes = true) (hclear : s.clearOfBuffers r a w.bytes)
    (hun : s.unclaimed (otherRing r) a w.bytes) :
    step s = .next (if s.zoneWritable r v z then State.afterPeerWrite { s with env := rest } a w v
      else { s with env := rest }) := by
  subst hz
  have hmix : ∀ q, s.mixedAccess q a w.bytes = false :=
    forall_ring_of r (State.mixedAccess_eq_false.mpr fun _ => hmixed) (State.mixedAccess_unclaimed hun)
  split_ifs with hw
  · exact step_peerWrite_of_may hv he hal hb hmix
      (forall_ring_of r (State.peerMayWrite_iff.mpr fun _ => ⟨hw, hclear⟩) (State.peerMayWrite_unclaimed hun))
  · have hmay : s.peerMayWrite r a w.bytes v ≠ true := fun h => hw (State.peerMayWrite_iff.mp h hi).1
    exact step_peerWrite_of_may_not hv he hal hb hmix (Bool.eq_false_of_not_eq_true hmay)

/-- The fields that the peer writes to offer a descriptor are naturally aligned (R210 to R212). -/
theorem RingCtx.offer_aligned {c : RingCtx} {size : Nat} (h : c.laidOut size) (hi : c.inited = true) :
    (∀ d, c.descEntryAddr d % 16 = 0) ∧ (∀ j, c.availEntryAddr j % 2 = 0) ∧ c.availIdxAddr % 2 = 0 := by
  obtain ⟨hdesc, havail, _, _, _⟩ := RingCtx.laidOut_facts h hi
  unfold RingCtx.descEntryAddr RingCtx.availEntryAddr RingCtx.availIdxAddr
  exact ⟨fun d => by omega, fun j => by omega, by omega⟩

/-- While the peer does not start the ring pair afresh, it writes `avail.idx` to offer (R231). -/
theorem State.zoneWritable_availIdx {s : State} {r : RingId} {v : Word} (hr : (s.peer r).restarting = false) :
    s.zoneWritable r v .availIdx = s.offerKept r (v.setWidth 16) := by
  simp [State.zoneWritable, State.restartsIdx, hr]

/-- What a write of `avail.idx` lends (R231 step 3, R233). -/
theorem State.afterPeerWrite_availIdx_lent {s : State} {r : RingId} {v : Word} {d : Nat} (hv : s.cfg.valid = true)
    (hi : (s.ring r).inited = true) (hl : (s.ring r).laidOut s.cfg.n) (hr : (s.peer r).restarting = false) :
    d ∈ ((s.afterPeerWrite (s.ring r).availIdxAddr .b2 v).peer r).lent ↔ d ∈ (s.peer r).lent
      ∨ ∃ i, i < (v.setWidth 16 - s.availIdx r).toNat
        ∧ s.entryNow r (slotOf s.cfg.n (s.availIdx r + BitVec.ofNat 16 i)) = d := by
  have hoffer : s.slotsOffered r (s.ring r).availIdxAddr Width.b2.bytes (v.setWidth 16)
      = s.newSlots r (v.setWidth 16) := by
    have hz : zoneOf (s.ring r) s.cfg.n (s.ring r).availIdxAddr Width.b2.bytes = .availIdx := zoneOf_availIdx hl hi
    simp [State.slotsOffered, State.restartsIdx, hi, hz, hr]
  rw [State.afterPeerWrite_peer, PeerRing.lend_mem, hoffer, List.mem_map]
  refine or_congr_right ⟨?_, ?_⟩
  · rintro ⟨j, hj, rfl⟩
    obtain ⟨i, hlt, rfl⟩ := (State.newSlots_mem hv).mp hj
    exact ⟨i, hlt, rfl⟩
  · rintro ⟨i, hlt, rfl⟩
    exact ⟨_, (State.newSlots_mem hv).mpr ⟨i, hlt, rfl⟩, rfl⟩

/-- Settles O45: the zone of each of the three writes decides it, that of `avail.idx` by the entries passed; a reclaim
is a move when the peer has made its reads. -/
theorem peerOffersAndReclaims : Obligations.PeerOffersAndReclaims := by
  intro s r rest hv
  constructor
  · intro he hr
    refine ⟨fun u d hu hne hid hlen => ?_, fun h => ?_⟩
    · exact step_peerReclaim_some hv he ((State.reclaimable_eq_some hr).mpr ⟨⟨u, hu, hne⟩, hlen, hid⟩)
    · rw [step_peerReclaim hv he, State.reclaimable_eq_none hr h]
  · intro hi hl c free
    obtain ⟨hdesc, hentry, hidx⟩ := RingCtx.offer_aligned hl hi
    refine ⟨?_, ?_, ?_⟩
    · rintro d off v hd hmine hoff ⟨hb, hclear, hun⟩ he
      have hal : (c.descEntryAddr d + off) % 4 = 0 := by
        have : c.descEntryAddr d % 16 = 0 := hdesc d
        omega
      have h := step_peerWrite_of_zone hv he hi (zoneOf_desc hl hi hd hoff) (by simp) hal hb hclear hun
      rw [if_pos (by simpa [State.zoneWritable] using hmine)] at h
      exact ⟨_, h, s.wrote_afterPeerWrite rest _ .b4 v⟩
    · rintro j v hj hmine ⟨hb, hclear, hun⟩ he
      have h := step_peerWrite_of_zone hv he hi (zoneOf_availEntry hl hi hj) (by simp) (hentry j) hb hclear hun
      rw [if_pos (by simpa [State.zoneWritable] using hmine)] at h
      exact ⟨_, h, s.wrote_afterPeerWrite rest _ .b2 v⟩
    · rintro v hr ⟨hb, hclear, hun⟩ he
      have h := step_peerWrite_of_zone hv he hi (zoneOf_availIdx hl hi) (by simp) hidx hb hclear hun
      rw [State.zoneWritable_availIdx hr] at h
      refine ⟨fun hready => ?_, ?_⟩
      · rw [if_pos ((State.offerKept_iff hv).mpr hready)] at h
        exact ⟨_, h, s.wrote_afterPeerWrite rest _ .b2 v, fun d =>
          State.afterPeerWrite_availIdx_lent (s := { s with env := rest }) hv hi hl hr⟩
      · rintro ⟨i, hlt, hstale⟩
        rwa [if_neg fun hk => by simp [(State.offerKept_iff hv).mp hk i hlt] at hstale] at h

end Sys2Proof.Machine

/-! PROOFS. What the transport commands leave alone in memory (spec/20_memory.md R224): the whole outcome of a CH_SEND,
a CH_CREATE and a POLL of one packet that run alone with their accesses backed, and the frames that follow. -/

namespace Sys2Proof.Machine

/-! CH_SEND with a TX buffer (R520). -/

theorem sendingSlot_of_sendsOn {s : State} {i : Nat} {slot : Slot} (h : s.sendsOn i slot) :
    sendingSlot s.cfg s.slots i = some slot := by
  obtain ⟨hlt, hslot, hused⟩ := h
  unfold sendingSlot
  rw [if_neg (by omega), hslot]
  exact if_neg hused

/-- R520: `TRUNC` is set for more than 496 bytes. -/
theorem markTrunc_quiet {s : State} {n : Nat} (h : s.quiet = true) (hst : s.status.ended false .ok = s.status) :
    markTrunc n s = .ok ((), { s with status := s.status.ended (decide (496 < n)) .ok }) := by
  unfold markTrunc
  by_cases hn : maxPayload < n
  · have htrunc : setTrunc s = { s with status := s.status.ended true .ok } :=
      congrArg (fun st : Status => { s with status := { st with trunc := true } }) hst.symm
    rw [if_pos hn, act_quiet h, htrunc, decide_eq_true (p := 496 < n) hn]
  · rw [if_neg hn, decide_eq_false (p := 496 < n) hn, hst]
    rfl

/-- R520 once the slot is found, with a TX buffer offered that holds the packet: the payload is staged and sent. -/
theorem sendOn_transmits {s : State} {slot : Slot} (hq : s.quiet = true) (hi : s.tx.inited = true)
    (h0 : s.seq.latched.arg0 = s.arg0) (h1 : s.seq.latched.arg1 = s.arg1) (hst : s.status.ended false .ok = s.status)
    (hb : s.backs s.arg0.toNat (min s.arg1.toNat 496)) (hf : s.txFits (min s.arg1.toNat 496))
    (htx : s.txBacked (min s.arg1.toNat 496)) :
    sendOn slot s = .ok ((), (s.staged s.arg0.toNat s.arg1.toNat).afterTransmit slot.localAddr slot.remote
      (s.mem.readBytes s.arg0.toNat (min s.arg1.toNat 496)) 0) := by
  have hlen : (s.staged s.arg0.toNat s.arg1.toNat).stage.length = min s.arg1.toNat 496 := Memory.readBytes_length _ _ _
  unfold sendOn
  rw [Prog.bind_ok (requireInit_on (r := .tx) hi), Prog.bind_ok (operand0_apply s), Prog.bind_ok (operand1_apply s), h0,
    h1, Prog.bind_ok (markTrunc_quiet hq hst)]
  refine (Prog.bind_ok (readBytes_backed (by exact hq) (by exact hb))).trans ?_
  refine (Prog.bind_ok (act_quiet (by exact hq))).trans ?_
  exact transmit_backed (s := s.staged s.arg0.toNat s.arg1.toNat) hq (hlen.trans_le (Nat.min_le_right _ _))
    (by rw [hlen]; exact hf) (by rw [hlen]; exact htx)

/-- A CH_SEND on a slot in use, with a TX buffer offered that holds the packet (R520, R530). -/
theorem exec_chSend_transmits {s : State} {idx : Nat} {slot : Slot} (h : s.ready = true) (hi : s.tx.inited = true)
    (hs : s.sendsOn idx slot) (hb : s.backs s.arg0.toNat (min s.arg1.toNat 496))
    (hf : s.txFits (min s.arg1.toNat 496)) (htx : s.txBacked (min s.arg1.toNat 496)) :
    exec (.chSend idx) s = .next ((s.staged s.arg0.toNat s.arg1.toNat).afterTransmit slot.localAddr slot.remote
      (s.mem.readBytes s.arg0.toNat (min s.arg1.toNat 496)) 0) := by
  refine (issue_accepting (State.ready_accepting h)).trans (Prog.outcome_ok ?_)
  unfold chSendBody
  rw [Prog.bind_ok (getCfg_apply _), Prog.bind_ok (getSlots_apply _), State.accept_cfg, State.accept_slots,
    sendingSlot_of_sendsOn hs]
  have hq := State.ready_quiet h
  exact sendOn_transmits (s := s.accept _) hq hi rfl rfl rfl hb hf htx

/-! CH_CREATE with a TX buffer (R510). -/

theorem firstUnused_of_lowestUnused {s : State} {i : Nat} (h : s.lowestUnused i) : firstUnused s.slots = some i := by
  obtain ⟨⟨slot, hslot, hfree⟩, hbelow⟩ := h
  obtain ⟨hlt, rfl⟩ := List.getElem?_eq_some_iff.mp hslot
  unfold firstUnused
  rw [List.findIdx?_eq_some_iff_getElem]
  exact ⟨hlt, decide_eq_true hfree, fun j hj => by simpa using hbelow j hj _ (List.getElem?_eq_getElem (by omega))⟩

theorem State.announcementGiven_length (s : State) : s.announcementGiven.length = 40 := by
  have hname := nameAt_length_le s.mem s.arg0.toNat 32
  simp only [State.announcementGiven, State.nameGiven, List.length_append, List.length_replicate, leBytes_length]
  omega

/-- R510 for the slot found, with a TX buffer offered that holds the announcement. -/
theorem createChannel_transmits {s : State} {i : Nat} (hq : s.quiet = true) (ha : s.seq.latched.arg0 = s.arg0)
    (hst : s.status.ended false .ok = s.status)
    (hb : s.backs s.arg0.toNat (nameBytesRead s.mem s.arg0.toNat 32).length) (hf : s.txFits 40) (htx : s.txBacked 40) :
    createChannel i s = .ok ((),
      (s.announced i).afterTransmit s.nextAddr s.cfg.nsAddr s.announcementGiven (BitVec.ofNat 32 i)) := by
  have hstaged : setStage s.announcementGiven (announceSlot i s.nameGiven
      (s.afterByteReads s.arg0.toNat (nameBytesRead s.mem s.arg0.toNat 32))) = s.announced i := by
    rw [State.announced, hst]
    rfl
  have hlen : (s.announced i).stage.length = 40 := s.announcementGiven_length
  have hsend : transmit ⟨s.nextAddr, s.cfg.nsAddr, BitVec.ofNat 32 i⟩ (s.announced i) = .ok ((), _) :=
    transmit_backed hq (by omega) (by rw [hlen]; exact hf) (by rw [hlen]; exact htx)
  unfold createChannel
  rw [Prog.bind_ok (operand0_apply s), ha]
  refine (Prog.bind_ok (readName_backed hq hb)).trans ?_
  refine (Prog.bind_ok (p := fun s => .ok (s.nextAddr, s)) rfl).trans ?_
  refine (Prog.bind_ok (getCfg_apply _)).trans ?_
  refine (Prog.bind_ok (act_quiet (by exact hq))).trans ?_
  refine (Prog.bind_ok (act_quiet (by exact hq))).trans ?_
  exact (congrArg (transmit _) hstaged).trans hsend

/-- A CH_CREATE with an Unused slot and a TX buffer offered that holds the announcement (R510, R530). -/
theorem exec_chCreate_transmits {s : State} {i : Nat} (h : s.ready = true) (hi : s.tx.inited = true)
    (hs : s.lowestUnused i) (hb : s.backs s.arg0.toNat (nameBytesRead s.mem s.arg0.toNat 32).length)
    (hf : s.txFits 40) (htx : s.txBacked 40) :
    exec .chCreate s = .next ((s.announced i).afterTransmit s.nextAddr s.cfg.nsAddr s.announcementGiven
      (BitVec.ofNat 32 i)) := by
  refine (issue_accepting (State.ready_accepting h)).trans (Prog.outcome_ok ?_)
  unfold chCreateBody
  rw [Prog.bind_ok (requireInit_on (s := s.accept _) (r := .tx) hi), Prog.bind_ok (getSlots_apply _),
    State.accept_slots, firstUnused_of_lowestUnused hs]
  have hq := State.ready_quiet h
  exact createChannel_transmits (s := s.accept _) hq rfl rfl hb hf htx

/-! The SWAPs and the cache maintenance of a POLL (R620, R621). -/

theorem swapTxKicks_quiet {s : State} (h : s.quiet = true) :
    swapTxKicks s = .ok (s.txKickCnt, { s with txKickCnt := 0 }) := by
  unfold swapTxKicks
  rw [Prog.bind_ok (yield_quiet h)]

theorem swapRxKicks_quiet {s : State} (h : s.quiet = true) :
    swapRxKicks s = .ok (s.rxKickCnt, { s with rxKickCnt := 0 }) := by
  unfold swapRxKicks
  rw [Prog.bind_ok (yield_quiet h)]

theorem maintainCache_quiet {s : State} (tx : Word) (h : s.quiet = true) :
    maintainCache tx s
      = .ok ((), { s with history := s.history ++ if tx = 0 then [] else [.cacheMaint .tx] }) := by
  unfold maintainCache
  by_cases htx : tx = 0
  · rw [if_neg (not_not.mpr htx), if_pos htx, List.append_nil]
    rfl
  · rw [if_pos htx, if_neg htx, emitEvent_quiet _ h]
    rfl

/-! RECEIVE's checks on a packet (R540, R541). -/

/-- What the checks on the packet at `ba` in a buffer of `dl` bytes leave in every quiet state that agrees with `s` on
what they look at: the channel table, the drop counter, and the events they append. -/
def State.Inspects (s : State) (ba dl : Nat) (slots : List Slot) (drops : Word) (seen : List Event) : Prop :=
  ∀ u : State, u.quiet = true → u.cfg = s.cfg → u.mem = s.mem → u.slots = s.slots → u.dropCnt = s.dropCnt →
    inspectPacket ba dl u
      = .ok ((), { u with slots := slots, dropCnt := drops, history := u.history ++ seen })

section
variable {s : State} {ba dl : Nat}

/-- A buffer shorter than a header is dropped unread. -/
theorem State.inspects_short (hd : dl < 16) : s.Inspects ba dl s.slots (s.dropCnt + 1) [] := by
  intro u hq _ _ hs hdrop
  rw [inspectPacket_short hq hd, List.append_nil, hdrop, ← hs]

/-- A packet that is too long, or for no channel, is dropped after its header. -/
theorem State.inspects_drop (hd : 16 ≤ dl) (hb : s.backs ba 16)
    (hx : 496 < s.mem.readLE (ba + 12) 2 ∨ dl < 16 + s.mem.readLE (ba + 12) 2
      ∨ s.noChannelFor (BitVec.ofNat 32 (s.mem.readLE (ba + 4) 4))) :
    s.Inspects ba dl s.slots (s.dropCnt + 1) (byteReads ba (s.mem.readBytes ba 16)) := by
  intro u hq hc hm hs hdrop
  unfold State.noChannelFor at hx
  rw [← hm, ← hs] at hx
  rw [inspectPacket_drops hq hd (State.backs_congr hc hb) hx, hdrop, hm, ← hs]

/-- A packet for a channel is delivered. -/
theorem State.inspects_deliver {i : Nat} {slot : Slot} (hd : 16 ≤ dl) (hb : s.backs ba dl)
    (hmax : s.mem.readLE (ba + 12) 2 ≤ 496) (hfit : 16 + s.mem.readLE (ba + 12) 2 ≤ dl)
    (hch : s.channelFor (BitVec.ofNat 32 (s.mem.readLE (ba + 4) 4)) i slot) :
    s.Inspects ba dl (s.slots.set i { slot with state := .up, remote := BitVec.ofNat 32 (s.mem.readLE ba 4) }) s.dropCnt
      (byteReads ba (s.mem.readBytes ba 16)
        ++ byteReads (ba + 16) (s.mem.readBytes (ba + 16) (s.mem.readLE (ba + 12) 2))
        ++ [.deliver i (BitVec.ofNat 32 (s.mem.readLE ba 4)) (BitVec.ofNat 32 (s.mem.readLE (ba + 4) 4))
              (s.mem.readBytes (ba + 16) (s.mem.readLE (ba + 12) 2))]) := by
  intro u hq hc hm hs hdrop
  unfold State.channelFor at hch
  rw [← hm] at hmax hfit hch
  rw [← hs] at hch
  rw [inspectPacket_delivers hq hd (State.backs_congr hc hb) hmax hfit hch, hm, hs, ← hdrop]
  simp only [List.append_assoc]

/-- Some slot is the lowest in use with local address `dst`, or none has it (R541). -/
theorem State.channelFor_or_noChannelFor (s : State) (dst : Word) :
    (∃ i slot, s.channelFor dst i slot) ∨ s.noChannelFor dst := by
  cases hf : findChannel dst s.slots with
  | none =>
    refine .inr fun slot hslot => ?_
    have := List.findIdx?_eq_none_iff.mp hf slot hslot
    simp only [Bool.and_eq_false_iff, decide_eq_false_iff_not, not_not] at this
    exact this
  | some i =>
    obtain ⟨hlt, hslot, hlow⟩ := List.findIdx?_eq_some_iff_getElem.mp hf
    simp only [Bool.and_eq_true, decide_eq_true_eq] at hslot hlow
    refine .inl ⟨i, s.slots[i], List.getElem?_eq_getElem hlt, hslot.1, hslot.2, fun j hj other ho => ?_⟩
    obtain ⟨_, rfl⟩ := List.getElem?_eq_some_iff.mp ho
    exact (not_and_or.mp (hlow j hj)).imp_left not_not.mp

/-- Whatever is in the buffer, the checks drop it or deliver it. -/
theorem State.exists_inspects (hb : s.backs ba dl) : ∃ slots drops seen, s.Inspects ba dl slots drops seen := by
  by_cases hd : dl < 16
  · exact ⟨_, _, _, State.inspects_short hd⟩
  rw [not_lt] at hd
  by_cases hx : s.mem.readLE (ba + 12) 2 ≤ 496 ∧ 16 + s.mem.readLE (ba + 12) 2 ≤ dl
  · rcases s.channelFor_or_noChannelFor (BitVec.ofNat 32 (s.mem.readLE (ba + 4) 4)) with ⟨i, slot, hch⟩ | hch
    · exact ⟨_, _, _, State.inspects_deliver hd hb hx.1 hx.2 hch⟩
    · exact ⟨_, _, _, State.inspects_drop hd (fun k hk => hb k (by omega)) (.inr (.inr hch))⟩
  · exact ⟨_, _, _, State.inspects_drop hd (fun k hk => hb k (by omega)) (by omega)⟩

end

/-! What a PUBLISH leaves alone (R410). -/

theorem read_publishMem_outside {m : Memory} {c : RingCtx} {size d len a : Nat} (hm : m.wf = true)
    (ha : outsidePublish c size a) : (publishMem m c size d len).read a = m.read a := by
  obtain ⟨hentry, hidx⟩ := ha
  have h1 := Memory.wf_writeLE (c.nextUsedAddr size) 4 d hm
  have h2 := Memory.wf_writeLE (c.nextUsedAddr size + 4) 4 len h1
  unfold publishMem
  rw [Memory.read_writeLE_outside h2 hidx, Memory.read_writeLE_outside h1 (by omega),
    Memory.read_writeLE_outside hm (by omega)]

/-- A PUBLISH on a ring pair in use leaves its `avail.idx` alone (R210). -/
theorem readLE_publishMem_availIdx {m : Memory} {c : RingCtx} {size d len : Nat} (hm : m.wf = true)
    (hl : c.laidOut size) (hi : c.inited = true) :
    (publishMem m c size d len).readLE c.availIdxAddr 2 = m.readLE c.availIdxAddr 2 := by
  obtain ⟨_, _, _, hused, _⟩ := RingCtx.laidOut_facts hl hi
  refine Memory.readLE_congr fun a h1 h2 => read_publishMem_outside hm ?_
  unfold outsidePublish RingCtx.nextUsedAddr RingCtx.usedEntryAddr RingCtx.usedIdxAddr
  unfold RingCtx.availIdxAddr at h1 h2
  omega

/-! POLL of one packet (R620, R630). -/

/-- The state after the TAKE and the RECEIVE of the next RX entry (R540), whose checks left `slots`, `drops` and
`seen`. -/
def State.afterReceive (s : State) (slots : List Slot) (drops : Word) (seen : List Event) : State :=
  { s with
    dropCnt := drops
    slots := slots
    rx := { s.rx with
      lastAvail := s.rx.lastAvail + 1
      usedHead := s.rx.usedHead + 1
      held := heldErase (s.nextEntry .rx) (heldInsert (s.nextEntry .rx) s.rx.held) }
    verdicts := s.takeVerdicts .rx (s.nextEntry .rx)
    mem := publishMem s.mem s.rx s.cfg.n (s.nextEntry .rx) (s.rxBufLen (s.nextEntry .rx))
    history := s.history ++ s.takeEvents .rx
      ++ [.rd .block (s.rx.descEntryAddr (s.nextEntry .rx)) 4 (s.rxBufAddr (s.nextEntry .rx)),
          .rd .block (s.rx.descEntryAddr (s.nextEntry .rx) + 8) 4 (s.rxBufLen (s.nextEntry .rx))]
      ++ seen
      ++ publishEvents s.rx s.cfg.n (s.nextEntry .rx) (s.rxBufLen (s.nextEntry .rx)) s.cfg.rxReturnKick }

section
variable {s : State} {slots : List Slot} {drops : Word} {seen : List Event}

theorem receive_afterTake (hq : s.quiet = true) (hp : s.onePacket)
    (hin : s.Inspects (s.rxBufAddr (s.nextEntry .rx)) (s.rxBufLen (s.nextEntry .rx)) slots drops seen) :
    receive (s.nextEntry .rx) (s.afterTake .rx) = .ok ((), s.afterReceive slots drops seen) := by
  obtain ⟨_, _, _, hpub, hd1, hd2, _⟩ := hp
  have hd : s.nextEntry .rx < 2 ^ 32 := lt_of_lt_of_le (Memory.readLE_lt s.mem _ 2) (by norm_num)
  have hchecks := hin ((s.afterTake .rx).afterRxDesc (s.nextEntry .rx)) hq rfl rfl rfl rfl
  have h := receive_backed (s := s.afterTake .rx) hq hd hd1 hd2 hchecks rfl rfl hpub
  rw [h]
  refine congrArg (fun v => Except.ok ((), v)) ?_
  apply State.eq_of_fields
  case h_verdicts =>
    have hflag : ((s.takeVerdicts .rx (s.nextEntry .rx)).publishNotHeld
        || !(heldInsert (s.nextEntry .rx) s.rx.held).contains (s.nextEntry .rx))
        = (s.takeVerdicts .rx (s.nextEntry .rx)).publishNotHeld := by simp [heldInsert_mem]
    exact congrArg (fun b => { s.takeVerdicts .rx (s.nextEntry .rx) with publishNotHeld := b }) hflag
  all_goals rfl

/-- A read of `avail.idx` that finds the ring empty records no verdict (R405). -/
theorem State.headVerdicts_of_empty {r : RingId} (h : s.availIdx r = (s.ring r).lastAvail) :
    s.headVerdicts r = s.verdicts := by
  simp [State.headVerdicts, h]

theorem State.afterReceive_availIdx (hi : s.rx.inited = true) (hl : s.rx.laidOut s.cfg.n) (hm : s.mem.wf = true) :
    (s.afterReceive slots drops seen).mem.readLE s.rx.availIdxAddr 2 = s.mem.readLE s.rx.availIdxAddr 2 :=
  readLE_publishMem_availIdx hm hl hi

/-- The one packet offered is taken and received, and then the ring is empty (R630). -/
theorem drain_onePacket (k : Nat) (hq : s.quiet = true) (hi : s.rx.inited = true) (hp : s.onePacket)
    (hl : s.rx.laidOut s.cfg.n) (hm : s.mem.wf = true)
    (hin : s.Inspects (s.rxBufAddr (s.nextEntry .rx)) (s.rxBufLen (s.nextEntry .rx)) slots drops seen) :
    drain (k + 1 + 1) s = .ok ((), (s.afterReceive slots drops seen).afterHead .rx) := by
  have ⟨hone, hlt, hback, _⟩ := hp
  have hnext : s.availIdx .rx ≠ s.rx.lastAvail := by simp [hone]
  have hempty : (s.afterReceive slots drops seen).availIdx .rx = s.rx.lastAvail + 1 :=
    (congrArg (BitVec.ofNat 16) (State.afterReceive_availIdx hi hl hm)).trans hone
  have htake : take .rx (s.afterReceive slots drops seen) = .ok (none, _) := take_none hq hback.1 hempty
  rw [drain, Prog.bind_ok (take_some hq hback hnext hlt)]
  dsimp only
  rw [Prog.bind_ok (receive_afterTake hq hp hin), drain, Prog.bind_ok htake]
  rfl

/-- The drain of a POLL, its SWAPs done, and its end when one packet is offered (R630, R106). -/
theorem drainAndFinish_onePacket (hq : s.quiet = true) (hst : s.status.ended false .ok = s.status)
    (htx : s.txKickCnt = 0) (hrx : s.rxKickCnt = 0) (hi : s.rx.inited = true) (hp : s.onePacket)
    (hl : s.rx.laidOut s.cfg.n) (hm : s.mem.wf = true)
    (hin : s.Inspects (s.rxBufAddr (s.nextEntry .rx)) (s.rxBufLen (s.nextEntry .rx)) slots drops seen) :
    drainAndFinish s = .ok ((), { s.afterOnePacket slots drops seen with seq := .idle }) := by
  have hchunk : drainChunk = 65535 + 1 + 1 := rfl
  have hdrain := drain_onePacket (s := s.setPhase .drain) 65535 hq hi hp hl hm hin
  have hidx : ((s.setPhase .drain).afterReceive slots drops seen).mem.readLE s.rx.availIdxAddr 2
      = s.mem.readLE s.rx.availIdxAddr 2 := State.afterReceive_availIdx (s := s.setPhase .drain) hi hl hm
  have hempty : ((s.setPhase .drain).afterReceive slots drops seen).availIdx .rx = s.rx.lastAvail + 1 :=
    (congrArg (BitVec.ofNat 16) hidx).trans hp.1
  unfold drainAndFinish
  rw [Prog.bind_ok (enterPhase_apply _ s), hchunk, Prog.bind_ok hdrain, finish_quiet _ (by exact hq)]
  refine congrArg (fun v => Except.ok ((), v)) ?_
  apply State.eq_of_fields
  case h_verdicts => exact State.headVerdicts_of_empty hempty
  case h_history =>
    have hmaint : s.history ++ s.maintEvents = s.history := by simp [State.maintEvents, htx]
    have hhead : ((s.setPhase .drain).afterReceive slots drops seen).headEvent .rx = s.headEvent .rx :=
      congrArg (Event.rd .block s.rx.availIdxAddr 2) hidx
    simp only [State.afterHead, State.complete_history, State.afterOnePacket, hmaint, hhead]
    rfl
  case h_txKickCnt => exact htx
  case h_rxKickCnt => exact hrx
  case h_status => exact congrArg (fun st : Status => { st with err := .ok }) hst.symm
  all_goals rfl

end

/-- A POLL whose SWAPs and cache maintenance are done (R620). -/
def State.polled (s : State) : State :=
  { s.started .poll with txKickCnt := 0, rxKickCnt := 0, history := s.history ++ s.maintEvents }

/-- A POLL of the one packet offered, whose checks leave `slots`, `drops` and `seen` (R620, R630, R540). -/
theorem exec_poll_onePacket {s : State} {slots : List Slot} {drops : Word} {seen : List Event} (h : s.ready = true)
    (hi : s.rx.inited = true) (hkick : s.rxKickCnt ≠ 0) (hp : s.onePacket) (hl : s.rx.laidOut s.cfg.n)
    (hm : s.mem.wf = true)
    (hin : s.Inspects (s.rxBufAddr (s.nextEntry .rx)) (s.rxBufLen (s.nextEntry .rx)) slots drops seen) :
    exec .poll s = .next (s.afterOnePacket slots drops seen) := by
  have hq := State.ready_quiet h
  refine (issue_accepting (State.ready_accepting h)).trans (Prog.outcome_ok ?_)
  unfold pollBody
  rw [Prog.bind_ok (requireInit_on (s := s.accept _) (r := .rx) hi)]
  refine (Prog.bind_ok (swapTxKicks_quiet (by exact hq))).trans ?_
  refine (Prog.bind_ok (swapRxKicks_quiet (by exact hq))).trans ?_
  refine (Prog.bind_ok (maintainCache_quiet _ (by exact hq))).trans ?_
  rw [if_pos (show (s.accept _).rxKickCnt ≠ 0 from hkick)]
  refine (drainAndFinish_onePacket (s := s.polled) hq rfl rfl rfl hi hp hl hm hin).trans ?_
  refine congrArg (fun v => Except.ok ((), v)) ?_
  apply State.eq_of_fields
  case h_seq => exact (State.ready_idle h).symm
  case h_history =>
    have hdone : s.polled.history ++ s.polled.maintEvents = s.history ++ s.maintEvents := List.append_nil _
    simp only [State.afterOnePacket, hdone]
    rfl
  all_goals rfl

/-! Frames. -/

theorem State.afterTransmit_mem (s : State) (src dst : Word) (payload : List Byte) (res : Word) :
    (s.afterTransmit src dst payload res).mem
      = publishMem (s.mem.writeBytes s.txBufAddr (packet src dst payload)) s.tx s.cfg.n (s.nextEntry .tx)
        (16 + payload.length) := by
  simp only [State.afterTransmit]

/-- A TRANSMIT stores to its buffer and to what its PUBLISH stores to (R530, R410). -/
theorem State.read_afterTransmit_outside {s : State} {src dst res : Word} {payload : List Byte} {a : Nat}
    (hm : s.mem.wf = true) (hbuf : a < s.txBufAddr ∨ s.txBufAddr + 16 + payload.length ≤ a)
    (ha : outsidePublish s.tx s.cfg.n a) : (s.afterTransmit src dst payload res).mem.read a = s.mem.read a := by
  have hwf := Memory.wf_writeBytes s.txBufAddr (packet src dst payload) hm
  have hpacket : (s.mem.writeBytes s.txBufAddr (packet src dst payload)).read a = s.mem.read a :=
    Memory.read_writeBytes_outside hm (by rw [packet_length]; omega)
  rw [State.afterTransmit_mem, read_publishMem_outside hwf ha, hpacket]

/-- Settles O34: each of the three commands ends in a state whose memory is that of its TRANSMIT or its PUBLISH. -/
theorem transportFrame : Obligations.TransportFrame := by
  intro s t h hm
  refine ⟨fun idx slot hi hs hb hf htx hrun a hbuf ha => ?_, fun i hi hs hb hf htx hrun a hbuf ha => ?_,
    fun hi hkick hp hl hrun a ha => ?_⟩
  · cases (exec_chSend_transmits h hi hs hb hf htx).symm.trans hrun
    refine State.read_afterTransmit_outside (s := s.staged _ _) hm ?_ ha
    rwa [Memory.readBytes_length]
  · cases (exec_chCreate_transmits h hi hs hb hf htx).symm.trans hrun
    have hlen := s.announcementGiven_length
    have hbuf' : a < s.txBufAddr ∨ s.txBufAddr + 16 + s.announcementGiven.length ≤ a := by omega
    exact State.read_afterTransmit_outside (s := s.announced i) hm hbuf' ha
  · have ⟨_, _, _, _, _, _, hbuf⟩ := hp
    obtain ⟨slots, drops, seen, hin⟩ := State.exists_inspects hbuf
    obtain rfl := Host.Outcome.next.inj ((exec_poll_onePacket h hi hkick hp hl hm hin).symm.trans hrun)
    exact read_publishMem_outside hm ha

end Sys2Proof.Machine

/-! PROOFS. The decoder and the encoder (spec/30_encoding.md R320 to R322, R351). A word passes its row's mask test
exactly when it is the word of the row's command; the round trips in both directions follow from that. -/

namespace Sys2Proof

/-! The fields of R320 as bit vectors. -/

/-- `R` as a field of one bit. -/
theorem ringBit_ringField (w : Word) : ringBit (ringField w) = w.extractLsb' 8 1 := by
  apply BitVec.eq_of_toNat_eq
  rw [ringField_eq, BitVec.extractLsb'_toNat, Nat.shiftRight_eq_div_pow]
  split
  · next h => exact h.symm
  · next h => exact (Nat.mod_two_ne_one.mp h).symm

/-- `K` as a field of one bit. -/
theorem ofBool_kickField (w : Word) : BitVec.ofBool (kickField w) = w.extractLsb' 9 1 := by
  apply BitVec.eq_of_toNat_eq
  rw [kickField_eq, BitVec.extractLsb'_toNat, Nat.shiftRight_eq_div_pow, BitVec.toNat_ofBool]
  rcases Nat.mod_two_eq_zero_or_one (w.toNat / 512) with h | h <;> simp [h]

/-- `IDX` as a field of 16 bits. -/
theorem ofNat_idxField (w : Word) : BitVec.ofNat 16 (idxField w) = w.extractLsb' 16 16 :=
  (BitVec.ofNat_toNat 16 _).trans (BitVec.setWidth_eq _)

theorem idxField_le (w : Word) : idxField w ≤ 0xFFFF :=
  Nat.le_of_lt_succ (w.extractLsb' 16 16).isLt

/-- The fields `OP`, `R`, `K`, `RSV` and `IDX` cover the word. -/
theorem word_eq_iff_fields (v w : Word) : v = w
    ↔ v.extractLsb' 0 8 = w.extractLsb' 0 8 ∧ v.extractLsb' 8 1 = w.extractLsb' 8 1
      ∧ v.extractLsb' 9 1 = w.extractLsb' 9 1 ∧ v.extractLsb' 10 6 = w.extractLsb' 10 6
      ∧ v.extractLsb' 16 16 = w.extractLsb' 16 16 := by
  have hv := v.isLt
  have hw := w.isLt
  simp only [← BitVec.toNat_inj, BitVec.extractLsb'_toNat, Nat.shiftRight_eq_div_pow]
  omega

/-- When a word is the command word of given fields. -/
theorem commandWord_eq_iff (w : Word) (op : Byte) (r : BitVec 1) (k : Bool) (idx : Nat) :
    commandWord op r k idx = w
      ↔ w.extractLsb' 0 8 = op ∧ w.extractLsb' 8 1 = r ∧ w.extractLsb' 9 1 = BitVec.ofBool k
        ∧ w.extractLsb' 10 6 = 0#6 ∧ w.extractLsb' 16 16 = BitVec.ofNat 16 idx := by
  have hw := w.isLt
  have hop := op.isLt
  have hr := r.isLt
  have hk := k.toNat_lt
  simp only [← BitVec.toNat_inj, commandWord_toNat, BitVec.extractLsb'_toNat, Nat.shiftRight_eq_div_pow,
    BitVec.toNat_ofNat, BitVec.toNat_ofBool]
  omega

/-- A mask test, field by field. -/
theorem and_eq_iff_fields (w m p : Word) : w &&& m = p
    ↔ w.extractLsb' 0 8 &&& m.extractLsb' 0 8 = p.extractLsb' 0 8
      ∧ w.extractLsb' 8 1 &&& m.extractLsb' 8 1 = p.extractLsb' 8 1
      ∧ w.extractLsb' 9 1 &&& m.extractLsb' 9 1 = p.extractLsb' 9 1
      ∧ w.extractLsb' 10 6 &&& m.extractLsb' 10 6 = p.extractLsb' 10 6
      ∧ w.extractLsb' 16 16 &&& m.extractLsb' 16 16 = p.extractLsb' 16 16 := by
  simp only [← BitVec.extractLsb'_and]
  exact word_eq_iff_fields _ _

/-- A mask of ones keeps the whole field. -/
theorem and_eq_self_of_ones {n : Nat} {x m : BitVec n} (h : m = BitVec.allOnes n) : x &&& m = x :=
  h ▸ BitVec.and_allOnes

/-! The rows of R322. -/

/-- A row's mask leaves out the fields its command takes as operands, and tests every other bit: a word passes exactly
when it is the word of the command it decodes to. -/
theorem maskTest_iff {row : OpcodeRow} (h : row ∈ opcodeTable) (w : Word) :
    w &&& row.mask = row.pattern ↔ encode (row.operands w) = w := by
  simp only [opcodeTable, List.mem_cons, List.not_mem_nil, or_false] at h
  rcases h with rfl | rfl | rfl | rfl | rfl | rfl | rfl <;>
    · simp only [encode]
      rw [and_eq_iff_fields, commandWord_eq_iff]
      simp (disch := decide) [ringBit_ringField, ofBool_kickField, ofNat_idxField, and_eq_self_of_ones]

theorem operands_wf {row : OpcodeRow} (h : row ∈ opcodeTable) (w : Word) : (row.operands w).wf = true := by
  simp only [opcodeTable, List.mem_cons, List.not_mem_nil, or_false] at h
  rcases h with rfl | rfl | rfl | rfl | rfl | rfl | rfl <;> simp [Instr.wf, idxField_le]

/-- R322's answer for a word whose opcode is the row's. -/
def OpcodeRow.answer (row : OpcodeRow) (w : Word) : Except DecodeError Instr :=
  if w &&& row.mask = row.pattern then .ok (row.operands w) else .error .reserved

/-- R322 as a chain of opcode tests. -/
theorem decode_eq_foldr (w : Word) : decode w
    = opcodeTable.foldr (fun row rest => if w.toNat % 256 = row.op.toNat then row.answer w else rest)
        (.error .illegalOp) := by
  unfold decode
  induction opcodeTable with
  | nil => rfl
  | cons row rows ih =>
    rw [List.foldr_cons, ← ih, ← opField_toNat]
    by_cases hop : opField w = row.op
    · rw [List.find?_cons_of_pos (by simp [hop]), if_pos (congrArg BitVec.toNat hop)]
      rfl
    · rw [List.find?_cons_of_neg (by simp [Ne.symm hop]), if_neg (mt BitVec.eq_of_toNat_eq hop)]

theorem decode_of_row {row : OpcodeRow} (h : row ∈ opcodeTable) {w : Word} (hop : w.toNat % 256 = row.op.toNat) :
    decode w = row.answer w := by
  rw [decode_eq_foldr, hop]
  simp only [opcodeTable, List.mem_cons, List.not_mem_nil, or_false] at h
  rcases h with rfl | rfl | rfl | rfl | rfl | rfl | rfl <;> rfl

theorem decode_of_no_row {w : Word} (h : ∀ row ∈ opcodeTable, w.toNat % 256 ≠ row.op.toNat) :
    decode w = .error .illegalOp := by
  rw [decode_eq_foldr]
  generalize opcodeTable = rows at h ⊢
  induction rows with
  | nil => rfl
  | cons row rows ih =>
    rw [List.foldr_cons, if_neg (h row List.mem_cons_self)]
    exact ih fun r hr => h r (List.mem_cons_of_mem _ hr)

/-- A command is read back from its word when some row has its opcode and reads back its operands. -/
theorem decode_encode_of_row {row : OpcodeRow} {i : Instr} (h : row ∈ opcodeTable)
    (hop : opField (encode i) = row.op) (hi : row.operands (encode i) = i) : decode (encode i) = .ok i := by
  have hmask : encode i &&& row.mask = row.pattern := (maskTest_iff h _).mpr (congrArg encode hi)
  rw [decode_of_row h (by rw [← hop, opField_toNat]), OpcodeRow.answer, if_pos hmask, hi]

/-- A word that decodes has a row, passes its mask test, and gives the row's operands. -/
theorem row_of_decode_ok {w : Word} {i : Instr} (h : decode w = .ok i) :
    ∃ row ∈ opcodeTable, w &&& row.mask = row.pattern ∧ row.operands w = i := by
  by_cases hrow : ∃ row ∈ opcodeTable, w.toNat % 256 = row.op.toNat
  · obtain ⟨row, hmem, hop⟩ := hrow
    rw [decode_of_row hmem hop, OpcodeRow.answer] at h
    split at h
    · next hmask => exact ⟨row, hmem, hmask, Except.ok.inj h⟩
    · cases h
  · push Not at hrow
    rw [decode_of_no_row hrow] at h
    cases h

/-- Settles O2: each command names the row of its opcode, whose fields are those its word was built from. -/
theorem decodeUndoesEncode : Obligations.DecodeUndoesEncode := by
  intro i hwf
  cases i with
  | ringInit r =>
    exact decode_encode_of_row (List.getElem_mem (n := 0) (by decide)) (opField_commandWord _ _ _ _)
      (congrArg Instr.ringInit (ringField_commandWord _ _ _ _))
  | ringTryTake r =>
    exact decode_encode_of_row (List.getElem_mem (n := 1) (by decide)) (opField_commandWord _ _ _ _)
      (congrArg Instr.ringTryTake (ringField_commandWord _ _ _ _))
  | ringHasIncoming r =>
    exact decode_encode_of_row (List.getElem_mem (n := 2) (by decide)) (opField_commandWord _ _ _ _)
      (congrArg Instr.ringHasIncoming (ringField_commandWord _ _ _ _))
  | ringPublish r kick idx =>
    exact decode_encode_of_row (List.getElem_mem (n := 3) (by decide)) (opField_commandWord _ _ _ _)
      (congr (congr (congrArg Instr.ringPublish (ringField_commandWord _ _ _ _)) (kickField_commandWord _ _ _ _))
        (idxField_commandWord _ _ _ (of_decide_eq_true hwf)))
  | chCreate => exact decode_encode_of_row (List.getElem_mem (n := 4) (by decide)) (opField_commandWord _ _ _ _) rfl
  | chSend idx =>
    exact decode_encode_of_row (List.getElem_mem (n := 5) (by decide)) (opField_commandWord _ _ _ _)
      (congrArg Instr.chSend (idxField_commandWord _ _ _ (of_decide_eq_true hwf)))
  | poll => exact decode_encode_of_row (List.getElem_mem (n := 6) (by decide)) (opField_commandWord _ _ _ _) rfl

/-- Settles O3: a word that decodes passed its row's mask test, so it is the word of the row's command. -/
theorem encodeUndoesDecode : Obligations.EncodeUndoesDecode := by
  intro w i h
  obtain ⟨row, hmem, hmask, rfl⟩ := row_of_decode_ok h
  exact ⟨operands_wf hmem w, (maskTest_iff hmem w).mp hmask⟩

/-- Settles O4: the decoder's chain of opcode tests, its fields read as parts of the word's number. -/
theorem decodeTable : Obligations.DecodeTable := by
  intro w op r kick idx
  rw [decode_eq_foldr]
  simp only [opcodeTable, List.foldr_cons, List.foldr_nil, OpcodeRow.answer, ringField_eq, kickField_eq, idxField_eq]
  rfl

/-- Settles O1: each word is a concrete one, read by evaluation. -/
theorem decodeReadsTheSpecsWords : Obligations.DecodeReadsTheSpecsWords := by
  unfold Obligations.DecodeReadsTheSpecsWords
  decide

end Sys2Proof

/-! PROOFS. The step of a scheduled register access (spec/30_encoding.md R301 to R303, R322 to R324). -/

namespace Sys2Proof.Machine

/-! Moves of the schedule that are no `CMD` write. -/

theorem step_of_move_ok {s t : State} {m : Move} {rest : List Input} (hv : s.cfg.valid = true)
    (he : s.env = .act m :: rest) (hm : m.command s.cfg = none) (h : m.apply { s with env := rest } = .ok t) :
    step s = .next t := by
  rw [step_move hv he hm, moveOutcome, h]

theorem step_of_move_refuse {s : State} {m : Move} {r : Refusal} {rest : List Input} (hv : s.cfg.valid = true)
    (he : s.env = .act m :: rest) (hm : m.command s.cfg = none)
    (h : m.apply { s with env := rest } = .error (.refuse r)) : step s = .refused r := by
  rw [step_move hv he hm, moveOutcome, h]

/-- Only a write at offset 0 is a `CMD` write (R302). -/
theorem command_regWrite_of_ne {c : Config} {a n : Nat} (v : Word) (h : windowOffset c a n ≠ some 0) :
    (Move.regWrite a n v).command c = none :=
  if_neg h

theorem moveRegRead_of_offset {s : State} {a n off : Nat} (h : windowOffset s.cfg a n = some off) :
    moveRegRead a n s = .ok (s.regLoad off) := by
  simp only [moveRegRead, h]

theorem moveRegRead_of_none {s : State} {a n : Nat} (h : windowOffset s.cfg a n = none) :
    moveRegRead a n s = .error (.refuse .registerAccess) := by
  simp only [moveRegRead, h]

theorem moveRegWrite_of_offset {s : State} {a n off : Nat} {v : Word} (h : windowOffset s.cfg a n = some off) :
    moveRegWrite a n v s = .ok (s.regStore off v) := by
  simp only [moveRegWrite, h]

theorem moveRegWrite_of_none {s : State} {a n : Nat} {v : Word} (h : windowOffset s.cfg a n = none) :
    moveRegWrite a n v s = .error (.refuse .registerAccess) := by
  simp only [moveRegWrite, h]

/-- The accesses R301 gives no meaning. -/
theorem windowOffset_eq_none {c : Config} {a n : Nat}
    (h : n ≠ 4 ∨ a < c.blkBase ∨ c.blkBase + 1024 ≤ a ∨ (a - c.blkBase) % 4 ≠ 0) : windowOffset c a n = none := by
  refine if_neg fun ⟨hn, hlow, hhigh, hal⟩ => ?_
  unfold windowSize at hhigh
  omega

/-- Settles O37: an aligned offset inside the window is a register's, and its load changes only the list of reads. -/
theorem registerReadReturnsValue : Obligations.RegisterReadReturnsValue := by
  intro s off rest hv hal hlt he
  exact step_of_move_ok hv he rfl (moveRegRead_of_offset (windowOffset_blkBase_add s.cfg hlt hal))

/-- Settles O38: such an access reaches no register, so it is no `CMD` write either. -/
theorem oddRegisterAccessRefused : Obligations.OddRegisterAccessRefused := by
  intro s a n rest hv hodd
  have hnone : windowOffset s.cfg a n = none := windowOffset_eq_none hodd
  refine ⟨fun he => step_of_move_refuse hv he rfl (moveRegRead_of_none hnone), fun v he => ?_⟩
  have hcmd : (Move.regWrite a n v).command s.cfg = none := command_regWrite_of_ne v (by simp [hnone])
  exact step_of_move_refuse hv he hcmd (moveRegWrite_of_none hnone)

/-- Settles O39: the write reaches the register at its offset, which is not `CMD`. -/
theorem registerWrites : Obligations.RegisterWrites := by
  intro s off v rest hv hal hlt he hoff
  have hwin := windowOffset_blkBase_add s.cfg hlt hal
  have hcmd : (Move.regWrite (s.cfg.blkBase + off) 4 v).command s.cfg = none :=
    command_regWrite_of_ne v (by simp [hwin, hoff])
  rw [step_of_move_ok hv he hcmd (moveRegWrite_of_offset hwin), State.regStore, if_neg hoff]

/-! The `CMD` write of a word. -/

theorem issueWord_of_decode_ok {w : Word} {i : Instr} (h : decode w = .ok i) (s : State) :
    issueWord exec w s = exec i s := by
  simp only [issueWord, h]

/-- R323: a word that is no command, written to a block that is left alone, ends with its command error. -/
theorem issueWord_of_decode_error {w : Word} {e : DecodeError} {s : State} (h : decode w = .error e)
    (hr : s.ready = true) : issueWord exec w s = .next (s.afterError (decodeErrCode e)) := by
  have hrun : rejectWord w e s = .next ((s.accept w).complete 0 (decodeErrCode e)) :=
    (issue_accepting (State.ready_accepting hr)).trans
      (Prog.outcome_halt (failWith_quiet _ (State.accept_quiet w (State.ready_quiet hr))))
  have hend : (s.accept w).complete 0 (decodeErrCode e) = s.afterError (decodeErrCode e) := by
    apply State.eq_of_fields
    case h_seq => exact (State.ready_idle hr).symm
    all_goals rfl
  simp only [issueWord, h]
  rw [hrun, hend]

/-- The statements' table of R322 is the decoder's. -/
theorem commandRows_eq : commandRows = opcodeTable.map fun row => (row.op.toNat, row.mask, row.pattern) := rfl

/-- Settles O6: a word without a row, and a word that fails its row's mask test, are the two that do not decode. -/
theorem undecodableWordEndsInError : Obligations.UndecodableWordEndsInError := by
  intro s w rest hv he hr
  rw [step_of_cmdWrite hv he, commandRows_eq]
  constructor
  · intro hop
    have hrow : ∀ row ∈ opcodeTable, w.toNat % 256 ≠ row.op.toNat := fun row hmem heq =>
      hop (heq ▸ List.mem_map_of_mem (List.mem_map_of_mem hmem))
    exact issueWord_of_decode_error (decode_of_no_row hrow) hr
  · intro op mask pattern hmem hop hmask
    obtain ⟨row, hrow, heq⟩ := List.mem_map.mp hmem
    cases heq
    have hdec : decode w = .error .reserved := (decode_of_row hrow hop).trans (if_neg hmask)
    exact issueWord_of_decode_error hdec hr

theorem State.withFetchWord_toNat (s : State) (w : Word) : s.withFetchWord 32 w.toNat = s.offerCommand w := by
  rw [State.withFetchWord, Nat.mod_eq_of_lt w.isLt, BitVec.ofNat_toNat, BitVec.setWidth_eq]

/-- Settles O5: the step of a `CMD` write hands the word to the decoder, whichever way it came into the schedule. -/
theorem stepRunsDecodedCommand : Obligations.StepRunsDecodedCommand := by
  intro s w i hv hdec
  constructor
  · intro rest he
    rw [step_of_cmdWrite hv he, issueWord_of_decode_ok hdec]
  · rw [State.withFetchWord_toNat, step_of_cmdWrite (s := s.offerCommand w) hv rfl, issueWord_of_decode_ok hdec]
    rfl

end Sys2Proof.Machine

/-! PROOFS. What the registers read (spec/30_encoding.md R300 to R311): `STATUS` and `PARAMS` as numbers, and the
register of each offset of the map. -/

namespace Sys2Proof.Machine

/-! `STATUS` and `PARAMS` (R305, R310). -/

/-- `STATUS` as a number. -/
theorem State.statusWord_toNat (s : State) : s.statusWord.toNat
    = s.status.faulted.toNat * 2 ^ 31 + s.status.fcode.code.toNat * 2 ^ 16 + s.status.err.code.toNat * 2 ^ 8
      + s.status.cmdOverrun.toNat * 2 ^ 2 + s.status.trunc.toNat * 2 + s.busy.toNat := by
  simp only [State.statusWord, toNat_append_add, BitVec.toNat_ofBool, BitVec.ofNat_eq_ofNat, BitVec.toNat_ofNat]
  omega

/-- `BUSY` as a bit (R104). -/
theorem State.busy_toNat (s : State) : s.busy.toNat = if s.seq ≠ .idle ∧ s.status.faulted = false then 1 else 0 := by
  by_cases hi : s.seq = .idle <;> cases hf : s.status.faulted <;> simp [State.busy, hi, hf]

/-- Settles O40: the fields lie apart in the number of `STATUS`. -/
theorem statusWordFields : Obligations.StatusWordFields := by
  intro s w
  have hw : w = _ := s.statusWord_toNat
  have hfaulted := s.status.faulted.toNat_lt
  have hfcode := s.status.fcode.code.isLt
  have herr := s.status.err.code.isLt
  have hover := s.status.cmdOverrun.toNat_lt
  have htrunc := s.status.trunc.toNat_lt
  have hbusy := s.busy.toNat_lt
  have herrField : w / 2 ^ 8 % 2 ^ 8 = s.status.err.code.toNat := by omega
  have hfcodeField : w / 2 ^ 16 % 2 ^ 8 = s.status.fcode.code.toNat := by omega
  rw [← s.busy_toNat, herrField, hfcodeField]
  refine ⟨by omega, by omega, by omega, by omega, ?_, ?_, by omega, by omega⟩
  · cases s.status.err <;> rfl
  · cases s.status.fcode <;> rfl

/-- `PARAMS` as a number, its two sizes cut to the width of their fields. -/
theorem paramsWord_toNat (c : Config) : (paramsWord c).toNat
    = c.rxReturnKick.toNat * 2 ^ 16 + c.maxChannels % 32 * 2 ^ 8 + c.log2N % 16 := by
  simp only [paramsWord, toNat_append_add, BitVec.toNat_ofBool, BitVec.ofNat_eq_ofNat, BitVec.toNat_ofNat]
  omega

/-- Settles O41: the fields lie apart, and the sizes of a legal configuration fit theirs (R9). -/
theorem paramsWordFields : Obligations.ParamsWordFields := by
  intro s hv w
  have hw : w = _ := paramsWord_toNat s.cfg
  obtain ⟨hlog, -, hmax, -⟩ := s.cfg.valid_iff.mp hv
  have hkick := s.cfg.rxReturnKick.toNat_lt
  refine ⟨?_, ?_, ?_, ?_, ?_, ?_⟩ <;> omega

/-! The blocks of the map (R300). -/

/-- Where the registers of ring pair `r` begin (R306). -/
def ringBase (r : RingId) : Nat := if r = .rx then 0x040 else 0x060

theorem State.regValue_ringBlock (s : State) (r : RingId) {off : Nat} (h : off < 0x20) :
    s.regValue (ringBase r + off) = ringReg (s.ring r) off := by
  cases r <;> simp (disch := omega) only [State.regValue, ringBase, State.ring, if_neg, if_pos, reduceCtorEq,
    if_true, if_false, Nat.add_sub_cancel_left]

theorem State.regValue_slotBlock (s : State) {i off : Nat} (hi : i < 16) (h : off < 0x10) :
    s.regValue (0x100 + 0x10 * i + off) = (s.slots[i]?).elim 0 (slotReg · off) := by
  have hslot : (0x100 + 0x10 * i + off - 0x100) / 16 = i := by omega
  have hoff : (0x100 + 0x10 * i + off - 0x100) % 16 = off := by omega
  simp (disch := omega) only [State.regValue, if_neg, if_pos, hslot, hoff]
  cases s.slots[i]? <;> rfl

theorem State.regValue_nameBlock (s : State) {i k : Nat} (hi : i < 16) (h : k < 8) :
    s.regValue (0x200 + 0x20 * i + 4 * k) = (s.slots[i]?).elim 0 (nameReg · k) := by
  have hslot : (0x200 + 0x20 * i + 4 * k - 0x200) / 32 = i := by omega
  have hoff : (0x200 + 0x20 * i + 4 * k - 0x200) % 32 / 4 = k := by omega
  simp (disch := omega) only [State.regValue, if_neg, if_pos, hslot, hoff]
  cases s.slots[i]? <;> rfl

/-- The offsets of the map that no register has (R307, R308) and `CMD` (R302). -/
theorem State.regValue_reserved (s : State) {off : Nat}
    (h : off = 0 ∨ (0x028 ≤ off ∧ off < 0x040) ∨ (0x080 ≤ off ∧ off < 0x100)) : s.regValue off = 0 := by
  simp (disch := omega) only [State.regValue, if_neg]

/-- Settles O43: each offset is compared with those of the map. -/
theorem registerMap : Obligations.RegisterMap :=
  fun s => ⟨rfl, rfl, rfl, rfl, rfl, rfl, rfl, fun _ h => s.regValue_reserved h⟩

/-! Little-endian names (R311). -/

/-- Four bytes in little-endian order are the word that has the last one on top (R220). -/
theorem ofNat_leValue_four (a b c d : Byte) : BitVec.ofNat 32 (leValue [a, b, c, d]) = d ++ c ++ b ++ a := by
  apply BitVec.eq_of_toNat_eq
  have ha := a.isLt
  have hb := b.isLt
  have hc := c.isLt
  have hd := d.isLt
  simp only [toNat_append_add, BitVec.toNat_ofNat, leValue]
  omega

theorem take_four_drop {bs : List Byte} {j : Nat} (h : j + 3 < bs.length) :
    (bs.drop j).take 4 = [bs.getD j 0, bs.getD (j + 1) 0, bs.getD (j + 2) 0, bs.getD (j + 3) 0] := by
  rw [List.drop_eq_getElem_cons (by omega), List.drop_eq_getElem_cons (by omega), List.drop_eq_getElem_cons (by omega),
    List.drop_eq_getElem_cons h]
  simp (disch := omega) only [List.take_succ_cons, List.take_zero, List.getD_eq_getElem]

/-- `CH_NAME[i][k]` of a name of 32 bytes. -/
theorem nameReg_eq_append {slot : Slot} {k : Nat} (hlen : slot.name.length = 32) (hk : k < 8) :
    nameReg slot k = slot.name.getD (4 * k + 3) 0 ++ slot.name.getD (4 * k + 2) 0 ++ slot.name.getD (4 * k + 1) 0
      ++ slot.name.getD (4 * k) 0 := by
  rw [nameReg, take_four_drop (by omega), ofNat_leValue_four]

/-- `INITED` as a register (R306). -/
theorem ringReg_inited (c : RingCtx) : ringReg c 0x00 = if c.inited then 1 else 0 := by
  rw [ringReg, if_pos rfl]
  cases c.inited <;> rfl

/-- The two ring positions are 16 bits wide (R110). -/
theorem ringReg_lastAvail_toNat (c : RingCtx) : (ringReg c 0x14).toNat = c.lastAvail.toNat :=
  BitVec.toNat_setWidth_of_le (b := c.lastAvail) (show 16 ≤ 32 by decide)

theorem ringReg_usedHead_toNat (c : RingCtx) : (ringReg c 0x18).toNat = c.usedHead.toNat :=
  BitVec.toNat_setWidth_of_le (b := c.usedHead) (show 16 ≤ 32 by decide)

/-- Settles O42: each register lies in the block of a ring pair, of a slot or of a name, and reads that block's field. -/
theorem contextRegisters : Obligations.ContextRegisters := by
  intro s
  constructor
  · intro r b
    have hreg (off : Nat) (h : off < 0x20) : s.regValue (b + off) = ringReg (s.ring r) off := s.regValue_ringBlock r h
    refine ⟨(hreg 0x00 (by decide)).trans (ringReg_inited _), hreg 0x04 (by decide), hreg 0x08 (by decide),
      hreg 0x0C (by decide), hreg 0x10 (by decide), ?_, ?_, hreg 0x1C (by decide)⟩
    · rw [hreg 0x14 (by decide), ringReg_lastAvail_toNat]
    · rw [hreg 0x18 (by decide), ringReg_usedHead_toNat]
  · intro i hi
    have hslot (off : Nat) (h : off < 0x10) := s.regValue_slotBlock hi h
    have hname (k : Nat) (h : k < 8) := s.regValue_nameBlock hi h
    cases hs : s.slots[i]? with
    | none =>
      simp only [hs, Option.elim] at hslot hname
      exact ⟨fun k hk => hslot _ (by omega), hname⟩
    | some slot =>
      have hfield (off : Nat) (h : off < 0x10) : s.regValue (0x100 + off + 0x10 * i) = slotReg slot off := by
        rw [Nat.add_right_comm, hslot off h, hs, Option.elim]
      refine ⟨?_, hfield 0x4 (by decide), hfield 0x8 (by decide), hfield 0xC (by decide), fun hlen k hk => ?_⟩
      · rw [show s.regValue (0x100 + 0x10 * i) = slot.state.code from hfield 0x0 (by decide)]
        cases slot.state <;> rfl
      · rw [hname k hk, hs, Option.elim, nameReg_eq_append hlen hk]

end Sys2Proof.Machine

/-! PROOFS. The ring commands when they run alone (spec/40_ring_engine.md R400 to R411): the whole outcome of each, from
its acceptance to its end or fault. -/

namespace Sys2Proof.Machine

/-! Index arithmetic (R408). -/

/-- Settles O19: the ring size divides 2^16, so the wrap of the position is none of its array slot. -/
theorem indexWrapKeepsSlots : Obligations.IndexWrapKeepsSlots := by
  intro c p hc
  have hdvd : c.n ∣ 2 ^ 16 := pow_dvd_pow 2 (by omega)
  have hpos : 0 < c.n := Nat.two_pow_pos _
  refine ⟨?_, Nat.mod_lt _ hpos⟩
  calc (p + 1).toNat % c.n
      = (p.toNat + 1) % 2 ^ 16 % c.n := by rw [BitVec.toNat_add]; rfl
    _ = (p.toNat + 1) % c.n := Nat.mod_mod_of_dvd _ hdvd
    _ = (p.toNat % c.n + 1) % c.n := (Nat.mod_add_mod _ _ _).symm

/-! From the acceptance of a command to its end (R103, R105, R106). -/

section
variable {α : Type} {p : Prog α} {s t : State} {a : α}

theorem Prog.outcome_bind_ok {f : α → Prog Unit} (hp : p s = .ok (a, t)) :
    Prog.outcome (p >>= f) s = (f a).outcome t := by
  unfold Prog.outcome
  rw [Prog.bind_ok hp]

theorem Prog.outcome_bind_halt {f : α → Prog Unit} (hp : p s = .error (.halt t)) :
    Prog.outcome (p >>= f) s = .next t :=
  Prog.outcome_halt (Prog.bind_error hp)

/-- A command that ends with what its last operation answers (R106). -/
theorem Prog.outcome_bind_finish {res : α → Word} (hp : p s = .ok (a, t)) (hq : t.quiet = true) :
    Prog.outcome (p >>= fun x => finish (res x)) s = .next (t.complete (res a) .ok) :=
  (Prog.outcome_bind_ok hp).trans (Prog.outcome_ok (finish_quiet _ hq))

end

theorem State.started_quiet {s : State} (i : Instr) (h : s.ready = true) : (s.started i).quiet = true :=
  State.ready_quiet (s := s) h

@[simp] theorem State.started_ring (s : State) (i : Instr) (r : RingId) : (s.started i).ring r = s.ring r := by
  cases r <;> rfl

@[simp] theorem State.started_peer (s : State) (i : Instr) (r : RingId) : (s.started i).peer r = s.peer r := by
  cases r <;> rfl

/-- A command that runs alone starts with its operands latched. -/
theorem issue_ready {s : State} (i : Instr) (body : Prog Unit) (h : s.ready = true) :
    issue (encode i) body s = body.outcome (s.started i) :=
  issue_accepting (State.ready_accepting h)

/-- A command leaves the sequencer as it found it. -/
theorem State.eq_of_idle {s t u : State} (h : s.ready = true) (hseq : u.seq = s.seq)
    (ht : t = { u with seq := .idle }) : t = u := by
  rw [ht, ← State.ready_idle h, ← hseq]

theorem State.complete_started {s : State} (i : Instr) (res : Word) (err : ErrCode) (h : s.ready = true) :
    (s.started i).complete res err = { s with result := res, status := s.status.ended false err } :=
  State.eq_of_idle h rfl rfl

theorem issue_of_finishes {s t : State} {i : Instr} {body : Prog Unit} (h : s.ready = true)
    (hb : body (s.started i) = .ok ((), t)) : issue (encode i) body s = .next t :=
  (issue_ready i body h).trans (Prog.outcome_ok hb)

theorem issue_of_halts {s t : State} {i : Instr} {body : Prog Unit} (h : s.ready = true)
    (hb : body (s.started i) = .error (.halt t)) : issue (encode i) body s = .next t :=
  (issue_ready i body h).trans (Prog.outcome_halt hb)

/-- A command error changes nothing else (R700). -/
theorem issue_of_fails {s : State} {i : Instr} {body : Prog Unit} {err : ErrCode} (h : s.ready = true)
    (hb : body (s.started i) = .error (.halt ((s.started i).complete 0 err))) :
    issue (encode i) body s = .next (s.afterError err) := by
  rw [issue_of_halts h hb, State.complete_started i 0 err h]
  rfl

/-- A command whose pseudocode begins with the check of its ring pair (R402, R403, R404, R510, R620). -/
theorem issue_of_not_inited {s : State} {i : Instr} {r : RingId} {body : Unit → Prog Unit} (h : s.ready = true)
    (hi : (s.ring r).inited = false) : issue (encode i) (requireInit r >>= body) s = .next (s.afterError .notInit) := by
  have hoff : ((s.started i).ring r).inited = false := by rw [State.started_ring, hi]
  exact issue_of_fails h (Prog.bind_error (requireInit_off (State.started_quiet i h) hoff))

theorem issue_of_inited {s : State} {i : Instr} {r : RingId} {body : Unit → Prog Unit} (h : s.ready = true)
    (hi : (s.ring r).inited ≠ false) :
    issue (encode i) (requireInit r >>= body) s = (body ()).outcome (s.started i) := by
  have hon : ((s.started i).ring r).inited = true := by rw [State.started_ring, eq_true_of_ne_false hi]
  rw [issue_ready i _ h, Prog.outcome_bind_ok (requireInit_on hon)]

/-- Settles O17: each of these commands begins with the check of its ring pair, CH_SEND once it has found its slot. -/
theorem notInitialisedCommandsFail : Obligations.NotInitialisedCommandsFail := by
  intro s h
  refine ⟨fun r hi => ⟨issue_of_not_inited h hi, issue_of_not_inited h hi, fun _ _ => issue_of_not_inited h hi⟩,
    fun hi => ⟨issue_of_not_inited (r := .tx) h hi, fun idx slot hs => issue_of_fails h ?_⟩,
    fun hi => issue_of_not_inited (r := .rx) h hi⟩
  have hslot : sendingSlot (s.started (.chSend idx)).cfg (s.started (.chSend idx)).slots idx = some slot :=
    sendingSlot_of_sendsOn hs
  unfold chSendBody
  rw [Prog.bind_ok (getCfg_apply _), Prog.bind_ok (getSlots_apply _), hslot]
  exact Prog.bind_error (requireInit_off (r := .tx) (State.started_quiet _ h) hi)

/-! RING_INIT (R400, R401). -/

theorem layoutUsed_eq_usedAddrFor (size base : Nat) : layoutUsed size base = usedAddrFor size base := by
  unfold layoutUsed alignUp page usedAddrFor
  omega

theorem layoutLen_eq_regionLenFor (size base : Nat) : layoutLen size base = regionLenFor size base := by
  unfold layoutLen regionLenFor
  rw [layoutUsed_eq_usedAddrFor]

/-- R400 with its two errors, in their order. -/
theorem ringInitBody_quiet {s : State} (r : RingId) (hq : s.quiet = true) :
    ringInitBody r s =
      if s.seq.latched.arg0.toNat % 16 ≠ 0 then .error (.halt (s.complete 0 .badAlign))
      else if addrSpace < s.seq.latched.arg0.toNat + layoutLen s.cfg.n s.seq.latched.arg0.toNat then
        .error (.halt (s.complete 0 .range))
      else .ok ((), (initRing r s.seq.latched.arg0 s).complete 0 .ok) := by
  unfold ringInitBody
  rw [Prog.bind_ok (operand0_apply s), Prog.bind_ok (getCfg_apply s)]
  split_ifs
  · exact failWith_quiet _ hq
  · exact failWith_quiet _ hq
  · have hq' : (initRing r s.seq.latched.arg0 s).quiet = true := (State.quiet_congr (initRing_env s r _)).trans hq
    rw [Prog.bind_ok (act_quiet hq), finish_quiet _ hq']

/-- RING_INIT leaves the peer its used-read index and what it has read of the used ring (log 5). -/
theorem initRing_peer (r : RingId) (base : Word) (s : State) :
    ((initRing r base s).peer r).usedRead = (s.peer r).usedRead
      ∧ ((initRing r base s).peer r).usedSeen = (s.peer r).usedSeen
      ∧ ((initRing r base s).peer r).entryId = (s.peer r).entryId
      ∧ ((initRing r base s).peer r).entryLen = (s.peer r).entryLen := by
  cases r <;> exact ⟨rfl, rfl, rfl, rfl⟩

theorem initRing_peer_otherRing (r : RingId) (base : Word) (s : State) :
    (initRing r base s).peer (otherRing r) = s.peer (otherRing r) := by
  cases r <;> rfl

/-- The ring context that RING_INIT sets (R400), the rest of the block as the end of the command leaves it (R106). -/
theorem initRing_complete {s : State} (r : RingId) (h : s.ready = true) :
    let t := (initRing r s.arg0 (s.started (.ringInit r))).complete 0 .ok
    t = { State.setRing { s with result := 0, status := s.status.ended false .ok } r
            { inited := true
              descAddr := s.arg0
              availAddr := BitVec.ofNat 32 (s.arg0.toNat + 16 * s.cfg.n)
              usedAddr := BitVec.ofNat 32 (usedAddrFor s.cfg.n s.arg0.toNat)
              regionLen := BitVec.ofNat 32 (regionLenFor s.cfg.n s.arg0.toNat)
              lastAvail := 0
              usedHead := 0
              held := [] } with
          peerRx := t.peerRx, peerTx := t.peerTx, peerWrote := t.peerWrote } := by
  rw [← layoutLen_eq_regionLenFor, ← layoutUsed_eq_usedAddrFor]
  cases r <;> exact State.eq_of_idle h rfl rfl

/-- Settles O12: the two checks and the assignments of R400; what changes of the peer is that of its ring pair. -/
theorem ringInitSetsUpRing : Obligations.RingInitSetsUpRing := by
  intro r s h base size
  have hbody := ringInitBody_quiet r (State.started_quiet (.ringInit r) h)
  by_cases halign : base % 16 ≠ 0
  · rw [if_pos halign]
    exact issue_of_fails h (hbody.trans (if_pos halign))
  rw [if_neg halign]
  replace hbody := hbody.trans (if_neg halign)
  by_cases hrange : 2 ^ 32 < base + regionLenFor size base
  · rw [if_pos hrange]
    rw [← layoutLen_eq_regionLenFor] at hrange
    exact issue_of_fails h (hbody.trans (if_pos hrange))
  rw [if_neg hrange]
  rw [← layoutLen_eq_regionLenFor] at hrange
  replace hbody := hbody.trans (if_neg hrange)
  obtain ⟨hread, hseen, hid, hlen⟩ := initRing_peer r s.arg0 (s.started (.ringInit r))
  refine ⟨_, issue_of_finishes h hbody, initRing_complete r h, ?_⟩
  rw [State.complete_peer, State.complete_peer, initRing_peer_otherRing]
  exact ⟨hread, hseen, hid, hlen, State.started_peer s _ _⟩

/-! RING_TRY_TAKE and RING_HAS_INCOMING (R402, R403). -/

/-- TAKE(r) right after the acceptance of a command (R406). -/
theorem take_started {s : State} (i : Instr) (r : RingId) (h : s.ready = true) :
    take r (s.started i) =
      if s.admits (s.ring r).availIdxAddr 2 = false then .error (.halt ((s.started i).takeFault .busError))
      else if s.availIdx r = (s.ring r).lastAvail then .ok (none, (s.started i).afterHead r)
      else if s.admits (s.nextEntryAddr r) 2 = false then
        .error (.halt (((s.started i).afterHead r).takeFault .busError))
      else if s.cfg.n ≤ s.nextEntry r then
        .error (.halt (State.takeFault .availIndexRange
          { (s.started i).afterHead r with history := s.history ++ s.takeEvents r }))
      else .ok (some (s.nextEntry r), (s.started i).afterTake r) := by
  cases r <;> exact take_quiet (State.started_quiet i h)

/-- The state a RING_TRY_TAKE of the next entry ends in (R406, R407, R106). -/
theorem State.complete_afterTake {s : State} (i : Instr) (r : RingId) (res : Word) (h : s.ready = true) :
    ((s.started i).afterTake r).complete res .ok =
      State.setRing
        { s with
          result := res
          status := s.status.ended false .ok
          verdicts := s.takeVerdicts r (s.nextEntry r)
          history := s.history ++ s.takeEvents r }
        r { s.ring r with
            lastAvail := (s.ring r).lastAvail + 1
            held := heldInsert (s.nextEntry r) (s.ring r).held } := by
  cases r <;> exact State.eq_of_idle h rfl rfl

/-- The state a command ends in that only read `avail.idx` (R405, R106). -/
theorem State.complete_afterHead {s : State} (i : Instr) (r : RingId) (res : Word) (h : s.ready = true) :
    ((s.started i).afterHead r).complete res .ok =
      { s with
        result := res
        status := s.status.ended false .ok
        verdicts := s.headVerdicts r
        history := s.history ++ [s.headEvent r] } := by
  cases r <;> exact State.eq_of_idle h rfl rfl

theorem State.afterTake_quiet {s : State} (r : RingId) (h : s.quiet = true) : (s.afterTake r).quiet = true := by
  cases r <;> exact h

/-- Settles O13: a RING_TRY_TAKE is the check of its ring pair and a TAKE. -/
theorem ringTryTakeOutcome : Obligations.RingTryTakeOutcome := by
  intro r s h c run
  have htake := take_started (.ringTryTake r) r h
  have hq := State.started_quiet (.ringTryTake r) h
  by_cases hinit : c.inited = false
  · rw [if_pos hinit]
    exact issue_of_not_inited h hinit
  rw [if_neg hinit]
  refine (issue_of_inited h hinit).trans ?_
  split_ifs with hidx hempty hentry hrange
  · rw [if_pos hidx] at htake
    exact Prog.outcome_bind_halt htake
  · rw [if_neg hidx, if_pos hempty] at htake
    refine (Prog.outcome_bind_finish htake hq).trans ?_
    rw [State.complete_afterHead _ r _ h, State.headVerdicts_of_empty hempty]
    rfl
  · rw [if_neg hidx, if_neg hempty, if_pos hentry] at htake
    exact Prog.outcome_bind_halt htake
  · rw [if_neg hidx, if_neg hempty, if_neg hentry, if_pos hrange] at htake
    exact Prog.outcome_bind_halt htake
  · rw [if_neg hidx, if_neg hempty, if_neg hentry, if_neg hrange] at htake
    refine (Prog.outcome_bind_finish htake (State.afterTake_quiet r hq)).trans ?_
    rw [State.complete_afterTake _ r _ h]
    rfl

/-- AVAIL_HEAD(r) right after the acceptance of a command (R405). -/
theorem availHead_started {s : State} (i : Instr) (r : RingId) (h : s.ready = true) :
    availHead r (s.started i) =
      if s.admits (s.ring r).availIdxAddr 2 then .ok (s.availIdx r, (s.started i).afterHead r)
      else .error (.halt ((s.started i).takeFault .busError)) := by
  cases r <;> exact availHead_quiet (State.started_quiet i h)

/-- Settles O14: a RING_HAS_INCOMING is the check of its ring pair and an AVAIL_HEAD, whose answer it compares. -/
theorem ringHasIncomingAnswers : Obligations.RingHasIncomingAnswers := by
  intro r s h c run
  have hhead := availHead_started (.ringHasIncoming r) r h
  have hq := State.started_quiet (.ringHasIncoming r) h
  by_cases hinit : c.inited = false
  · rw [if_pos hinit]
    exact issue_of_not_inited h hinit
  rw [if_neg hinit]
  refine (issue_of_inited h hinit).trans ?_
  by_cases hidx : s.admits c.availIdxAddr 2 = false
  · rw [if_pos hidx]
    rw [if_neg (ne_true_of_eq_false hidx)] at hhead
    exact Prog.outcome_bind_halt hhead
  · rw [if_neg hidx]
    rw [if_pos (eq_true_of_ne_false hidx)] at hhead
    refine (Prog.outcome_bind_ok hhead).trans ((Prog.outcome_bind_finish (getRing_apply r _) (by exact hq)).trans ?_)
    rw [State.complete_afterHead _ r _ h, State.afterHead_ring, State.started_ring]

/-! RING_PUBLISH (R404). -/

theorem memWrite_backed_of_lt {s : State} {a v : Nat} {w : Width} (h : s.quiet = true)
    (hb : s.admits a w.bytes = true) (hv : v < 2 ^ (8 * w.bytes)) :
    memWrite a w v s = .ok ((), { s with
      mem := s.mem.writeLE a w.bytes v, history := s.history ++ [.wr .block a w.bytes v] }) := by
  rw [memWrite_backed h hb, State.storeBy, Nat.mod_eq_of_lt hv]

theorem memWrite_unbacked {s : State} {a v : Nat} {w : Width} (h : s.quiet = true)
    (hb : s.admits a w.bytes = false) : memWrite a w v s = .error (.halt (s.takeFault .busError)) := by
  rw [memWrite_quiet h, if_neg (ne_true_of_eq_false hb)]

/-- PUBLISH(r, d, len, kick), whichever of its writes the platform backs (R410). -/
theorem publish_quiet {s : State} {r : RingId} {c : RingCtx} {d len : Nat} {kick : Bool} (h : s.quiet = true)
    (hc : s.ring r = c) (hd : d < 2 ^ 32) (hl : len < 2 ^ 32) :
    let e := c.nextUsedAddr s.cfg.n
    let u := s.notePublishNotHeld (!c.held.contains d)
    publish r d len kick s =
      if s.admits e 4 = false then .error (.halt (u.takeFault .busError))
      else if s.admits (e + 4) 4 = false then
        .error (.halt (State.takeFault .busError
          { u with mem := s.mem.writeLE e 4 d, history := s.history ++ [.wr .block e 4 d] }))
      else if s.admits c.usedIdxAddr 2 = false then
        .error (.halt (State.takeFault .busError
          { u with
            mem := (s.mem.writeLE e 4 d).writeLE (e + 4) 4 len
            history := s.history ++ [.wr .block e 4 d, .wr .block (e + 4) 4 len, .barrier] }))
      else .ok ((), s.afterPublish r d len kick) := by
  subst hc
  intro e u
  by_cases hb : s.publishBacked r
  · obtain ⟨h1, h2, h3⟩ := hb
    rw [if_neg (ne_false_of_eq_true h1), if_neg (ne_false_of_eq_true h2), if_neg (ne_false_of_eq_true h3)]
    exact publish_backed h ⟨h1, h2, h3⟩ hd hl
  unfold publish
  rw [Prog.bind_ok (ghost_apply _ _), Prog.bind_ok (getRing_apply r _), Prog.bind_ok (getCfg_apply _),
    State.notePublishNotHeld_ring, State.notePublishNotHeld_cfg]
  by_cases h1 : s.admits e 4 = false
  · rw [if_pos h1]
    exact Prog.bind_error (memWrite_unbacked h h1)
  have h1' := eq_true_of_ne_false h1
  rw [if_neg h1]
  refine (Prog.bind_ok (memWrite_backed_of_lt (s := u) (a := e) (w := .b4) h h1' hd)).trans ?_
  by_cases h2 : s.admits (e + 4) 4 = false
  · rw [if_pos h2]
    exact Prog.bind_error (memWrite_unbacked h h2)
  have h2' := eq_true_of_ne_false h2
  have h3 : s.admits (s.ring r).usedIdxAddr 2 = false := eq_false_of_ne_true fun h3 => hb ⟨h1', h2', h3⟩
  rw [if_neg h2, if_pos h3]
  refine (Prog.bind_ok (memWrite_backed_of_lt (a := e + 4) (w := .b4) (by exact h) (by exact h2') hl)).trans ?_
  refine (Prog.bind_ok (barrier_quiet (by exact h))).trans ?_
  refine (Prog.bind_error (memWrite_unbacked (by exact h) (by exact h3))).trans ?_
  simp only [State.emit, List.append_assoc, List.cons_append, List.nil_append]
  rfl

/-- The state a RING_PUBLISH ends in (R410, R106). -/
theorem State.complete_afterPublish {s : State} (i : Instr) (r : RingId) (d len : Nat) (kick : Bool)
    (h : s.ready = true) :
    ((s.started i).afterPublish r d len kick).complete 0 .ok =
      State.setRing
        { s with
          result := 0
          status := s.status.ended false .ok
          verdicts := { s.verdicts with
            publishNotHeld := s.verdicts.publishNotHeld || !(s.ring r).held.contains d }
          mem := publishMem s.mem (s.ring r) s.cfg.n d len
          history := s.history ++ publishEvents (s.ring r) s.cfg.n d len kick }
        r { s.ring r with usedHead := (s.ring r).usedHead + 1, held := heldErase d (s.ring r).held } := by
  cases r <;> exact State.eq_of_idle h rfl rfl

theorem State.afterPublish_quiet {s : State} (r : RingId) (d len : Nat) (kick : Bool) (h : s.quiet = true) :
    (s.afterPublish r d len kick).quiet = true := by
  cases r <;> exact h

theorem lt_of_ringPublish_wf {r : RingId} {kick : Bool} {idx : Nat} (h : (Instr.ringPublish r kick idx).wf = true) :
    idx < 2 ^ 32 := by
  have hle : idx ≤ 0xFFFF := of_decide_eq_true h
  omega

/-- A RING_PUBLISH on a ring pair in use, with an index in range: the PUBLISH, with the length it latched (R404). -/
theorem exec_ringPublish_of_inited {s : State} {r : RingId} {kick : Bool} {idx : Nat} (h : s.ready = true)
    (hi : (s.ring r).inited ≠ false) (hlt : ¬s.cfg.n ≤ idx) :
    exec (.ringPublish r kick idx) s
      = Prog.outcome (publish r idx s.arg0.toNat kick >>= fun _ => finish 0) (s.started (.ringPublish r kick idx)) := by
  refine (issue_of_inited h hi).trans ((Prog.outcome_bind_ok (getCfg_apply _)).trans ?_)
  refine (congrArg (fun p : Prog Unit => p.outcome _) (if_neg hlt)).trans ?_
  exact Prog.outcome_bind_ok (operand0_apply _)

/-- An index out of range (R404, R732). -/
theorem exec_ringPublish_badIndex {s : State} {r : RingId} {kick : Bool} {idx : Nat} (h : s.ready = true)
    (hi : (s.ring r).inited ≠ false) (hge : s.cfg.n ≤ idx) :
    exec (.ringPublish r kick idx) s = .next (s.afterError .badIndex) := by
  refine (issue_of_inited h hi).trans ((Prog.outcome_bind_ok (getCfg_apply _)).trans ?_)
  refine (congrArg (fun p : Prog Unit => p.outcome _) (if_pos hge)).trans ?_
  refine (Prog.outcome_halt (failWith_quiet _ (State.started_quiet _ h))).trans ?_
  rw [State.complete_started _ _ _ h, State.afterError]

/-- A RING_PUBLISH that ends: its ring pair in use, its index in range, its writes backed (R404, R410). -/
theorem exec_ringPublish_backed {s : State} {r : RingId} {kick : Bool} {idx : Nat}
    (hwf : (Instr.ringPublish r kick idx).wf = true) (h : s.ready = true) (hi : (s.ring r).inited ≠ false)
    (hlt : ¬s.cfg.n ≤ idx) (hb : s.publishBacked r) :
    exec (.ringPublish r kick idx) s
      = .next (((s.started (.ringPublish r kick idx)).afterPublish r idx s.arg0.toNat kick).complete 0 .ok) := by
  obtain ⟨h1, h2, h3⟩ := hb
  have hpub := publish_quiet (kick := kick) (State.started_quiet _ h) (State.started_ring s (.ringPublish r kick idx) r)
    (lt_of_ringPublish_wf hwf) s.arg0.isLt
  have hdone := hpub.trans ((if_neg (ne_false_of_eq_true h1)).trans ((if_neg (ne_false_of_eq_true h2)).trans
    (if_neg (ne_false_of_eq_true h3))))
  refine (exec_ringPublish_of_inited h hi hlt).trans ?_
  exact Prog.outcome_bind_finish hdone (State.afterPublish_quiet r _ _ _ (State.started_quiet _ h))

/-- Settles O15: a RING_PUBLISH is the check of its ring pair, that of its index, and a PUBLISH. -/
theorem ringPublishWritesUsedEntry : Obligations.RingPublishWritesUsedEntry := by
  intro r kick idx s hwf h c e len run noted
  by_cases hinit : c.inited = false
  · rw [if_pos hinit]
    exact issue_of_not_inited h hinit
  rw [if_neg hinit]
  by_cases hidx : s.cfg.n ≤ idx
  · rw [if_pos hidx]
    exact exec_ringPublish_badIndex h hinit hidx
  rw [if_neg hidx]
  have hexec := exec_ringPublish_of_inited (kick := kick) h hinit hidx
  have hpub := publish_quiet (kick := kick) (State.started_quiet _ h) (State.started_ring s (.ringPublish r kick idx) r)
    (lt_of_ringPublish_wf hwf) s.arg0.isLt
  by_cases h1 : s.admits e 4 = false
  · rw [if_pos h1]
    exact hexec.trans (Prog.outcome_bind_halt (hpub.trans (if_pos h1)))
  rw [if_neg h1]
  replace hpub := hpub.trans (if_neg h1)
  by_cases h2 : s.admits (e + 4) 4 = false
  · rw [if_pos h2]
    exact hexec.trans (Prog.outcome_bind_halt (hpub.trans (if_pos h2)))
  rw [if_neg h2]
  replace hpub := hpub.trans (if_neg h2)
  by_cases h3 : s.admits (c.usedAddr.toNat + 2) 2 = false
  · rw [if_pos h3]
    exact hexec.trans (Prog.outcome_bind_halt (hpub.trans (if_pos h3)))
  rw [if_neg h3]
  have hbacked : s.publishBacked r := ⟨eq_true_of_ne_false h1, eq_true_of_ne_false h2, eq_true_of_ne_false h3⟩
  rw [exec_ringPublish_backed hwf h hinit hidx hbacked, State.complete_afterPublish _ _ _ _ _ h, publishEvents,
    ← List.append_assoc]
  rfl

/-! What a PUBLISH leaves in memory (R410). -/

section
variable {m : Memory} {c : RingCtx} {size d len : Nat}

theorem RingCtx.usedIdxAddr_add_two_le_nextUsedAddr (c : RingCtx) (size : Nat) :
    c.usedIdxAddr + 2 ≤ c.nextUsedAddr size := by
  unfold RingCtx.usedIdxAddr RingCtx.nextUsedAddr RingCtx.usedEntryAddr
  omega

theorem publishMem_wf (hm : m.wf = true) : (publishMem m c size d len).wf = true :=
  Memory.wf_writeLE _ _ _ (Memory.wf_writeLE _ _ _ (Memory.wf_writeLE _ _ _ hm))

/-- The used entry's `id`. -/
theorem readLE_publishMem_id (hm : m.wf = true) (hd : d < 2 ^ 32) :
    (publishMem m c size d len).readLE (c.nextUsedAddr size) 4 = d := by
  have h1 := Memory.wf_writeLE (c.nextUsedAddr size) 4 d hm
  have h2 := Memory.wf_writeLE (c.nextUsedAddr size + 4) 4 len h1
  unfold publishMem
  rw [Memory.readLE_writeLE_outside h2 (.inr (c.usedIdxAddr_add_two_le_nextUsedAddr size)),
    Memory.readLE_writeLE_outside h1 (.inl le_rfl), Memory.readLE_writeLE hm hd]

/-- The used entry's `len`. -/
theorem readLE_publishMem_len (hm : m.wf = true) (hl : len < 2 ^ 32) :
    (publishMem m c size d len).readLE (c.nextUsedAddr size + 4) 4 = len := by
  have h1 := Memory.wf_writeLE (c.nextUsedAddr size) 4 d hm
  have h2 := Memory.wf_writeLE (c.nextUsedAddr size + 4) 4 len h1
  have hidx := c.usedIdxAddr_add_two_le_nextUsedAddr size
  unfold publishMem
  rw [Memory.readLE_writeLE_outside h2 (.inr (by omega)), Memory.readLE_writeLE h1 hl]

theorem readLE_publishMem_usedIdx (hm : m.wf = true) :
    (publishMem m c size d len).readLE c.usedIdxAddr 2 = (c.usedHead + 1).toNat :=
  Memory.readLE_writeLE (Memory.wf_writeLE _ _ _ (Memory.wf_writeLE _ _ _ hm)) (c.usedHead + 1).isLt

end

/-- Settles O16: memory after a RING_PUBLISH is that of its PUBLISH. -/
theorem ringPublishFrame : Obligations.RingPublishFrame := by
  intro r kick idx s hwf h hi hlt hb hm
  refine ⟨_, exec_ringPublish_backed hwf h (ne_false_of_eq_true hi) (by omega) hb, ?_⟩
  rw [State.complete_afterPublish _ _ _ _ _ h, State.setRing_mem, State.setRing_ring]
  exact ⟨readLE_publishMem_id hm (lt_of_ringPublish_wf hwf), readLE_publishMem_len hm s.arg0.isLt,
    readLE_publishMem_usedIdx hm, fun a ha => read_publishMem_outside hm ha, publishMem_wf hm⟩

end Sys2Proof.Machine

/-! PROOFS. TRANSMIT and its two senders when they run alone (spec/41_channel_mux.md R510 to R531): what comes before the
TRANSMIT of a CH_SEND and of a CH_CREATE, said once, and each way the TRANSMIT goes on from there: it sends, it holds, or
it finds a buffer too small. -/

namespace Sys2Proof.Machine

/-! A TX buffer shorter than the packet (R531). -/

theorem Seq.withPhase_withPhase (p q : Phase) (seq : Seq) : (seq.withPhase p).withPhase q = seq.withPhase q := by
  cases seq <;> rfl

/-- The state after a TRANSMIT that took its buffer and found it shorter than the packet: no byte of it is written, and
the descriptor is not published (R531, R711). -/
def State.afterShortBuffer (s : State) (job : TxJob) : State :=
  { s.afterTake .tx with
    seq := s.seq.withPhase (.fill job)
    status := s.status.faultedWith .txBufSmall
    history := s.history ++ s.takeEvents .tx ++ s.txDescEvents }

/-- The check of phase FILL comes after the two reads of the descriptor and before its first write (R530, R531). -/
theorem fillBuffer_short {s : State} {job : TxJob} {d : Nat} (h : s.quiet = true)
    (haddr : s.admits (s.tx.descEntryAddr d) 4 = true) (hlen : s.admits (s.tx.descEntryAddr d + 8) 4 = true)
    (hcap : s.mem.readLE (s.tx.descEntryAddr d + 8) 4 < 16 + s.stage.length) :
    fillBuffer job d s = .error (.halt (State.takeFault .txBufSmall
      ((s.loadBy .block (s.tx.descEntryAddr d) .b4).loadBy .block (s.tx.descEntryAddr d + 8) .b4))) := by
  unfold fillBuffer
  rw [Prog.bind_ok (getRing_apply .tx s)]
  refine (Prog.bind_ok (memRead_backed (w := .b4) h haddr)).trans ?_
  refine (Prog.bind_ok (memRead_backed (w := .b4) (by exact h) (by exact hlen))).trans ?_
  refine (Prog.bind_ok (getStage_apply _)).trans ?_
  exact (congrFun (if_pos hcap) _).trans (raiseFault_quiet _ h)

/-- TRANSMIT with a buffer shorter than the packet, from any state it can be entered in (R531). -/
theorem transmit_short {s : State} {job : TxJob} (h : s.quiet = true) (hb : s.txDescBacked)
    (hne : s.availIdx .tx ≠ s.tx.lastAvail) (hlt : s.nextEntry .tx < s.cfg.n)
    (hcap : s.txBufLen < 16 + s.stage.length) :
    transmit job s = .error (.halt (s.afterShortBuffer job)) := by
  obtain ⟨htake, haddr, hlen⟩ := hb
  have hfill := fillBuffer_short (job := job) (s := ((s.setPhase (.waitBuf job)).afterTake .tx).setPhase (.fill job)) h
    haddr hlen hcap
  unfold transmit
  rw [Prog.bind_ok (enterPhase_apply _ s)]
  refine (Prog.bind_ok (take_some (s := s.setPhase (.waitBuf job)) (r := .tx) h htake hne hlt)).trans ?_
  refine (Prog.bind_ok (enterPhase_apply _ _)).trans ((Prog.bind_error hfill).trans ?_)
  refine congrArg (fun v => Except.error (Stop.halt v)) ?_
  apply State.eq_of_fields
  case h_seq => exact Seq.withPhase_withPhase _ _ s.seq
  case h_history => exact List.append_assoc _ [_] [_]
  all_goals rfl

/-! CH_SEND up to its TRANSMIT (R520). -/

/-- R520 once the slot is found: the payload is staged, then it is sent. -/
theorem sendOn_staged {s : State} {slot : Slot} (hq : s.quiet = true) (hi : s.tx.inited = true)
    (h0 : s.seq.latched.arg0 = s.arg0) (h1 : s.seq.latched.arg1 = s.arg1) (hst : s.status.ended false .ok = s.status)
    (hb : s.backs s.arg0.toNat (min s.arg1.toNat 496)) :
    sendOn slot s = transmit ⟨slot.localAddr, slot.remote, 0⟩ (s.staged s.arg0.toNat s.arg1.toNat) := by
  unfold sendOn
  rw [Prog.bind_ok (requireInit_on (r := .tx) hi), Prog.bind_ok (operand0_apply s), Prog.bind_ok (operand1_apply s), h0,
    h1, Prog.bind_ok (markTrunc_quiet hq hst)]
  refine (Prog.bind_ok (readBytes_backed (by exact hq) (by exact hb))).trans ?_
  exact Prog.bind_ok (act_quiet (by exact hq))

/-- Two programs that answer the same have the same outcome. -/
theorem Prog.outcome_congr {p q : Prog Unit} {s t : State} (h : p s = q t) : p.outcome s = q.outcome t := by
  unfold Prog.outcome
  rw [h]

section
variable {s : State} {idx : Nat} {slot : Slot}

/-- A CH_SEND on a slot in use is the TRANSMIT of its staged payload. -/
theorem exec_chSend_of_sendsOn (h : s.ready = true) (hi : s.tx.inited = true) (hs : s.sendsOn idx slot)
    (hb : s.backs s.arg0.toNat (min s.arg1.toNat 496)) :
    exec (.chSend idx) s = (transmit ⟨slot.localAddr, slot.remote, 0⟩).outcome
      ((s.started (.chSend idx)).staged s.arg0.toNat s.arg1.toNat) := by
  have hslot : sendingSlot (s.started (.chSend idx)).cfg (s.started (.chSend idx)).slots idx = some slot :=
    sendingSlot_of_sendsOn hs
  have hsend := sendOn_staged (slot := slot) (State.started_quiet (.chSend idx) h) hi rfl rfl rfl hb
  refine (issue_ready (.chSend idx) _ h).trans ?_
  unfold chSendBody
  rw [Prog.outcome_bind_ok (getCfg_apply _), Prog.outcome_bind_ok (getSlots_apply _), hslot]
  exact Prog.outcome_congr hsend

/-- A slot beyond the table or Unused is none to send on (R520). -/
theorem sendingSlot_eq_none (h : ¬∃ slot, s.sendsOn idx slot) : sendingSlot s.cfg s.slots idx = none := by
  unfold sendingSlot
  by_cases hmax : s.cfg.maxChannels ≤ idx
  · exact if_pos hmax
  rw [if_neg hmax]
  cases hslot : s.slots[idx]? with
  | none => rfl
  | some slot => exact if_pos (not_not.mp fun hused => h ⟨slot, not_le.mp hmax, hslot, hused⟩)

end

/-- Settles O24: the TRANSMIT of the staged payload finds a buffer that holds it. -/
theorem chSendSendsPayload : Obligations.ChSendSendsPayload :=
  fun _ _ _ => exec_chSend_transmits

/-- Settles O25: the payload is staged before the TRANSMIT looks for a buffer, and it finds none. -/
theorem chSendHoldsWithoutBuffer : Obligations.ChSendHoldsWithoutBuffer := by
  intro s idx slot h hi hs hb hidx hempty
  have hq := State.started_quiet (.chSend idx) h
  rw [exec_chSend_of_sendsOn h hi hs hb]
  exact Prog.outcome_halt (transmit_holds
    (s := (s.started (.chSend idx)).staged s.arg0.toNat s.arg1.toNat) hq rfl hidx hempty)

/-- Settles O26: with no slot to send on, the command ends before the check of its ring pair. -/
theorem chSendOnInactiveChannelDoesNothing : Obligations.ChSendOnInactiveChannelDoesNothing := by
  intro s idx h hnone
  have hq := State.started_quiet (.chSend idx) h
  have hslot : sendingSlot (s.started (.chSend idx)).cfg (s.started (.chSend idx)).slots idx = none :=
    sendingSlot_eq_none hnone
  refine (issue_ready (.chSend idx) _ h).trans ?_
  unfold chSendBody
  rw [Prog.outcome_bind_ok (getCfg_apply _), Prog.outcome_bind_ok (getSlots_apply _), hslot]
  exact (Prog.outcome_ok (finish_quiet 0 hq)).trans (congrArg _ (State.complete_started _ 0 .ok h))

/-! CH_CREATE up to its TRANSMIT (R510, R511). -/

theorem firstUnused_eq_none {slots : List Slot} (h : ∀ slot, slot ∈ slots → slot.state ≠ .unused) :
    firstUnused slots = none :=
  List.findIdx?_eq_none_iff.mpr fun slot hs => decide_eq_false (h slot hs)

theorem memRead_unbacked {s : State} {a : Nat} {w : Width} (h : s.quiet = true) (hb : s.admits a w.bytes = false) :
    memRead a w s = .error (.halt (s.takeFault .busError)) := by
  rw [memRead_quiet h, if_neg (ne_true_of_eq_false hb)]

/-- The read of a name up to the first byte that the platform does not back (R511). -/
theorem readName_unbacked {s : State} {a n k : Nat} (h : s.quiet = true) (hk : k < (nameBytesRead s.mem a n).length)
    (hb : s.backs a k) (hu : s.admits (a + k) 1 = false) :
    readName a n s = .error (.halt ((s.afterByteReads a (s.mem.readBytes a k)).takeFault .busError)) := by
  induction n generalizing s a k with
  | zero => exact absurd hk (Nat.not_lt_zero k)
  | succ n ih =>
    rw [readName]
    cases k with
    | zero =>
      have hnone : s.afterByteReads a [] = s := by simp [State.afterByteReads, byteReads]
      rw [Memory.readBytes, hnone]
      exact Prog.bind_error (memRead_unbacked h hu)
    | succ k =>
      have hbyte : s.mem.read a ≠ 0 := fun hz => by simp [nameBytesRead, hz] at hk
      have hvalue : s.mem.readLE a Width.b1.bytes ≠ 0 := by
        rw [Width.bytes, Memory.readLE_one]
        exact fun hz => hbyte (BitVec.eq_of_toNat_eq hz)
      have hrest : k < (nameBytesRead s.mem (a + 1) n).length := by
        rw [nameBytesRead, if_neg hbyte, List.length_cons] at hk
        omega
      have htail := ih (s := s.loadBy .block a .b1) (a := a + 1) (k := k) h hrest
        (fun j hj => by rw [Nat.add_right_comm]; exact hb (j + 1) (by omega))
        (by rw [Nat.add_right_comm]; exact hu)
      rw [Prog.bind_ok (memRead_backed h (hb 0 (by omega))), if_neg hvalue, Prog.bind_error htail]
      simp [State.afterByteReads, Memory.readBytes, byteReads, Width.bytes, Memory.readLE_one, State.loadBy, State.emit]

/-- R510 for the slot found: the slot is announced and the announcement staged, then it is sent. -/
theorem createChannel_announced {s : State} {i : Nat} (hq : s.quiet = true) (ha : s.seq.latched.arg0 = s.arg0)
    (hst : s.status.ended false .ok = s.status)
    (hb : s.backs s.arg0.toNat (nameBytesRead s.mem s.arg0.toNat 32).length) :
    createChannel i s = transmit ⟨s.nextAddr, s.cfg.nsAddr, BitVec.ofNat 32 i⟩ (s.announced i) := by
  have hstaged : setStage s.announcementGiven (announceSlot i s.nameGiven
      (s.afterByteReads s.arg0.toNat (nameBytesRead s.mem s.arg0.toNat 32))) = s.announced i := by
    rw [State.announced, hst]
    rfl
  unfold createChannel
  rw [Prog.bind_ok (operand0_apply s), ha]
  refine (Prog.bind_ok (readName_backed hq hb)).trans ?_
  refine (Prog.bind_ok (p := fun s => .ok (s.nextAddr, s)) rfl).trans ?_
  refine (Prog.bind_ok (getCfg_apply _)).trans ?_
  refine (Prog.bind_ok (act_quiet (by exact hq))).trans ?_
  refine (Prog.bind_ok (act_quiet (by exact hq))).trans ?_
  exact congrArg (transmit _) hstaged

section
variable {s : State} {i : Nat}

/-- A CH_CREATE with an Unused slot reads its name for the lowest one (R510). -/
theorem exec_chCreate_of_lowestUnused (h : s.ready = true) (hi : s.tx.inited = true) (hs : s.lowestUnused i) :
    exec .chCreate s = (createChannel i).outcome (s.started .chCreate) := by
  have hslot : firstUnused (s.started .chCreate).slots = some i := firstUnused_of_lowestUnused hs
  refine (issue_of_inited (r := .tx) h (ne_false_of_eq_true hi)).trans ?_
  rw [Prog.outcome_bind_ok (getSlots_apply _), hslot]

/-- A CH_CREATE with an Unused slot and a name it can read is the TRANSMIT of the announcement. -/
theorem exec_chCreate_announced (h : s.ready = true) (hi : s.tx.inited = true) (hs : s.lowestUnused i)
    (hb : s.backs s.arg0.toNat (nameBytesRead s.mem s.arg0.toNat 32).length) :
    exec .chCreate s = (transmit ⟨s.nextAddr, s.cfg.nsAddr, BitVec.ofNat 32 i⟩).outcome
      ((s.started .chCreate).announced i) :=
  (exec_chCreate_of_lowestUnused h hi hs).trans
    (Prog.outcome_congr (createChannel_announced (State.started_quiet .chCreate h) rfl rfl hb))

end

/-- Settles O20: the TRANSMIT of the announcement finds a buffer that holds it. -/
theorem chCreateAnnounces : Obligations.ChCreateAnnounces :=
  fun _ _ => exec_chCreate_transmits

/-- Settles O21: the slot is Announced before the TRANSMIT looks for a buffer, and it finds none. -/
theorem chCreateHoldsWithoutBuffer : Obligations.ChCreateHoldsWithoutBuffer := by
  intro s i h hi hs hb hidx hempty
  have hq := State.started_quiet .chCreate h
  rw [exec_chCreate_announced h hi hs hb]
  exact Prog.outcome_halt (transmit_holds (s := (s.started .chCreate).announced i) hq rfl hidx hempty)

/-- Settles O22: the search for an Unused slot comes right after the check of the ring pair and finds none. -/
theorem chCreateNeedsFreeSlot : Obligations.ChCreateNeedsFreeSlot := by
  intro s h hi hused
  have hslot : firstUnused (s.started .chCreate).slots = none := firstUnused_eq_none hused
  have hfail := failWith_quiet (α := Unit) .resourceExhausted (State.started_quiet .chCreate h)
  refine (issue_of_inited (r := .tx) h (ne_false_of_eq_true hi)).trans ?_
  rw [Prog.outcome_bind_ok (getSlots_apply _), hslot]
  exact (Prog.outcome_halt hfail).trans (congrArg _ (State.complete_started _ 0 .resourceExhausted h))

/-- Settles O23: the name is read before the slot, `NEXT_ADDR` and the stage are set. -/
theorem chCreateNameFaultAllocatesNothing : Obligations.ChCreateNameFaultAllocatesNothing := by
  intro s i k h hi hs hk hb hu
  have hname := readName_unbacked (State.started_quiet .chCreate h) hk hb hu
  rw [exec_chCreate_of_lowestUnused h hi hs, createChannel, Prog.outcome_bind_ok (operand0_apply _)]
  exact Prog.outcome_bind_halt hname

/-! A held send (R530). -/

/-- R530: with nothing offered, the hold goes on. -/
theorem State.resumption_of_empty {s : State} {cmd : Latched} {job : TxJob} (hseq : s.seq = .run cmd (.waitBuf job))
    (hempty : s.availIdx .tx = s.tx.lastAvail) : s.resumption = none := by
  have hready : s.txReady = false := decide_eq_false (not_not.mpr hempty)
  simp [State.resumption, hseq, hready]

/-- R530: with a buffer offered, the TRANSMIT is tried again. -/
theorem State.resumption_of_offer {s : State} {cmd : Latched} {job : TxJob} (hf : s.status.faulted = false)
    (hseq : s.seq = .run cmd (.waitBuf job)) (hoffer : s.availIdx .tx ≠ s.tx.lastAvail) :
    s.resumption = some (transmit job) := by
  have hready : s.txReady = true := decide_eq_true hoffer
  simp [State.resumption, hf, hseq, hready]

theorem step_of_env_block {s : State} {rest : List Input} (hv : s.cfg.valid = true) (he : s.env = .block :: rest) :
    step s = blockMove { s with env := rest } := by
  unfold step stepWith
  rw [if_pos hv, he]

/-- A block that has a step of its own and is left alone takes it (log 1). -/
theorem step_of_resumption {s : State} {p : Prog Unit} (hv : s.cfg.valid = true) (hq : s.quiet = true)
    (hr : s.resumption = some p) : step s = p.outcome s := by
  have hmove : blockMove s = p.outcome s := by rw [blockMove, hr]
  unfold State.quiet at hq
  split at hq
  · next he => exact (step_of_env_nil hv he).trans hmove
  · next he =>
    unfold step stepWith
    rw [if_pos hv, he, ← hmove]
    exact if_pos (by rw [hr]; rfl)
  · cases hq
  · cases hq

/-- A held send that is left alone and finds a buffer offered goes on with its TRANSMIT. -/
theorem step_of_offer {s : State} {cmd : Latched} {job : TxJob} (hv : s.cfg.valid = true) (hq : s.quiet = true)
    (hf : s.status.faulted = false) (hseq : s.seq = .run cmd (.waitBuf job)) (hoffer : s.availIdx .tx ≠ s.tx.lastAvail) :
    step s = (transmit job).outcome s :=
  step_of_resumption hv hq (State.resumption_of_offer hf hseq hoffer)

/-- Settles O28: the retry is a TRANSMIT that finds a buffer. -/
theorem heldSendGoesOn : Obligations.HeldSendGoesOn := by
  intro s cmd job hv hq hf hseq hlen hfits hb
  rw [step_of_offer hv hq hf hseq hfits.1]
  exact Prog.outcome_ok (transmit_backed hq hlen hfits hb)

/-- Settles O29: a hold with nothing offered has no step of its own. -/
theorem holdHasNoStep : Obligations.HoldHasNoStep := by
  intro s cmd job hv hseq hempty
  refine ⟨fun he => ?_, fun rest he => ?_⟩
  · rw [step_of_env_nil hv he]
    exact blockMove_of_resumption_none (State.resumption_of_empty hseq hempty)
  · rw [step_of_env_block hv he]
    exact blockMove_of_resumption_none (State.resumption_of_empty (s := { s with env := rest }) hseq hempty)

/-- Settles O27: in each of the three the TRANSMIT finds a buffer shorter than the packet staged. -/
theorem smallTxBufferFaults : Obligations.SmallTxBufferFaults := by
  intro s hi hb hoffer hlt faulted
  refine ⟨fun idx slot h hs hback hcap => ?_, fun i h hs hback hcap => ?_, fun cmd job hv hq hf hseq hcap => ?_⟩
  · have hq := State.started_quiet (.chSend idx) h
    have hlen : (s.staged s.arg0.toNat s.arg1.toNat).stage.length = min s.arg1.toNat 496 := Memory.readBytes_length _ _ _
    rw [← hlen] at hcap
    have hshort := transmit_short (job := ⟨slot.localAddr, slot.remote, 0⟩)
      (s := (s.started (.chSend idx)).staged s.arg0.toNat s.arg1.toNat) hq hb hoffer hlt hcap
    exact ⟨_, (exec_chSend_of_sendsOn h hi hs hback).trans (Prog.outcome_halt hshort), ⟨nofun, rfl, rfl, rfl, rfl⟩, rfl,
      rfl, rfl⟩
  · have hq := State.started_quiet .chCreate h
    have hcap' : s.txBufLen < 16 + s.announcementGiven.length := by rwa [State.announcementGiven_length]
    have hshort := transmit_short (job := ⟨s.nextAddr, s.cfg.nsAddr, BitVec.ofNat 32 i⟩)
      (s := (s.started .chCreate).announced i) hq hb hoffer hlt hcap'
    exact ⟨_, (exec_chCreate_announced h hi hs hback).trans (Prog.outcome_halt hshort), ⟨nofun, rfl, rfl, rfl, rfl⟩, rfl,
      rfl, rfl⟩
  · have hshort := transmit_short (job := job) hq hb hoffer hlt hcap
    have hrun : (s.afterShortBuffer job).seq = .run cmd (.fill job) := congrArg (Seq.withPhase _) hseq
    exact ⟨_, (step_of_offer hv hq hf hseq hoffer).trans (Prog.outcome_halt hshort),
      ⟨by rw [hrun]; nofun, rfl, rfl, rfl, rfl⟩, rfl, rfl, rfl⟩

/-! Packets that POLL drops (R540, R541, R544). -/

/-- Settles O32: the checks of RECEIVE drop the packet, before its header is read or after. -/
theorem pollDropsPacket : Obligations.PollDropsPacket := by
  intro s h hi hkick hp hl hm
  have ⟨_, _, _, _, _, _, hbuf⟩ := hp
  refine ⟨fun hshort => exec_poll_onePacket h hi hkick hp hl hm (State.inspects_short hshort), fun hhdr hdrop => ?_⟩
  refine exec_poll_onePacket h hi hkick hp hl hm (State.inspects_drop hhdr (fun k hk => hbuf k (by omega)) ?_)
  rcases hdrop with hlong | hnone
  · unfold State.rxFits State.rxLen at hlong
    omega
  · exact .inr (.inr hnone)

/-- R133, R9: the local address of a slot in use lies in the range of `LOCAL_ADDR_BASE`. -/
theorem State.channelTable_localAddr_inLocalRange {s : State} (hv : s.cfg.valid = true) (h : s.channelTable) {i : Nat}
    {slot : Slot} (hslot : s.slots[i]? = some slot) (hused : slot.state ≠ .unused) :
    s.cfg.inLocalRange slot.localAddr = true := by
  obtain ⟨_, k, hk, _, hslots⟩ := h
  obtain ⟨_, _, _, hbase, _⟩ := s.cfg.valid_iff.mp hv
  obtain ⟨hik, haddr, _⟩ := hslots i slot hslot
  have hlt : i < k := hik.mp hused
  have hnat : slot.localAddr.toNat = s.cfg.localAddrBase.toNat + i := by
    rw [haddr hlt, BitVec.toNat_add, BitVec.toNat_ofNat]
    omega
  rw [Config.inLocalRange, hnat]
  simp only [Bool.and_eq_true, decide_eq_true_eq]
  omega

/-- Settles O60: R9 keeps `NS_ADDR` out of the range of the local addresses. -/
theorem nsAddrPacketsHaveNoChannel : Obligations.NsAddrPacketsHaveNoChannel := by
  intro s hv h slot hmem
  obtain ⟨_, _, _, _, hns, _⟩ := s.cfg.valid_iff.mp hv
  obtain ⟨i, hslot⟩ := List.mem_iff_getElem?.mp hmem
  by_cases hused : slot.state = .unused
  · exact .inl hused
  · refine .inr fun heq => ?_
    have hin := State.channelTable_localAddr_inLocalRange hv h hslot hused
    rw [heq, (s.cfg.inLocalRange_eq_false_iff _).mpr hns] at hin
    cases hin

end Sys2Proof.Machine

/-! PROOFS. The kick lines and POLL when it runs alone (spec/42_notification.md R600, R620, R630): a POLL of an RX ring
that holds nothing, one packet, or any number of them. -/

namespace Sys2Proof.Machine

/-- Settles O35: a pulse is a move of its own, and no `CMD` write. -/
theorem pulseCounted : Obligations.PulseCounted :=
  fun _ _ hv => ⟨fun he => step_of_move_ok hv he rfl rfl, fun he => step_of_move_ok hv he rfl rfl⟩

/-- Settles O31: the checks of RECEIVE deliver the packet. -/
theorem pollDeliversPacket : Obligations.PollDeliversPacket := by
  intro s i slot h hi hkick hp hl hm hfits hch
  have ⟨_, _, _, _, _, _, hbuf⟩ := hp
  obtain ⟨hhdr, hmax, hfit⟩ := hfits
  exact exec_poll_onePacket h hi hkick hp hl hm (State.inspects_deliver hhdr hbuf hmax hfit hch)

/-! A POLL up to its drain, and an empty ring (R620, R621). -/

/-- R620 once both counters are swapped: a drain if an RX kick was counted, else the end. -/
theorem exec_poll_polled {s : State} (h : s.ready = true) (hi : s.rx.inited = true) :
    exec .poll s = Prog.outcome
      (if s.rxKickCnt ≠ 0 then drainAndFinish else finish (if s.txKickCnt ≠ 0 then 1 else 0)) s.polled := by
  have hq := State.ready_quiet h
  refine (issue_of_inited (i := .poll) (r := .rx) h (ne_false_of_eq_true hi)).trans ?_
  rw [Prog.outcome_bind_ok (swapTxKicks_quiet (by exact hq)), Prog.outcome_bind_ok (swapRxKicks_quiet (by exact hq)),
    Prog.outcome_bind_ok (maintainCache_quiet _ (by exact hq))]
  rfl

/-- DRAIN() on an empty ring reads `avail.idx` once (R630). -/
theorem drain_empty {s : State} (k : Nat) (hq : s.quiet = true) (hb : s.admits s.rx.availIdxAddr 2 = true)
    (hempty : s.availIdx .rx = s.rx.lastAvail) : drain (k + 1) s = .ok ((), s.afterHead .rx) := by
  rw [drain, Prog.bind_ok (take_none (r := .rx) hq hb hempty)]
  rfl

/-- The drain of R620 and the end of its POLL (R106). -/
theorem drainAndFinish_of_drain {s t : State} (hd : drain drainChunk (s.setPhase .drain) = .ok ((), t))
    (hq : t.quiet = true) : drainAndFinish s = .ok ((), t.complete 1 .ok) := by
  unfold drainAndFinish
  rw [Prog.bind_ok (enterPhase_apply _ s), Prog.bind_ok hd, finish_quiet 1 hq]

/-- Settles O30: with no RX kick the POLL ends after its SWAPs, and with an empty ring after the drain's first read. -/
theorem pollWithoutPackets : Obligations.PollWithoutPackets := by
  intro s h hi
  have hq := State.ready_quiet h
  refine ⟨fun hkick => ?_, fun hkick hb hempty => ?_⟩
  · rw [exec_poll_polled h hi, if_neg (not_not.mpr hkick), ite_not, Prog.outcome_ok (finish_quiet _ (by exact hq))]
    exact congrArg _ (State.eq_of_idle h rfl rfl)
  · have hdrain := drain_empty (s := s.polled.setPhase .drain) (2 ^ 16) hq hb hempty
    rw [exec_poll_polled h hi, if_pos hkick, Prog.outcome_ok (drainAndFinish_of_drain hdrain hq)]
    refine congrArg Host.Outcome.next ?_
    apply State.eq_of_fields
    case h_seq => exact (State.ready_idle h).symm
    case h_verdicts => exact State.headVerdicts_of_empty (r := .rx) hempty
    all_goals rfl

/-! Where the accesses of a drain lie (R210). -/

/-- Below the used ring nothing is a used entry or `used.idx`. -/
theorem outsideUsed_of_lt {c : RingCtx} {a : Nat} (size : Nat) (h : a < c.usedAddr.toNat) : outsideUsed c size a := by
  unfold outsideUsed RingCtx.usedIdxAddr RingCtx.usedEntryAddr
  exact ⟨by omega, fun j _ => by omega⟩

/-- The used entry of a PUBLISH is one of the ring's. -/
theorem outsidePublish_of_outsideUsed {c : RingCtx} {size a : Nat} (hsize : 0 < size) (h : outsideUsed c size a) :
    outsidePublish c size a :=
  ⟨h.2 _ (Nat.mod_lt _ hsize), h.1⟩

section
variable {c : RingCtx} {size : Nat} (hl : c.laidOut size) (hi : c.inited = true)
include hl hi

theorem RingCtx.availIdxAddr_add_two_le_usedAddr : c.availIdxAddr + 2 ≤ c.usedAddr.toNat := by
  obtain ⟨_, _, _, hused, _⟩ := RingCtx.laidOut_facts hl hi
  unfold RingCtx.availIdxAddr
  omega

theorem RingCtx.availEntryAddr_add_two_le_usedAddr {j : Nat} (hj : j < size) :
    c.availEntryAddr j + 2 ≤ c.usedAddr.toNat := by
  obtain ⟨_, _, _, hused, _⟩ := RingCtx.laidOut_facts hl hi
  unfold RingCtx.availEntryAddr
  omega

theorem RingCtx.descEntryAddr_add_le_usedAddr {d : Nat} (hd : d < size) :
    c.descEntryAddr d + 16 ≤ c.usedAddr.toNat := by
  obtain ⟨_, havail, _, hused, _⟩ := RingCtx.laidOut_facts hl hi
  unfold RingCtx.descEntryAddr
  omega

theorem RingCtx.nextUsedAddr_add_le (hsize : 0 < size) : c.nextUsedAddr size + 8 ≤ addrSpace := by
  obtain ⟨_, _, _, _, htop⟩ := RingCtx.laidOut_facts hl hi
  have hslot := Nat.mod_lt c.usedHead.toNat hsize
  unfold RingCtx.nextUsedAddr RingCtx.usedEntryAddr addrSpace
  omega

end

/-! The drain of any number of packets (R630). -/

/-- What a drain asks of the RX ring pair: it is laid out and left alone, memory is backed, the entries are in range
and the buffers lie within memory. -/
structure State.Drainable (s : State) : Prop where
  quiet : s.quiet = true
  size : 0 < s.cfg.n
  inited : s.rx.inited = true
  laidOut : s.rx.laidOut s.cfg.n
  wf : s.mem.wf = true
  backed : s.backsAll
  entries : ∀ j, j < s.cfg.n → s.mem.readLE (s.rx.availEntryAddr j) 2 < s.cfg.n
  buffers : ∀ d, d < s.cfg.n → s.rxBufAddr d + s.rxBufLen d ≤ 2 ^ 32

/-- `t` is `s` with some of its RX ring drained: one used entry for each descriptor taken, and memory outside the used
entries and `used.idx` as before. -/
structure State.Drained (s t : State) : Prop where
  cfg : t.cfg = s.cfg
  env : t.env = s.env
  status : t.status = s.status
  tx : t.tx = s.tx
  nextAddr : t.nextAddr = s.nextAddr
  txKickCnt : t.txKickCnt = s.txKickCnt
  rxKickCnt : t.rxKickCnt = s.rxKickCnt
  rx : t.rx = { s.rx with
    lastAvail := t.rx.lastAvail
    usedHead := s.rx.usedHead + (t.rx.lastAvail - s.rx.lastAvail)
    held := t.rx.held }
  wf : s.mem.wf = true → t.mem.wf = true
  mem : ∀ a, outsideUsed s.rx s.cfg.n a → t.mem.read a = s.mem.read a

/-- `t` is `s` with the next RX entry taken and its descriptor not returned yet. -/
structure State.Taken (s t : State) : Prop where
  cfg : t.cfg = s.cfg
  env : t.env = s.env
  status : t.status = s.status
  tx : t.tx = s.tx
  nextAddr : t.nextAddr = s.nextAddr
  txKickCnt : t.txKickCnt = s.txKickCnt
  rxKickCnt : t.rxKickCnt = s.rxKickCnt
  rx : t.rx = { s.rx with lastAvail := s.rx.lastAvail + 1, held := t.rx.held }
  mem : t.mem = s.mem

namespace State.Drained
variable {s t u : State}

/-- The read of `avail.idx` that ends a drain takes nothing. -/
theorem afterHead (s : State) : s.Drained (s.afterHead .rx) := by
  constructor
  case rx => simp [State.afterHead]
  case wf => exact id
  all_goals intros; rfl

theorem trans (h : s.Drained t) (h' : t.Drained u) : s.Drained u where
  cfg := h'.cfg.trans h.cfg
  env := h'.env.trans h.env
  status := h'.status.trans h.status
  tx := h'.tx.trans h.tx
  nextAddr := h'.nextAddr.trans h.nextAddr
  txKickCnt := h'.txKickCnt.trans h.txKickCnt
  rxKickCnt := h'.rxKickCnt.trans h.rxKickCnt
  rx := by
    have hhead : s.rx.usedHead + (t.rx.lastAvail - s.rx.lastAvail) + (u.rx.lastAvail - t.rx.lastAvail)
        = s.rx.usedHead + (u.rx.lastAvail - s.rx.lastAvail) := by ring
    rw [← hhead, h'.rx, h.rx]
  wf hm := h'.wf (h.wf hm)
  mem a ha := by
    have hsame : outsideUsed t.rx t.cfg.n a := by rw [h.cfg, h.rx]; exact ha
    exact (h'.mem a hsame).trans (h.mem a ha)

/-- A number that lies below the used ring stays. -/
theorem readLE (h : s.Drained t) {a n : Nat} (ha : a + n ≤ s.rx.usedAddr.toNat) :
    t.mem.readLE a n = s.mem.readLE a n :=
  Memory.readLE_congr fun _ _ hlt => h.mem _ (outsideUsed_of_lt _ (by omega))

end State.Drained

namespace State.Drainable
variable {s t : State}

/-- A drain leaves `avail.idx` alone (R210). -/
theorem availIdx_of_drained (h : s.Drainable) (hd : s.Drained t) : t.availIdx .rx = s.availIdx .rx := by
  have haddr : (t.ring .rx).availIdxAddr = s.rx.availIdxAddr := by rw [State.ring, hd.rx]; rfl
  have hread := hd.readLE (RingCtx.availIdxAddr_add_two_le_usedAddr h.laidOut h.inited)
  rw [State.availIdx, haddr, hread]
  rfl

/-- A ring pair that is drained in part can be drained on. -/
theorem of_drained (h : s.Drainable) (hd : s.Drained t) : t.Drainable where
  quiet := (State.quiet_congr hd.env).trans h.quiet
  size := by rw [hd.cfg]; exact h.size
  inited := by rw [hd.rx]; exact h.inited
  laidOut := by rw [hd.rx, hd.cfg]; exact RingCtx.laidOut_of_inited _ _ _ h.laidOut h.inited
  wf := hd.wf h.wf
  backed a w ha := (State.admits_congr hd.cfg a _).trans (h.backed a w ha)
  entries j hj := by
    rw [hd.cfg] at hj ⊢
    have haddr : t.rx.availEntryAddr j = s.rx.availEntryAddr j := by rw [hd.rx]; rfl
    rw [haddr, hd.readLE (RingCtx.availEntryAddr_add_two_le_usedAddr h.laidOut h.inited hj)]
    exact h.entries j hj
  buffers d hlt := by
    rw [hd.cfg] at hlt
    have haddr : t.rx.descEntryAddr d = s.rx.descEntryAddr d := by rw [hd.rx]; rfl
    have hle := RingCtx.descEntryAddr_add_le_usedAddr h.laidOut h.inited hlt
    rw [State.rxBufAddr, State.rxBufLen, haddr, hd.readLE (by omega), hd.readLE (by omega)]
    exact h.buffers d hlt

theorem nextEntry_lt (h : s.Drainable) : s.nextEntry .rx < s.cfg.n :=
  h.entries _ (Nat.mod_lt _ h.size)

/-- Every access that ends below the used ring is backed. -/
theorem admits_of_le_usedAddr (h : s.Drainable) {a : Nat} (w : Width) (ha : a + w.bytes ≤ s.rx.usedAddr.toNat) :
    s.admits a w.bytes = true :=
  h.backed a w (ha.trans s.rx.usedAddr.isLt.le)

theorem takeBacked (h : s.Drainable) : s.takeBacked .rx :=
  ⟨h.admits_of_le_usedAddr .b2 (RingCtx.availIdxAddr_add_two_le_usedAddr h.laidOut h.inited),
    h.admits_of_le_usedAddr .b2
      (RingCtx.availEntryAddr_add_two_le_usedAddr h.laidOut h.inited (Nat.mod_lt _ h.size))⟩

theorem publishBacked (h : s.Drainable) : s.publishBacked .rx := by
  have hentry := RingCtx.nextUsedAddr_add_le h.laidOut h.inited h.size
  have hidx := s.rx.usedIdxAddr_add_two_le_nextUsedAddr s.cfg.n
  exact ⟨h.backed (s.rx.nextUsedAddr s.cfg.n) .b4 (show _ + 4 ≤ _ by omega), h.backed _ .b4 hentry,
    h.backed s.rx.usedIdxAddr .b2 (show _ + 2 ≤ _ by omega)⟩

theorem bufferBacked (h : s.Drainable) {d : Nat} (hd : d < s.cfg.n) : s.backs (s.rxBufAddr d) (s.rxBufLen d) := by
  intro k hk
  have htop := h.buffers d hd
  exact h.backed _ .b1 (show s.rxBufAddr d + k + 1 ≤ 2 ^ 32 by omega)

theorem descBacked (h : s.Drainable) {d : Nat} (hd : d < s.cfg.n) :
    s.admits (s.rx.descEntryAddr d) 4 = true ∧ s.admits (s.rx.descEntryAddr d + 8) 4 = true := by
  have hdesc := RingCtx.descEntryAddr_add_le_usedAddr h.laidOut h.inited hd
  exact ⟨h.admits_of_le_usedAddr .b4 (show _ + 4 ≤ _ by omega),
    h.admits_of_le_usedAddr .b4 (show _ + 8 + 4 ≤ _ by omega)⟩

/-- A TAKE does not move the used entry that comes next, so its descriptor's return is backed. -/
theorem publishBacked_of_taken (h : s.Drainable) (ht : s.Taken t) : t.publishBacked .rx := by
  have haddr : t.rx.nextUsedAddr t.cfg.n = s.rx.nextUsedAddr s.cfg.n ∧ t.rx.usedIdxAddr = s.rx.usedIdxAddr := by
    rw [ht.cfg, ht.rx]
    exact ⟨rfl, rfl⟩
  unfold State.publishBacked State.ring
  simp only [haddr, State.admits_congr ht.cfg]
  exact h.publishBacked

/-- The return of the descriptor taken ends one round of the drain (R410). -/
theorem drained_of_taken (h : s.Drainable) (ht : s.Taken t) (d len : Nat) (kick : Bool) :
    s.Drained (t.afterPublish .rx d len kick) := by
  have hrx : (t.afterPublish .rx d len kick).rx
      = { t.rx with usedHead := t.rx.usedHead + 1, held := heldErase d t.rx.held } := rfl
  have hmem : (t.afterPublish .rx d len kick).mem = publishMem s.mem t.rx s.cfg.n d len := by
    rw [← ht.mem, ← ht.cfg]
    rfl
  constructor
  case rx =>
    rw [hrx, ht.rx]
    simp only [add_sub_cancel_left]
  case wf =>
    rw [hmem]
    exact publishMem_wf
  case mem =>
    intro a ha
    have hsame : outsideUsed t.rx s.cfg.n a := by rw [ht.rx]; exact ha
    rw [hmem, read_publishMem_outside h.wf (outsidePublish_of_outsideUsed h.size hsame)]
  case cfg => exact ht.cfg
  case env => exact ht.env
  case status => exact ht.status
  case tx => exact ht.tx
  case nextAddr => exact ht.nextAddr
  case txKickCnt => exact ht.txKickCnt
  case rxKickCnt => exact ht.rxKickCnt

/-- Whatever the packet of the next entry is, RECEIVE returns its descriptor (R540). -/
theorem receive_next (h : s.Drainable) :
    ∃ t, receive (s.nextEntry .rx) (s.afterTake .rx) = .ok ((), t) ∧ s.Drained t
      ∧ t.rx.lastAvail = s.rx.lastAvail + 1 := by
  have hword : s.nextEntry .rx < 2 ^ 32 := lt_of_lt_of_le (Memory.readLE_lt s.mem _ 2) (by norm_num)
  obtain ⟨haddr, hlen⟩ := h.descBacked h.nextEntry_lt
  obtain ⟨slots, drops, seen, hchecks⟩ := State.exists_inspects (h.bufferBacked h.nextEntry_lt)
  obtain ⟨u, hinspect, hu⟩ : ∃ u, inspectPacket (s.rxBufAddr (s.nextEntry .rx)) (s.rxBufLen (s.nextEntry .rx))
      ((s.afterTake .rx).afterRxDesc (s.nextEntry .rx)) = .ok ((), u) ∧ s.Taken u :=
    ⟨_, hchecks _ h.quiet rfl rfl rfl rfl, by constructor <;> rfl⟩
  refine ⟨_, receive_backed (s := s.afterTake .rx) h.quiet hword haddr hlen hinspect hu.env hu.cfg
    (h.publishBacked_of_taken hu), h.drained_of_taken hu _ _ _, congrArg RingCtx.lastAvail hu.rx⟩

/-- DRAIN() ends with the ring empty when it may take more descriptors than the ring offers (R630). -/
theorem drain_all (k : Nat) (h : s.Drainable) (hk : lead (s.availIdx .rx) s.rx.lastAvail < k) :
    ∃ t, drain k s = .ok ((), t) ∧ s.Drained t ∧ t.rx.lastAvail = s.availIdx .rx := by
  induction k generalizing s with
  | zero => exact absurd hk (Nat.not_lt_zero _)
  | succ k ih =>
    by_cases hempty : s.availIdx .rx = s.rx.lastAvail
    · exact ⟨_, drain_empty k h.quiet h.takeBacked.1 hempty, .afterHead s, hempty.symm⟩
    · obtain ⟨t, hreceive, hdrained, hlast⟩ := h.receive_next
      have hidx := h.availIdx_of_drained hdrained
      have hlead : lead (t.availIdx .rx) t.rx.lastAvail < k := by
        rw [hidx, hlast]
        unfold lead at hk ⊢
        bv_omega
      obtain ⟨u, hrest, hdrained', hlast'⟩ := ih (h.of_drained hdrained) hlead
      refine ⟨u, ?_, hdrained.trans hdrained', hlast'.trans hidx⟩
      rw [drain, Prog.bind_ok (take_some h.quiet h.takeBacked hempty h.nextEntry_lt)]
      exact (Prog.bind_ok hreceive).trans hrest

end State.Drainable

/-- Settles O33: no ring offers more than 65535 entries, so the drain of one step empties it. -/
theorem pollDrainsRing : Obligations.PollDrainsRing := by
  intro s h _ hi hkick hl hm hback hentries hbuffers
  have hq := State.ready_quiet h
  have hable : (s.polled.setPhase .drain).Drainable :=
    ⟨hq, Nat.two_pow_pos _, hi, hl, hm, hback, hentries, hbuffers⟩
  have hlead : lead ((s.polled.setPhase .drain).availIdx .rx) s.rx.lastAvail < drainChunk :=
    lt_of_lt_of_le (BitVec.isLt _) (Nat.le_succ _)
  obtain ⟨t, hdrain, hd, hlast⟩ := hable.drain_all drainChunk hlead
  have hend := drainAndFinish_of_drain hdrain ((State.quiet_congr hd.env).trans hq)
  refine ⟨t.complete 1 .ok, ?_, (hable.availIdx_of_drained hd :), hlast, ?_, hd.txKickCnt, hd.rxKickCnt, rfl, rfl, ?_,
    hd.tx, hd.nextAddr, hd.mem⟩
  · rw [exec_poll_polled h hi, if_pos hkick, Prog.outcome_ok hend]
  · have hhead := congrArg RingCtx.usedHead hd.rx
    rw [hlast] at hhead
    exact hhead
  · exact congrArg (fun st : Status => { st with err := .ok }) hd.status

end Sys2Proof.Machine

/-! PROOFS. Steps that leave the block's state alone (spec/60_exceptions.md R710, R750): those of a faulted block, whose
own sequencer does nothing until reset, and the peer's moves, which reach shared memory and its own ghost state only. -/

namespace Sys2Proof.Machine

/-- A move that answers a next state was performed, or it is the reset (R801). -/
theorem moveOutcome_next {m : Move} {s t : State} (h : moveOutcome m s = .next t) : m.apply s = .ok t ∨ m = .reset := by
  unfold moveOutcome at h
  split at h
  · next ha =>
    cases h
    exact .inl ha
  · next ha => exact .inr (Move.apply_halt ha).1
  · cases h
  · cases h

/-! A faulted block (R710). -/

/-- `CMD` is the first register of the window (R300, R302). -/
theorem windowOffset_eq_zero {c : Config} {a n : Nat} (h : windowOffset c a n = some 0) : a = c.blkBase ∧ n = 4 := by
  unfold windowOffset at h
  split_ifs at h with hwin
  have hoff : a - c.blkBase = 0 := Option.some.inj h
  omega

/-- A move that is a `CMD` write is a register write at `BLK_BASE` (R302). -/
theorem Move.eq_regWrite_of_command {m : Move} {c : Config} {w : Word} (h : m.command c = some w) :
    m = .regWrite c.blkBase 4 w := by
  cases m with
  | regWrite a n v =>
    obtain ⟨hwin, hword⟩ := Option.ite_none_right_eq_some.mp h
    obtain ⟨rfl, rfl⟩ := windowOffset_eq_zero hwin
    rw [Option.some.inj hword]
  | _ => cases h

/-- R105: where the block accepts no command, a `CMD` write is a move like any other. -/
theorem step_move_of_not_accepting {s : State} {m : Move} {rest : List Input} (hv : s.cfg.valid = true)
    (he : s.env = .act m :: rest) (hacc : s.accepting = false) : step s = moveOutcome m { s with env := rest } := by
  cases hcmd : m.command s.cfg with
  | none => exact step_move hv he hcmd
  | some w =>
    obtain rfl := Move.eq_regWrite_of_command hcmd
    have happly : (Move.regWrite s.cfg.blkBase 4 w).apply { s with env := rest }
        = .ok (State.dropCommand { s with env := rest }) :=
      moveRegWrite_of_offset (s := { s with env := rest }) (windowOffset_blkBase_add s.cfg (off := 0) (by decide) rfl)
    have hdrop : issueWord exec w { s with env := rest } = .next (State.dropCommand { s with env := rest }) :=
      issueWord_of_not_accepting w hacc
    rw [step_of_cmdWrite hv he, hdrop, moveOutcome, happly]

theorem State.resumption_of_faulted {s : State} (hf : s.status.faulted = true) : s.resumption = none :=
  if_pos hf

/-- Everything a step of a faulted block can do: use up a mark of the schedule, if there is one, or serve a move. -/
theorem step_of_faulted {s t : State} (hf : s.status.faulted = true) (h : step s = .next t) :
    (∃ rest, t = { s with env := rest })
      ∨ ∃ m rest, s.env = .act m :: rest ∧ moveOutcome m { s with env := rest } = .next t := by
  have hv := step_valid h
  have hres : s.resumption = none := State.resumption_of_faulted hf
  cases he : s.env with
  | nil =>
    rw [step_of_env_nil hv he, blockMove_of_resumption_none hres] at h
    cases h
    exact .inl ⟨_, rfl⟩
  | cons e rest =>
    cases e with
    | act m =>
      rw [step_move_of_not_accepting hv he (State.not_accepting (.inl hf))] at h
      exact .inr ⟨m, rest, rfl, h⟩
    | block =>
      have hres' : State.resumption { s with env := rest } = none := State.resumption_of_faulted hf
      rw [step_of_env_block hv he, blockMove_of_resumption_none hres'] at h
      cases h
      exact .inl ⟨rest, rfl⟩
    | settle =>
      unfold step stepWith at h
      rw [if_pos hv, he] at h
      simp only [hres, Option.isSome_none, Bool.false_eq_true, if_false] at h
      cases h
      exact .inl ⟨rest, rfl⟩

/-- The history of `t` is that of `s`, or continues it by one event that is not the block's. -/
def State.HistoryByOthers (s t : State) : Prop :=
  t.history = s.history ∨ ∃ e, e.byBlock = false ∧ t.history = s.history ++ [e]

/-- A move records at most one access, of the peer or the local core (R150). -/
theorem Move.apply_historyByOthers {m : Move} {s t : State} (h : m.apply s = .ok t) : s.HistoryByOthers t := by
  obtain ⟨_, _, rfl⟩ | ⟨_, rfl⟩ | ⟨who, a, w, v, _, _, _, hwho, _, rfl⟩ | ⟨a, w, _, _, _, rfl⟩ | ⟨r, p, rfl⟩ | rfl
    | rfl := Move.apply_cases h
  · refine .inl ?_
    unfold State.regStore
    split_ifs <;> rfl
  · exact .inl rfl
  · refine .inr ⟨_, ?_, rfl⟩
    cases who with
    | block => exact absurd rfl hwho
    | peer | core => rfl
  · exact .inr ⟨_, rfl, rfl⟩
  · exact .inl (State.setPeer_history s r p)
  · exact .inl rfl
  · exact .inl rfl

/-- The schedule is no part of the block's state (log 1). -/
theorem State.SameBlock.of_env {s t : State} {rest : List Input} (h : State.SameBlock { s with env := rest } t) :
    s.SameBlock t := by
  obtain ⟨⟩ := h
  constructor <;> assumption

/-- Of the fields of `STATUS` (R104), only `CMD_OVERRUN` is no part of the block's own state. -/
theorem State.SameBlock.status {s t : State} (h : s.SameBlock t) :
    t.status = { s.status with cmdOverrun := t.status.cmdOverrun } := by
  simp only [← h.trunc, ← h.err, ← h.fcode, ← h.faulted]

/-- A step of a faulted block that is no reset leaves the block's state alone. -/
theorem step_of_faulted_sameBlock {s t : State} (hf : s.status.faulted = true)
    (hr : s.env.head? ≠ some (.act .reset)) (h : step s = .next t) : s.SameBlock t ∧ s.HistoryByOthers t := by
  obtain ⟨rest, rfl⟩ | ⟨m, rest, he, hm⟩ := step_of_faulted hf h
  · exact ⟨by constructor <;> rfl, .inl rfl⟩
  · have hne : m ≠ .reset := by
      rintro rfl
      exact hr (by rw [he]; rfl)
    have ha := (moveOutcome_next hm).resolve_right hne
    exact ⟨(Move.apply_sameBlock ha).of_env, (Move.apply_historyByOthers ha :)⟩

/-- Settles O57: a faulted block accepts no command and has no step of its own, so only the moves of the others are
left. -/
theorem faultFreezesBlock : Obligations.FaultFreezesBlock := by
  intro s t hf hr h
  obtain ⟨hb, hhist⟩ := step_of_faulted_sameBlock hf hr h
  exact ⟨hb.seq, hb.result, hb.rx, hb.tx, hb.dropCnt, hb.slots, hb.nextAddr, hb.stage, hb.verdicts, hb.cfg, hb.status,
    hhist⟩

/-! The peer's moves (R750). -/

/-- `t` is `s` but for what is the peer's to change: memory and the history (R225), and its ghost state (log 5). -/
def State.PeerChanges (s t : State) : Prop :=
  t = { s with
    mem := t.mem, history := t.history, peerRx := t.peerRx, peerTx := t.peerTx, peerWrote := t.peerWrote }

theorem State.peerChanges_setPeer (s : State) (r : RingId) (p : PeerRing) : s.PeerChanges (s.setPeer r p) := by
  cases r <;> rfl

theorem Move.apply_peerWrite_changes {s t : State} {a : Nat} {w : Width} {v : Word}
    (h : (Move.peerWrite a w v).apply s = .ok t) : s.PeerChanges t := by
  obtain ⟨_, ⟨_, rfl⟩ | rfl⟩ := movePeerWrite_inv h <;> rfl

theorem Move.apply_peerRead_changes {s t : State} {a : Nat} {w : Width} (h : (Move.peerRead a w).apply s = .ok t) :
    s.PeerChanges t := by
  simp only [Move.apply, movePeerRead] at h
  split at h <;> cases h
  rfl

theorem Move.apply_peerReclaim_changes {s t : State} {r : RingId} (h : (Move.peerReclaim r).apply s = .ok t) :
    s.PeerChanges t := by
  simp only [Move.apply, movePeerReclaim] at h
  split at h <;> cases h
  · rfl
  · exact s.peerChanges_setPeer r _

theorem Move.apply_peerRestart_changes {s t : State} {r : RingId} (h : (Move.peerRestart r).apply s = .ok t) :
    s.PeerChanges t := by
  cases h
  exact s.peerChanges_setPeer r _

/-- The step of a move that is neither a `CMD` write nor the reset performs it. -/
theorem apply_of_step_move {s t : State} {m : Move} {rest : List Input} (he : s.env = .act m :: rest)
    (hc : m.command s.cfg = none) (hr : m ≠ .reset) (h : step s = .next t) : m.apply { s with env := rest } = .ok t :=
  (moveOutcome_next ((step_move (step_valid h) he hc).symm.trans h)).resolve_right hr

/-- Settles O49: each of the four moves reaches memory, the history and the peer's ghost state only. -/
theorem peerCannotTouchBlock : Obligations.PeerCannotTouchBlock := by
  intro s t m rest he hm h
  obtain ⟨a, w, v, rfl⟩ | ⟨a, w, rfl⟩ | ⟨r, rfl⟩ | ⟨r, rfl⟩ := hm
  · exact Move.apply_peerWrite_changes (apply_of_step_move he rfl (by simp) h)
  · exact Move.apply_peerRead_changes (apply_of_step_move he rfl (by simp) h)
  · exact Move.apply_peerReclaim_changes (apply_of_step_move he rfl (by simp) h)
  · exact Move.apply_peerRestart_changes (apply_of_step_move he rfl (by simp) h)

end Sys2Proof.Machine

/-! PROOFS. The parameters over every step (spec/70_reset_and_hazards.md R802) and the reset of a machine at rest or in
the middle of anything (R800). -/

namespace Sys2Proof.Machine

theorem cfg_property (c : Config) : ChannelProperty fun s => s.cfg = c where
  congr hst hs := hst.cfg.trans hs
  announce _ _ _ hs _ _ := hs
  deliver _ _ _ _ hs _ _ := hs
  stage _ _ hs _ := hs
  reset _ _ hs _ := hs

theorem step_cfg {s t : State} (h : step s = .next t) : t.cfg = s.cfg := (cfg_property s.cfg).step rfl h

/-- Settles O58: no change of the block or of another agent, reset among them, reaches the configuration, from which
`PARAMS` is read. -/
theorem configNeverChanges : Obligations.ConfigNeverChanges := by
  intro s t h
  have hcfg := step_cfg h
  exact ⟨hcfg, congrArg paramsWord hcfg⟩

/-- Settles O10: the reset of the model is the state of R190, beside what it keeps. -/
theorem resetMoveResetsBlock : Obligations.ResetMoveResetsBlock := fun _ _ hv he => step_of_reset hv he

end Sys2Proof.Machine

/-! PROOFS. A reset in the middle of a command (spec/70_reset_and_hazards.md R800, R801): every command under a schedule
that lets the block make some steps and then resets it. -/

namespace Sys2Proof.Machine

/-! Schedules that reset the block, and what the block does up to there. -/

/-- The block is left alone for some steps, then reset. -/
inductive CutShort : List Input → Prop
  | now (rest : List Input) : CutShort (.act .reset :: rest)
  | later {es : List Input} (h : CutShort es) : CutShort (.block :: es)

theorem cutShort_replicate (k : Nat) (rest : List Input) :
    CutShort (List.replicate k .block ++ .act .reset :: rest) := by
  induction k with
  | zero => exact .now rest
  | succ k ih => exact .later ih

theorem CutShort.of_replicate_append {n : Nat} {es : List Input} (h : CutShort (List.replicate n .block ++ es)) :
    CutShort es := by
  induction n with
  | zero => exact h
  | succ n ih =>
    cases h with
    | later h => exact ih h

/-- Two states with the same schedule, configuration and register reads. -/
structure State.SameRun (s t : State) : Prop where
  env : t.env = s.env
  cfg : t.cfg = s.cfg
  reads : t.reads = s.reads

theorem State.SameRun.of_blockReset {s t : State} (h : t.blockReset = s.blockReset) : s.SameRun t :=
  ⟨congrArg (·.env) h, congrArg (·.cfg) h, congrArg (·.reads) h⟩

/-- In `n` steps the block has come from `s` to `t`. Before its first step it has changed nothing that a reset
leaves. -/
structure State.Onward (n : Nat) (s t : State) : Prop where
  env : s.env = List.replicate n .block ++ t.env
  cfg : t.cfg = s.cfg
  reads : t.reads = s.reads
  same : n = 0 → t.blockReset = s.blockReset

theorem State.Onward.refl (s : State) : s.Onward 0 s := ⟨rfl, rfl, rfl, fun _ => rfl⟩

theorem State.Onward.trans {n m : Nat} {s t u : State} (h : s.Onward n t) (h' : t.Onward m u) :
    s.Onward (n + m) u where
  env := by rw [h.env, h'.env, ← List.append_assoc, List.replicate_append_replicate]
  cfg := h'.cfg.trans h.cfg
  reads := h'.reads.trans h.reads
  same hz := (h'.same (by omega)).trans (h.same (by omega))

theorem State.Onward.cutShort {n : Nat} {s t : State} (h : s.Onward n t) (hs : CutShort s.env) : CutShort t.env :=
  CutShort.of_replicate_append (h.env ▸ hs)

/-- Where the reset comes next there is no step. -/
theorem State.Onward.eq_zero {n : Nat} {s t : State} {rest : List Input} (h : s.Onward n t)
    (he : s.env = .act .reset :: rest) : n = 0 := by
  cases n with
  | zero => rfl
  | succ n =>
    have henv := h.env
    rw [he, List.replicate_succ] at henv
    cases henv

/-- The block was reset to `t` after some steps from `s`. -/
def State.AbandonedAs (s t : State) : Prop :=
  ∃ n u rest, s.Onward n u ∧ u.env = .act .reset :: rest ∧ t = State.blockReset { u with env := rest }

/-- An answer from `s`: the program goes on after at least `a` steps, stops of its own accord after at least `b`, or is
abandoned. -/
def PacedAnswer {α : Type} (a b : Nat) (s : State) : Except Stop (α × State) → Prop
  | .ok (_, t) => ∃ n, a ≤ n ∧ s.Onward n t
  | .error (.halt t) => (∃ n, b ≤ n ∧ s.Onward n t) ∨ s.AbandonedAs t
  | .error (.fault _) => False
  | .error (.refuse _) => False

/-- Under every schedule that resets the block, `p` answers so. -/
def Prog.Paced {α : Type} (a b : Nat) (p : Prog α) : Prop := ∀ s, CutShort s.env → PacedAnswer a b s (p s)

section

variable {α β : Type} {a b c d : Nat}

theorem PacedAnswer.mono {s : State} {x : Except Stop (α × State)} (h : PacedAnswer a b s x) (hc : c ≤ a)
    (hd : d ≤ b) : PacedAnswer c d s x := by
  match x, h with
  | .ok _, ⟨n, hn, ht⟩ => exact ⟨n, hc.trans hn, ht⟩
  | .error (.halt _), .inl ⟨n, hn, ht⟩ => exact .inl ⟨n, hd.trans hn, ht⟩
  | .error (.halt _), .inr h => exact .inr h

theorem PacedAnswer.after {n : Nat} {s t : State} {x : Except Stop (α × State)} (hst : s.Onward n t)
    (h : PacedAnswer a b t x) : PacedAnswer (n + a) (n + b) s x := by
  match x, h with
  | .ok _, ⟨m, hm, ht⟩ => exact ⟨n + m, by omega, hst.trans ht⟩
  | .error (.halt _), .inl ⟨m, hm, ht⟩ => exact .inl ⟨n + m, by omega, hst.trans ht⟩
  | .error (.halt _), .inr ⟨m, u, rest, hu, he, ht⟩ => exact .inr ⟨n + m, u, rest, hst.trans hu, he, ht⟩

namespace Prog.Paced

theorem mono {p : Prog α} (h : p.Paced a b) (hc : c ≤ a) (hd : d ≤ b) : p.Paced c d :=
  fun s hs => (h s hs).mono hc hd

theorem waits {p : Prog α} (h : p.Paced 1 1) : p.Paced 0 1 := h.mono (Nat.zero_le _) le_rfl

/-- The steps of two programs add up. -/
theorem bind {p : Prog α} {f : α → Prog β} (hp : p.Paced a b) (hf : ∀ x, (f x).Paced c d) :
    (p >>= f).Paced (a + c) (min b (a + d)) := by
  intro s hs
  have h := hp s hs
  cases hps : p s with
  | ok x =>
    obtain ⟨x, t⟩ := x
    rw [hps] at h
    obtain ⟨n, hn, ht⟩ := h
    rw [Prog.bind_ok hps]
    exact (PacedAnswer.after ht (hf x t (ht.cutShort hs))).mono (by omega) (by omega)
  | error e =>
    rw [hps] at h
    rw [Prog.bind_error hps]
    match e, h with
    | .halt _, .inl ⟨n, hn, ht⟩ => exact .inl ⟨n, by omega, ht⟩
    | .halt _, .inr h => exact .inr h

/-- A program that begins with a step. -/
theorem step_then {p : Prog α} {f : α → Prog β} (hp : p.Paced 1 1) (hf : ∀ x, (f x).Paced c d) :
    (p >>= f).Paced 1 1 :=
  (hp.bind hf).mono (by omega) (by omega)

/-- A program that does not stop of its own accord before its first step. -/
theorem wait_then {p : Prog α} {f : α → Prog β} (hp : p.Paced a 1) (hf : ∀ x, (f x).Paced c 1) :
    (p >>= f).Paced c 1 :=
  (hp.bind hf).mono (by omega) (by omega)

theorem seq {p : Prog α} {f : α → Prog β} (hp : p.Paced a b) (hf : ∀ x, (f x).Paced c d) : (p >>= f).Paced 0 0 :=
  (hp.bind hf).mono (Nat.zero_le _) (Nat.zero_le _)

theorem ite {k : Prop} [Decidable k] {p q : Prog α} (hp : p.Paced a b) (hq : q.Paced a b) :
    (if k then p else q).Paced a b := by
  split
  · exact hp
  · exact hq

/-- A program without a schedule point that changes nothing that a reset leaves. -/
theorem of_ok {p : Prog α} (g : State → α) (f : State → State) (hp : ∀ s, p s = .ok (g s, f s))
    (hf : ∀ s, (f s).blockReset = s.blockReset) : p.Paced 0 b := by
  intro s _
  rw [hp s]
  have hrun := State.SameRun.of_blockReset (hf s)
  exact ⟨0, le_rfl, hrun.env.symm, hrun.cfg, hrun.reads, fun _ => hf s⟩

theorem of_read {p : Prog α} (g : State → α) (hp : ∀ s, p s = .ok (g s, s)) : p.Paced 0 b :=
  of_ok g id hp fun _ => rfl

end Prog.Paced

/-! The schedule points. -/

theorem yield_of_block {s : State} {es : List Input} (he : s.env = .block :: es) :
    yield s = .ok ((), { s with env := es }) := by
  unfold yield
  rw [he]
  rfl

theorem yield_of_reset {s : State} {rest : List Input} (he : s.env = .act .reset :: rest) :
    yield s = .error (.halt (State.blockReset { s with env := rest })) := by
  unfold yield
  rw [he]
  rfl

theorem deliver_sameRun (i : Nat) (src dst : Word) (payload : List Byte) (s : State) :
    s.SameRun (deliver i src dst payload s) := by
  unfold deliver
  split <;> exact ⟨rfl, rfl, rfl⟩

/-- `q` is what the block does in one step: nobody else moves, and it answers a state. -/
def Prog.Instant (q : Prog α) : Prop :=
  ∀ s, (∃ x t, q s = .ok (x, t) ∧ s.SameRun t) ∨ ∃ t, q s = .error (.halt t) ∧ s.SameRun t

/-- A step is made, or the block is reset before it. -/
theorem Prog.Instant.paced {q : Prog α} (hq : q.Instant) : (yield >>= fun _ => q).Paced 1 1 := by
  intro s hs
  cases he : s.env with
  | nil => rw [he] at hs; cases hs
  | cons e es =>
    rw [he] at hs
    cases hs with
    | now =>
      rw [Prog.bind_error (yield_of_reset he)]
      exact .inr ⟨0, s, es, .refl s, he, rfl⟩
    | later =>
      rw [Prog.bind_ok (yield_of_block he)]
      have honward : ∀ t, State.SameRun { s with env := es } t → s.Onward 1 t := fun t ht =>
        ⟨by rw [he, ht.env]; rfl, ht.cfg, ht.reads, fun h => absurd h one_ne_zero⟩
      obtain ⟨x, t, hqt, ht⟩ | ⟨t, hqt, ht⟩ := hq { s with env := es }
      · rw [hqt]
        exact ⟨1, le_rfl, honward t ht⟩
      · rw [hqt]
        exact .inl ⟨1, le_rfl, honward t ht⟩

/-- A schedule without steps: a program that begins with one is abandoned with nothing done (R801). -/
theorem Prog.Paced.abandoned {p : Prog α} (hp : p.Paced 1 1) {s : State} {rest : List Input}
    (he : s.env = .act .reset :: rest) : p s = .error (.halt (State.blockReset { s with env := rest })) := by
  have h := hp s (he ▸ .now rest)
  cases hps : p s with
  | ok x =>
    rw [hps] at h
    obtain ⟨n, hn, ht⟩ := h
    have hzero := ht.eq_zero he
    omega
  | error e =>
    rw [hps] at h
    match e, h with
    | .halt _, .inl ⟨n, hn, ht⟩ =>
      have hzero := ht.eq_zero he
      omega
    | .halt _, .inr ⟨n, u, rest', hu, hue, ht⟩ =>
      obtain rfl : n = 0 := hu.eq_zero he
      obtain rfl : rest = rest' := by
        have henv := he.symm.trans (hu.env.trans hue)
        cases henv
        rfl
      rw [ht]
      exact congrArg (fun v : State => Except.error (Stop.halt { v with env := rest })) (hu.same rfl)

/-! The primitives of R12. -/

namespace Prog.Paced

theorem pure (x : α) : (Pure.pure x : Prog α).Paced 0 b := of_read (fun _ => x) fun _ => rfl

theorem getRing (r : RingId) : (getRing r).Paced 0 b := of_read (fun s => s.ring r) fun _ => rfl

theorem getCfg : Machine.getCfg.Paced 0 b := of_read (fun s => s.cfg) fun _ => rfl

theorem getSlots : Machine.getSlots.Paced 0 b := of_read (fun s => s.slots) fun _ => rfl

theorem getStage : Machine.getStage.Paced 0 b := of_read (fun s => s.stage) fun _ => rfl

theorem operand0 : Machine.operand0.Paced 0 b := of_read (fun s => s.seq.latched.arg0) fun _ => rfl

theorem operand1 : Machine.operand1.Paced 0 b := of_read (fun s => s.seq.latched.arg1) fun _ => rfl

theorem enterPhase (ph : Phase) : (enterPhase ph).Paced 0 b :=
  of_ok (fun _ => ()) (State.setPhase ph) (fun _ => rfl) fun _ => rfl

theorem ghost {f : State → State} (hf : ∀ s, (f s).blockReset = s.blockReset) : (ghost f).Paced 0 b :=
  of_ok (fun _ => ()) f (fun _ => rfl) hf

theorem hold : (hold : Prog α).Paced 0 0 := fun s _ => .inl ⟨0, le_rfl, .refl s⟩

theorem act {f : State → State} (hf : ∀ s, State.SameRun s (f s)) : (act f).Paced 1 1 :=
  Prog.Instant.paced fun s => .inl ⟨(), f s, rfl, hf s⟩

theorem raiseFault (e : FaultCode) : (raiseFault e : Prog α).Paced 1 1 :=
  Prog.Instant.paced fun _ => .inr ⟨_, rfl, rfl, rfl, rfl⟩

theorem failWith (e : ErrCode) : (failWith e : Prog α).Paced 1 1 :=
  Prog.Instant.paced fun _ => .inr ⟨_, rfl, rfl, rfl, rfl⟩

theorem finish (v : Word) : (finish v).Paced 1 1 := act fun _ => ⟨rfl, rfl, rfl⟩

theorem emitEvent (e : Event) : (emitEvent e).Paced 1 1 := act fun _ => ⟨rfl, rfl, rfl⟩

theorem barrier : Machine.barrier.Paced 1 1 := emitEvent _

theorem memRead (x : Nat) (w : Width) : (memRead x w).Paced 1 1 := by
  refine Prog.Instant.paced fun s => ?_
  split
  · exact .inl ⟨_, _, rfl, rfl, rfl, rfl⟩
  · exact .inr ⟨_, rfl, rfl, rfl, rfl⟩

theorem memWrite (x : Nat) (w : Width) (v : Nat) : (memWrite x w v).Paced 1 1 := by
  refine Prog.Instant.paced fun s => ?_
  split
  · exact .inl ⟨_, _, rfl, rfl, rfl, rfl⟩
  · exact .inr ⟨_, rfl, rfl, rfl, rfl⟩

theorem readBytes (x n : Nat) : (readBytes x n).Paced 0 1 := by
  induction n generalizing x with
  | zero => exact pure []
  | succ n ih => exact (memRead x .b1).wait_then fun _ => (ih (x + 1)).wait_then fun _ => pure _

theorem writeBytes (x : Nat) (bs : List Byte) : (writeBytes x bs).Paced 0 1 := by
  induction bs generalizing x with
  | nil => exact pure ()
  | cons v bs ih => exact (memWrite x .b1 v.toNat).wait_then fun _ => ih (x + 1)

theorem readName (x n : Nat) : (readName x n).Paced 0 1 := by
  induction n generalizing x with
  | zero => exact pure []
  | succ n ih =>
    exact (memRead x .b1).wait_then fun _ => .ite (pure []) ((ih (x + 1)).wait_then fun _ => pure _)

/-! The ring operations (R405, R406, R410). -/

theorem requireInit (r : RingId) : (requireInit r).Paced 0 1 :=
  (getRing r).wait_then fun _ => .ite (pure ()) ((failWith _).waits)

theorem availHead (r : RingId) : (availHead r).Paced 1 1 := by
  refine (getRing r).wait_then fun ring => (memRead _ _).step_then (c := 0) (d := 1) fun x => ?_
  exact wait_then (ghost fun _ => rfl) fun _ => pure _

theorem take (r : RingId) : (take r).Paced 1 1 := by
  refine (availHead r).step_then (c := 0) (d := 1) fun h => (getRing r).wait_then fun ring => .ite (pure none) ?_
  refine getCfg.wait_then fun cfg => (memRead _ _).wait_then fun d => .ite ((raiseFault _).waits) ?_
  refine (ghost fun _ => by cases r <;> rfl).wait_then fun _ => ?_
  exact (act fun _ => by cases r <;> exact ⟨rfl, rfl, rfl⟩).wait_then fun _ => pure _

theorem publish (r : RingId) (x len : Nat) (kick : Bool) : (publish r x len kick).Paced 1 1 := by
  refine wait_then (ghost fun _ => rfl) fun _ => (getRing r).wait_then fun ring => getCfg.wait_then fun cfg => ?_
  refine (memWrite _ _ _).step_then (c := 0) (d := 1) fun _ => (memWrite _ _ _).wait_then fun _ => ?_
  refine barrier.wait_then fun _ => (memWrite _ _ _).wait_then fun _ => ?_
  refine (ghost fun _ => by cases r <;> rfl).wait_then fun _ => ?_
  refine (act fun _ => by cases r <;> exact ⟨rfl, rfl, rfl⟩).wait_then fun _ => barrier.wait_then fun _ => ?_
  exact (emitEvent _).wait_then fun _ => .ite ((emitEvent _).waits) (pure ())

/-! The channel multiplexer (R510, R520, R530, R540, R541). -/

theorem fillBuffer (job : TxJob) (x : Nat) : (fillBuffer job x).Paced 1 1 := by
  refine (getRing _).wait_then fun ring => (memRead _ _).step_then (c := 0) (d := 1) fun baddr => ?_
  refine (memRead _ _).wait_then fun cap => getStage.wait_then fun bytes => ?_
  refine .ite ((raiseFault _).waits) ?_
  exact (writeBytes _ _).wait_then fun _ => writeBytes _ _

theorem publishPacket (job : TxJob) (x : Nat) : (publishPacket job x).Paced 1 1 :=
  getStage.wait_then fun _ => (publish _ _ _ _).step_then fun _ => finish _

theorem transmit (job : TxJob) : (transmit job).Paced 1 1 := by
  refine (enterPhase _).wait_then fun _ => (take .tx).step_then (c := 0) (d := 0) fun o => ?_
  cases o with
  | none => exact hold
  | some x =>
    exact (enterPhase (b := 0) _).seq fun _ => (fillBuffer job x).seq fun _ =>
      (enterPhase (b := 0) _).seq fun _ => publishPacket job x

theorem createChannel (i : Nat) : (createChannel i).Paced 1 1 := by
  refine operand0.wait_then fun na => (readName _ _).wait_then fun bs => ?_
  refine (of_read (fun s => s.nextAddr) fun _ => rfl).wait_then fun addr => getCfg.wait_then fun cfg => ?_
  refine wait_then (act fun _ => ⟨rfl, rfl, rfl⟩) fun _ => ?_
  exact wait_then (act fun _ => ⟨rfl, rfl, rfl⟩) fun _ => transmit _

theorem chCreateBody : Machine.chCreateBody.Paced 1 1 := by
  refine (requireInit .tx).wait_then fun _ => getSlots.wait_then fun slots => ?_
  split
  · exact failWith _
  · exact createChannel _

theorem markTrunc (n : Nat) : (Machine.markTrunc n).Paced 0 1 :=
  ite (waits (act fun _ => ⟨rfl, rfl, rfl⟩)) (pure ())

theorem sendOn (slot : Slot) : (sendOn slot).Paced 1 1 := by
  refine (requireInit .tx).wait_then fun _ => operand0.wait_then fun pa => operand1.wait_then fun n => ?_
  refine wait_then (markTrunc _) fun _ => (readBytes _ _).wait_then fun bytes => ?_
  exact wait_then (act fun _ => ⟨rfl, rfl, rfl⟩) fun _ => transmit _

theorem chSendBody (idx : Nat) : (chSendBody idx).Paced 1 1 := by
  refine getCfg.wait_then fun cfg => getSlots.wait_then fun slots => ?_
  split
  · exact finish _
  · exact sendOn _

theorem dropPacket : Machine.dropPacket.Paced 1 1 := act fun _ => ⟨rfl, rfl, rfl⟩

theorem dispatch (src dst : Word) (pa plen : Nat) : (dispatch src dst pa plen).Paced 1 1 := by
  refine getSlots.wait_then fun slots => ?_
  split
  · exact dropPacket
  · exact (readBytes _ _).wait_then fun _ => act (deliver_sameRun _ _ _ _)

theorem inspectPacket (ba dl : Nat) : (inspectPacket ba dl).Paced 1 1 :=
  .ite dropPacket ((readBytes _ _).wait_then fun _ => .ite dropPacket (dispatch _ _ _ _))

theorem receive (x : Nat) : (receive x).Paced 1 1 := by
  refine (getRing _).wait_then fun ring => (memRead _ _).wait_then fun ba => (memRead _ _).wait_then fun dl => ?_
  exact (inspectPacket _ _).wait_then fun _ => getCfg.wait_then fun cfg => publish _ _ _ _

/-! POLL (R620, R630). -/

theorem drain (k : Nat) : (drain (k + 1)).Paced 1 1 := by
  induction k with
  | zero =>
    refine (take .rx).step_then (c := 0) (d := 0) fun o => ?_
    cases o with
    | none => exact pure ()
    | some x => exact (receive x).seq fun _ => hold
  | succ k ih =>
    refine (take .rx).step_then (c := 0) (d := 0) fun o => ?_
    cases o with
    | none => exact pure ()
    | some x => exact (receive x).seq fun _ => ih

theorem drainAndFinish : Machine.drainAndFinish.Paced 1 1 :=
  (enterPhase _).wait_then fun _ => (drain (2 ^ 16)).step_then fun _ => finish 1

theorem pollBody : Machine.pollBody.Paced 1 1 := by
  have htx : swapTxKicks.Paced 1 1 := Prog.Instant.paced fun _ => .inl ⟨_, _, rfl, rfl, rfl, rfl⟩
  have hrx : swapRxKicks.Paced 1 1 := Prog.Instant.paced fun _ => .inl ⟨_, _, rfl, rfl, rfl, rfl⟩
  have hmaint : ∀ tx, (maintainCache tx).Paced 0 1 := fun tx =>
    .ite ((emitEvent _).waits) (pure ())
  refine (requireInit .rx).wait_then fun _ => htx.wait_then fun tx => hrx.wait_then fun rx => ?_
  exact (hmaint tx).wait_then fun _ => .ite drainAndFinish (finish _)

/-! The ring commands (R400 to R404). -/

theorem ringInitBody (r : RingId) : (ringInitBody r).Paced 1 1 := by
  refine operand0.wait_then fun base => getCfg.wait_then fun cfg => .ite (failWith _) (.ite (failWith _) ?_)
  exact (act fun _ => by constructor <;> simp).wait_then fun _ => finish 0

theorem ringTryTakeBody (r : RingId) : (ringTryTakeBody r).Paced 1 1 :=
  (requireInit r).wait_then fun _ => (take r).wait_then fun _ => finish _

theorem ringHasIncomingBody (r : RingId) : (ringHasIncomingBody r).Paced 1 1 :=
  (requireInit r).wait_then fun _ => (availHead r).wait_then fun _ => (getRing r).wait_then fun _ => finish _

theorem ringPublishBody (r : RingId) (kick : Bool) (idx : Nat) : (ringPublishBody r kick idx).Paced 1 1 := by
  refine (requireInit r).wait_then fun _ => getCfg.wait_then fun cfg => .ite (failWith _) ?_
  exact operand0.wait_then fun len => (publish _ _ _ _).wait_then fun _ => finish 0

end Prog.Paced

end

/-! A command that is reset (R801). -/

/-- Every command is the `CMD` write of a program that begins with a step, once it has looked at the block's state. -/
theorem exec_eq_issue (i : Instr) : ∃ body : Prog Unit, body.Paced 1 1 ∧ exec i = issue (encode i) body := by
  cases i with
  | ringInit r => exact ⟨_, .ringInitBody r, rfl⟩
  | ringTryTake r => exact ⟨_, .ringTryTakeBody r, rfl⟩
  | ringHasIncoming r => exact ⟨_, .ringHasIncomingBody r, rfl⟩
  | ringPublish r kick idx => exact ⟨_, .ringPublishBody r kick idx, rfl⟩
  | chCreate => exact ⟨_, .chCreateBody, rfl⟩
  | chSend idx => exact ⟨_, .chSendBody idx, rfl⟩
  | poll => exact ⟨_, .pollBody, rfl⟩

/-- So is a retry after a hold, and the rest of a drain (R530, R630). -/
theorem State.resumption_paced {s : State} {p : Prog Unit} (h : s.resumption = some p) : p.Paced 1 1 := by
  unfold State.resumption at h
  split at h
  · cases h
  · split at h
    · split at h
      · cases h
        exact .transmit _
      · cases h
    · cases h
      exact .drainAndFinish
    · cases h
    · cases h

theorem exec_abandoned {s : State} {rest : List Input} (i : Instr) (he : s.env = .act .reset :: rest)
    (ha : s.accepting = true) : exec i s = .next (State.blockReset { s with env := rest }) := by
  obtain ⟨body, hbody, hexec⟩ := exec_eq_issue i
  rw [hexec, issue_accepting ha]
  exact Prog.outcome_halt (hbody.abandoned (s := s.accept (encode i)) he)

theorem step_resumption_abandoned {s : State} {rest : List Input} (hv : s.cfg.valid = true)
    (hr : s.resumption.isSome = true) (he : s.env = .block :: .act .reset :: rest) :
    step s = .next (State.blockReset { s with env := rest }) := by
  obtain ⟨p, hp⟩ := Option.isSome_iff_exists.mp hr
  have hp' : State.resumption { s with env := .act .reset :: rest } = some p := hp
  rw [step_of_env_block hv he, blockMove, hp']
  exact Prog.outcome_halt ((State.resumption_paced hp).abandoned rfl)

theorem Prog.Paced.outcome {a b : Nat} {p : Prog Unit} {s t : State} (hp : p.Paced a b) (hs : CutShort s.env)
    (h : p.outcome s = .next t) : (∃ n, s.Onward n t) ∨ s.AbandonedAs t := by
  have hpost := hp s hs
  unfold Prog.outcome at h
  cases hps : p s with
  | ok x =>
    rw [hps] at hpost h
    cases h
    obtain ⟨n, -, hn⟩ := hpost
    exact .inl ⟨n, hn⟩
  | error e =>
    rw [hps] at hpost h
    match e, hpost with
    | .halt u, hpost =>
      cases h
      exact hpost.imp_left fun ⟨n, _, hn⟩ => ⟨n, hn⟩

/-- A command ends without reaching the reset, or is abandoned. -/
theorem exec_onward_or_abandoned {i : Instr} {s t : State} (hs : CutShort s.env) (h : exec i s = .next t) :
    (∃ n, s.Onward n t) ∨ s.AbandonedAs t := by
  obtain ⟨body, hbody, hexec⟩ := exec_eq_issue i
  rw [hexec] at h
  by_cases ha : s.accepting = true
  · rw [issue_accepting ha] at h
    have hacc : s.Onward 0 (s.accept (encode i)) := ⟨rfl, rfl, rfl, fun _ => rfl⟩
    obtain ⟨n, hn⟩ | ⟨n, u, rest, hu, he, ht⟩ := hbody.outcome (s := s.accept _) hs h
    · exact .inl ⟨0 + n, hacc.trans hn⟩
    · exact .inr ⟨0 + n, u, rest, hacc.trans hu, he, ht⟩
  · rw [issue_of_not_accepting (by simpa using ha)] at h
    cases h
    exact .inl ⟨0, rfl, rfl, rfl, fun _ => rfl⟩

/-- Before the reset the schedule is longer than what comes after it. -/
theorem State.Onward.env_ne {n k : Nat} {s t : State} {rest : List Input} (h : s.Onward n t)
    (he : s.env = List.replicate k .block ++ .act .reset :: rest) : t.env ≠ rest := by
  intro ht
  have henv : List.replicate n Input.block ++ rest = List.replicate k .block ++ .act .reset :: rest := by
    rw [← ht, ← h.env, he, ht]
  obtain rfl : n = k + 1 := by
    have hlen := congrArg List.length henv
    simp only [List.length_append, List.length_replicate, List.length_cons] at hlen
    omega
  rw [List.replicate_succ', List.append_assoc] at henv
  cases List.append_cancel_left henv

/-- Of the block's work only memory and the peer's ghost state are left. -/
theorem State.AbandonedAs.eq {s t : State} (h : s.AbandonedAs t) : t = State.blockReset { s with
    env := t.env, mem := t.mem, peerRx := t.peerRx, peerTx := t.peerTx, peerWrote := t.peerWrote } := by
  obtain ⟨n, u, rest, hu, -, rfl⟩ := h
  simp only [State.blockReset, hu.cfg, hu.reads]

/-! A PUBLISH that is reset (R410, R801). -/

/-- When `p`, begun in `s`, is reset after `k` steps, memory holds `ms[k]`, and all else that a reset
leaves is as in `s`. -/
def Prog.Leaves {α : Type} (p : Prog α) (s : State) (ms : List Memory) : Prop :=
  ∀ k rest m, ms[k]? = some m → p { s with env := List.replicate k .block ++ .act .reset :: rest }
    = .error (.halt (State.blockReset { s with env := rest, mem := m }))

namespace Prog.Leaves

variable {α β : Type} {p : Prog α} {f : α → Prog β} {s t : State} {m : Memory} {ms : List Memory} {x : α}

theorem of_paced (hp : p.Paced 1 1) (hm : s.mem = m) : p.Leaves s [m] := by
  intro k rest m' hk
  subst hm
  cases k with
  | zero =>
    cases hk
    exact hp.abandoned rfl
  | succ k => cases hk

/-- An operation without a step. -/
theorem wait (hp : ∀ es, p { s with env := es } = .ok (x, { t with env := es }))
    (ht : t.blockReset = s.blockReset) (h : (f x).Leaves t ms) : (p >>= f).Leaves s ms := by
  intro k rest m hk
  rw [Prog.bind_ok (hp _), h k rest m hk]
  exact congrArg (fun u : State => Except.error (Stop.halt { u with env := rest, mem := m })) ht

/-- A step. -/
theorem step (hpace : p.Paced 1 1) (hp : ∀ es, p { s with env := .block :: es } = .ok (x, { t with env := es }))
    (ht : State.blockReset { t with mem := s.mem } = s.blockReset) (hm : s.mem = m) (h : (f x).Leaves t ms) :
    (p >>= f).Leaves s (m :: ms) := by
  intro k rest m' hk
  subst hm
  cases k with
  | zero =>
    cases hk
    exact Prog.bind_error (hpace.abandoned rfl)
  | succ k =>
    refine (Prog.bind_ok (hp _)).trans ((h k rest m' hk).trans ?_)
    exact congrArg (fun u : State => Except.error (Stop.halt { u with env := rest, mem := m' })) ht

theorem act {g : State → State} {f : Unit → Prog β} (hg : ∀ u es, g { u with env := es } = { g u with env := es })
    (hr : ∀ u, (g u).blockReset = u.blockReset) (hm : s.mem = m) (h : (f ()).Leaves (g s) ms) :
    (act g >>= f).Leaves s (m :: ms) := by
  refine step (t := g s) (.act fun u => .of_blockReset (hr u)) (fun es => ?_) ?_ hm h
  · refine (Prog.bind_ok (yield_of_block rfl)).trans ?_
    exact congrArg (fun u => Except.ok ((), u)) (hg s es)
  · exact congrArg (fun u : State => { u with mem := s.mem }) (hr s)

theorem memWrite {a v : Nat} {w : Width} {f : Unit → Prog β} (hm : s.mem = m) (hb : s.admits a w.bytes = true)
    (hv : v < 2 ^ (8 * w.bytes)) (h : ∀ t, t.cfg = s.cfg → t.mem = m.writeLE a w.bytes v → (f ()).Leaves t ms) :
    (memWrite a w v >>= f).Leaves s (m :: ms) := by
  refine step (t := s.storeBy .block a w v) (.memWrite a w v) (fun es => ?_) rfl hm (h _ rfl ?_)
  · exact (Prog.bind_ok (yield_of_block rfl)).trans (if_pos hb)
  · rw [State.storeBy, Nat.mod_eq_of_lt hv, hm]

end Prog.Leaves

/-- A PUBLISH and the end of its command, when its writes are backed (R410): its eight steps up to the `KickOut`, or
without one up to the completion. -/
theorem publish_finish_leaves {s : State} {r : RingId} {d len : Nat} (kick : Bool) (res : Word)
    (hb : s.publishBacked r) (hd : d < 2 ^ 32) (hl : len < 2 ^ 32) :
    (publish r d len kick >>= fun _ => finish res).Leaves s
      ((List.range 8).map (publishMemUpTo s.mem (s.ring r) s.cfg.n d len)) := by
  obtain ⟨hid, hlen, hidx⟩ := hb
  unfold publish
  simp only [bind_assoc]
  refine .wait (t := s.notePublishNotHeld (!(s.ring r).held.contains d)) (fun _ => by cases r <;> rfl) rfl ?_
  refine .wait (x := s.ring r) (fun _ => by cases r <;> rfl) rfl (.wait (x := s.cfg) (fun _ => rfl) rfl ?_)
  refine .memWrite rfl hid hd fun t1 hcfg1 hm1 => ?_
  refine .memWrite hm1 ((State.admits_congr hcfg1 _ _).trans hlen) hl fun t2 hcfg2 hm2 => ?_
  refine .act (fun _ _ => rfl) (fun _ => rfl) hm2 ?_
  refine .memWrite hm2 ((State.admits_congr (hcfg2.trans hcfg1) _ _).trans hidx) (BitVec.isLt _) fun t3 _ hm3 => ?_
  refine .wait (t := ghostRelease r d t3) (fun _ => by cases r <;> rfl) (by cases r <;> rfl) ?_
  have hm4 := (ghostRelease_mem t3 r d).trans hm3
  have hm5 := (advanceUsedHead_mem (ghostRelease r d t3) r).trans hm4
  refine .act (fun _ _ => by cases r <;> rfl) (fun _ => by cases r <;> rfl) hm4 ?_
  refine .act (fun _ _ => rfl) (fun _ => rfl) hm5 (.act (fun _ _ => rfl) (fun _ => rfl) hm5 (.of_paced ?_ hm5))
  exact .wait_then (a := 0) (.ite (Prog.Paced.emitEvent _).waits (.pure ())) fun _ => .finish res

theorem ringPublishBody_leaves {s : State} {r : RingId} {idx : Nat} (kick : Bool)
    (hwf : (Instr.ringPublish r kick idx).wf = true) (hi : (s.ring r).inited = true) (hlt : idx < s.cfg.n)
    (hb : s.publishBacked r) :
    (ringPublishBody r kick idx).Leaves s
      ((List.range 8).map (publishMemUpTo s.mem (s.ring r) s.cfg.n idx s.seq.latched.arg0.toNat)) := by
  unfold ringPublishBody
  refine .wait (x := ()) (t := s) (fun _ => requireInit_on (by cases r <;> exact hi)) rfl ?_
  refine .wait (x := s.cfg) (t := s) (fun _ => rfl) rfl ?_
  rw [if_neg (not_le.mpr hlt)]
  refine .wait (x := s.seq.latched.arg0) (t := s) (fun _ => rfl) rfl ?_
  exact publish_finish_leaves kick 0 hb (lt_of_ringPublish_wf hwf) s.seq.latched.arg0.isLt

/-- R801: the accesses a RING_PUBLISH has made stay, and none of the later ones happens. -/
theorem exec_ringPublish_abandoned {s : State} {r : RingId} {kick : Bool} {idx k : Nat} {rest : List Input}
    (hwf : (Instr.ringPublish r kick idx).wf = true) (he : s.env = List.replicate k .block ++ .act .reset :: rest)
    (hk : k < 8) (ha : s.accepting = true) (hi : (s.ring r).inited = true) (hlt : idx < s.cfg.n)
    (hb : s.publishBacked r) :
    exec (.ringPublish r kick idx) s = .next (State.blockReset { s with
      env := rest, mem := publishMemUpTo s.mem (s.ring r) s.cfg.n idx s.arg0.toNat k }) := by
  have hring : (s.accept (encode (.ringPublish r kick idx))).ring r = s.ring r := by cases r <;> rfl
  have hleaves := ringPublishBody_leaves (s := s.accept (encode (.ringPublish r kick idx))) kick hwf
    (by rw [hring]; exact hi) hlt (by rw [State.publishBacked, hring]; exact hb)
  rw [hring] at hleaves
  have hbody := hleaves k rest (publishMemUpTo s.mem (s.ring r) s.cfg.n idx s.arg0.toNat k) (by simp [hk, Seq.latched])
  rw [← he] at hbody
  exact (issue_accepting ha).trans (Prog.outcome_halt hbody)

/-- Settles O11: a command, like a retry, begins with a step, so a reset that comes first finds nothing done; a command
that has used up the schedule to behind the reset was abandoned there; a RING_PUBLISH is followed step by step. -/
theorem resetAbandonsRunningCommand : Obligations.ResetAbandonsRunningCommand := by
  intro s rest
  refine ⟨fun i he ha => exec_abandoned i he ha, fun hv hr he => step_resumption_abandoned hv hr he,
    fun i k t he h ht => ?_, fun r kick idx k hwf he hk ha hi hlt hb => ?_⟩
  · have hs : CutShort s.env := he ▸ cutShort_replicate k rest
    have hend := (exec_onward_or_abandoned hs h).resolve_left fun ⟨n, hn⟩ => hn.env_ne he ht
    subst ht
    exact hend.eq
  · exact exec_ringPublish_abandoned hwf he hk ha hi hlt hb

end Sys2Proof.Machine
